-- ==== Sys2Proof/Word.lean ====
section
/-! DEFINITION. The two value types of ICB: the byte and the 32-bit register value (00_scope.md R8). -/

namespace Sys2Proof

/-- A `u8` (00_scope.md R8): one byte of a buffer or of a data stream. -/
abbrev Byte := BitVec 8

/-- A `u32` (00_scope.md R8): a register value, a command word, a buffer address. -/
abbrev Word := BitVec 32

end Sys2Proof
end

