-- ==== Sys2Proof/Config.lean ====
section
/-! DEFINITION. What an implementation fixes (the open parameters of 00_scope.md R7) and the free values of the points
the spec calls unspecified (93_implementation_defined.md U4, U5, U16). None has a body: no proof can see a value. -/

namespace Sys2Proof.Config

/-- `IBUF_SIZE` (00_scope.md R7, 10_state.md R31): the capacity of `IBUF` on the machine that resets; any natural
`<= 2^32 - 1`. DESIGN CHOICE, log entry 3. -/
opaque ibufSize : Word

/-- `OBUF_SIZE` (00_scope.md R7, 10_state.md R31): the capacity of `OBUF` on the machine that resets. DESIGN CHOICE,
log entry 3. -/
opaque obufSize : Word

/-- The free value of a byte of `IBUF` that nothing has written since hardware reset (93_implementation_defined.md U4:
"any value per byte, fixed at reset"), by draw and address. DESIGN CHOICE, log entry 4. -/
opaque freeIbuf : Nat → Nat → Byte

/-- The free value of an unspecified byte of `OBUF` (U4 after hardware reset, U5 after `OVERFLOW`), by draw and address.
DESIGN CHOICE, log entries 4 and 5. -/
opaque freeObuf : Nat → Nat → Byte

/-- The free value of `OLEN` after a `PB_ENCODE` that completed with `OVERFLOW` (U5), by draw. DESIGN CHOICE, log entry 5. -/
opaque freeOlen : Nat → Word

end Sys2Proof.Config
end

