-- ==== Sys2Proof/Syntax.lean ====
section
/-! DEFINITION. The instructions: one constructor for each row of spec/opcode_table.json, eleven commands (00_scope.md R2)
and six data-format records (30_encoding.md R83 to R86, R90). -/

namespace Sys2Proof

/-- The formats of spec/opcode_table.json: the command word `CW` (30_encoding.md R80) and the five data formats. -/
inductive Format where
  | cw
  | pbToken
  | pngSig
  | pngChunk
  | ihdrBody
  | srgbBody
  deriving DecidableEq, Repr

/-- The seven fields of an IHDR body, in stream order (30_encoding.md R85). -/
structure IhdrBody where
  width     : Word
  height    : Word
  depth     : Byte
  colorType : Byte
  compr     : Byte
  filter    : Byte
  interlace : Byte
  deriving DecidableEq, Repr

/-- The instructions of ICB. The eleven commands are executed by a write to `CMD` (10_state.md R25). The six records are
data formats the commands read or write, not commands (opcode_table.json, kind `data_format`; log entry 7): each carries
the whole record, not its fixed bits alone. -/
inductive Instr where
  /-- `NOP`, 43_control_and_access.md R180. -/
  | nop
  /-- `SRESET`, 43_control_and_access.md R181. -/
  | sreset
  /-- `CRC_INIT`, 40_crc32.md R115. -/
  | crcInit
  /-- `CRC_BYTE imm8`, 40_crc32.md R116. -/
  | crcByte (imm8 : Byte)
  /-- `CRC_BUF`, 40_crc32.md R117. -/
  | crcBuf
  /-- `CRC_SUM`, 40_crc32.md R118. -/
  | crcSum
  /-- `PNG_OPEN`, 41_png_chunk.md R133. -/
  | pngOpen
  /-- `PNG_NEXT`, 41_png_chunk.md R134. -/
  | pngNext
  /-- `PNG_IHDR`, 41_png_chunk.md R135. -/
  | pngIhdr
  /-- `PNG_PEEK`, 41_png_chunk.md R136. -/
  | pngPeek
  /-- `PB_ENCODE`, 42_packbits.md R164. -/
  | pbEncode
  /-- `PB.LIT`, a literal token: its 1 to 128 literal bytes; the header is their number less 1 (30_encoding.md R86). -/
  | pbLit (data : List Byte)
  /-- `PB.RUN`, a run token: `value` repeated `count` (3 to 130) times; the header is `count + 125` (30_encoding.md R86). -/
  | pbRun (count : Nat) (value : Byte)
  /-- `PNG.SIG`, the eight signature bytes (30_encoding.md R83). -/
  | pngSig
  /-- `PNG.CHUNK`, one chunk record; its length field is the number of its data bytes (30_encoding.md R84). -/
  | pngChunk (tag : Word) (data : List Byte) (crc : Word)
  /-- `PNG.IHDR_BODY`, the 13 data bytes of a chunk tagged `IHDR` (30_encoding.md R85). -/
  | pngIhdrBody (body : IhdrBody)
  /-- `PNG.SRGB_BODY`, the one data byte of a chunk tagged `sRGB` (30_encoding.md R90). -/
  | pngSrgbBody (intent : Byte)
  deriving DecidableEq, Repr

end Sys2Proof
end

