-- ==== Sys2Proof/Machine/State.lean ====
section
/-! DEFINITION. The state of ICB as plain data (10_state.md), what the host gives and gets (20_memory.md R60), the reset state
(10_state.md R43, 70_reset_and_hazards.md R231), and the reasons a step could stop. -/

namespace Sys2Proof.Machine

/-- The completion codes of 60_exceptions.md R211. -/
inductive Code where
  | ok
  | illegalCmd
  | range
  | sequence
  | overflow
  | fmtSignature
  | fmtTruncated
  | fmtMissingIhdr
  | fmtIhdrLen
  deriving DecidableEq, Repr

/-- The fields of `STATUS` (10_state.md R26). Bits 31:14 are reserved, read as 0 and are never set, so they have no storage;
`Status.toWord` is the register's value (log entry 6). -/
structure Status where
  /-- `ERR`, bits 7:0. -/
  err     : Code
  /-- `STICKY`, bit 8. -/
  sticky  : Bool
  /-- `P_OPEN`, bit 9. -/
  pOpen   : Bool
  /-- `EOS`, bit 10. -/
  eos     : Bool
  /-- `CH_VALID`, bit 11. -/
  chValid : Bool
  /-- `CRC_OK`, bit 12. -/
  crcOk   : Bool
  /-- `IH_VALID`, bit 13. -/
  ihValid : Bool
  deriving DecidableEq, Repr

/-- `STATUS` = 0 (10_state.md R43). -/
def Status.reset : Status := ⟨.ok, false, false, false, false, false, false⟩

/-- One operation on the machine from outside. -/
inductive HostOp where
  /-- `RegRead(n)` (20_memory.md R60). -/
  | regRead (n : Word)
  /-- `RegWrite(n, v)` (R60); with `n = 0` it executes the command word `v` (10_state.md R25). -/
  | regWrite (n v : Word)
  /-- `IbufWrite(a, b)` (R60). -/
  | ibufWrite (a : Word) (b : Byte)
  /-- `ObufRead(a)` (R60). -/
  | obufRead (a : Word)
  /-- Hardware reset: not one of the host's four, "an operation of its own" (70_reset_and_hazards.md R230). -/
  | hardwareReset
  deriving DecidableEq, Repr

/-- What a read gives the host. -/
inductive Reply where
  /-- The result of `RegRead(n)`. -/
  | reg (n v : Word)
  /-- The result of `ObufRead(a)`. -/
  | obuf (a : Word) (b : Byte)
  deriving DecidableEq, Repr

/-- The state: the registers that have storage (10_state.md R24), the two buffers (R38, R39), and the model's own fields:
which free draws unspecified bytes read from, what the host has still to do, and what it has read (log entries 1, 4, 5). -/
structure State where
  /-- `STATUS` (0x01). -/
  status   : Status
  /-- `ERRINFO` (0x02). -/
  errInfo  : Word
  /-- `ILEN` (0x03). -/
  ilen     : Word
  /-- `OLEN` (0x04). -/
  olen     : Word
  /-- `SRC_OFF` (0x05). -/
  srcOff   : Word
  /-- `SRC_LEN` (0x06). -/
  srcLen   : Word
  /-- `IBUF_SIZE` (0x07): nothing writes it (10_state.md R31; log entry 3). -/
  ibufSize : Word
  /-- `OBUF_SIZE` (0x08): nothing writes it (10_state.md R31; log entry 3). -/
  obufSize : Word
  /-- `CRC_R` (0x10). -/
  crcR     : Word
  /-- `P_POS` (0x20). -/
  pPos     : Word
  /-- `CH_LEN` (0x21). -/
  chLen    : Word
  /-- `CH_TAG` (0x22). -/
  chTag    : Word
  /-- `CH_DOFF` (0x23). -/
  chDoff   : Word
  /-- `CH_CRC` (0x24). -/
  chCrc    : Word
  /-- `CH_CALC` (0x25). -/
  chCalc   : Word
  /-- `IH_WIDTH` (0x28). -/
  ihWidth  : Word
  /-- `IH_HEIGHT` (0x29). -/
  ihHeight : Word
  /-- `IH_DEPTH` (0x2A). -/
  ihDepth  : Word
  /-- `IH_CTYPE` (0x2B). -/
  ihCtype  : Word
  /-- `IH_COMP` (0x2C). -/
  ihComp   : Word
  /-- `IH_FILT` (0x2D). -/
  ihFilt   : Word
  /-- `IH_ILACE` (0x2E). -/
  ihIlace  : Word
  /-- `IBUF`: the bytes written since hardware reset. -/
  ibuf     : Memory
  /-- `OBUF`: the bytes whose value is specified or left from an earlier `PB_ENCODE`. -/
  obuf     : Memory
  /-- The free draw the never-written bytes of `IBUF` read from (the model's own). -/
  ibufDraw : Nat
  /-- The free draw the unspecified bytes of `OBUF` read from (the model's own). -/
  obufDraw : Nat
  /-- The host operations still to perform, oldest first (the model's own). -/
  pending  : List HostOp
  /-- What the host has read, oldest first (the model's own; 70_reset_and_hazards.md R236). -/
  replies  : List Reply
  deriving DecidableEq, Repr

/-- Why the machine would stop. -/
inductive Fault where
  /-- Raised by `PNG_PEEK` if its walk were longer than `ILEN` chunks. Safe; and no state reaches it, since every chunk takes
  at least 12 bytes (41_png_chunk.md R136; log entry 13). -/
  | walkUnfinished
  deriving DecidableEq, Repr

/-- Why the model would give an instruction no meaning. -/
inductive Refusal where
  /-- Raised by an arm of `exec` that has no meaning yet; safe. Every arm has one, so nothing raises it. -/
  | notModelled (mnemonic : String)
  deriving DecidableEq, Repr

/-- What a step answers. -/
abbrev Answer := Host.Outcome State Fault Refusal

/-- The state right after hardware reset (10_state.md R43, 70_reset_and_hazards.md R231): every register at its reset value,
`CRC_R` at all ones, the sizes at the parameters, every byte of `IBUF` and `OBUF` unspecified. -/
def State.reset : State where
  status   := Status.reset
  errInfo  := 0
  ilen     := 0
  olen     := 0
  srcOff   := 0
  srcLen   := 0
  ibufSize := Config.ibufSize
  obufSize := Config.obufSize
  crcR     := 0xFFFFFFFF
  pPos     := 0
  chLen    := 0
  chTag    := 0
  chDoff   := 0
  chCrc    := 0
  chCalc   := 0
  ihWidth  := 0
  ihHeight := 0
  ihDepth  := 0
  ihCtype  := 0
  ihComp   := 0
  ihFilt   := 0
  ihIlace  := 0
  ibuf     := []
  obuf     := []
  ibufDraw := 0
  obufDraw := 0
  pending  := []
  replies  := []

end Sys2Proof.Machine
end

