-- ==== Sys2Proof/Machine/Flags.lean ====
section
/-! DEFINITION. `STATUS` (10_state.md R26): the codes' numbers, the register's 32-bit value, and the flag changes the commands
share. -/

namespace Sys2Proof.Machine

/-- The number of a completion code (60_exceptions.md R211). -/
def Code.toByte : Code → Byte
  | .ok             => 0x00
  | .illegalCmd     => 0x01
  | .range          => 0x02
  | .sequence       => 0x03
  | .overflow       => 0x04
  | .fmtSignature   => 0x10
  | .fmtTruncated   => 0x11
  | .fmtMissingIhdr => 0x12
  | .fmtIhdrLen     => 0x13

/-- A flag at its bit of `STATUS`. -/
def flagBit (bit : Nat) (f : Bool) : Word := if f then BitVec.ofNat 32 (2 ^ bit) else 0

/-- The value of the register `STATUS` (10_state.md R26); bits 31:14 read as 0. -/
def Status.toWord (st : Status) : Word :=
  st.err.toByte.setWidth 32 ||| flagBit 8 st.sticky ||| flagBit 9 st.pOpen ||| flagBit 10 st.eos
    ||| flagBit 11 st.chValid ||| flagBit 12 st.crcOk ||| flagBit 13 st.ihValid

/-- The five flags of PCP cleared: no open parse (20_memory.md R62, 41_png_chunk.md R133). -/
def Status.closed (st : Status) : Status :=
  { st with pOpen := false, eos := false, chValid := false, crcOk := false, ihValid := false }

/-- The flags when the walk reaches the end of `ibuf` (41_png_chunk.md R134). -/
def Status.atEnd (st : Status) : Status :=
  { st with eos := true, chValid := false, crcOk := false }

/-- The flags when a chunk is yielded, with the validator's verdict (41_png_chunk.md R134, R139). -/
def Status.withChunk (st : Status) (verdict : Bool) : Status :=
  { st with chValid := true, crcOk := verdict }

/-- Normal completion (60_exceptions.md R212): `ERR` alone. -/
def Status.completedOk (st : Status) : Status := { st with err := .ok }

/-- Error completion (60_exceptions.md R212): `ERR` and `STICKY`. -/
def Status.completedWith (st : Status) (e : Code) : Status := { st with err := e, sticky := true }

end Sys2Proof.Machine
end

