-- ==== Sys2Proof/Decode.lean ====
section
/-! DEFINITION. The encodings of 30_encoding.md: byte order helpers (00_scope.md R10, 20_memory.md R64), the decoder (total,
rejecting by name), and after it the encoder, each written from the spec's tables. -/

namespace Sys2Proof

/-! ## Byte order -/

/-- `be32` of 00_scope.md R10: four bytes, the first most significant. -/
def be32 (b0 b1 b2 b3 : Byte) : Word :=
  BitVec.ofNat 32 (b0.toNat * 2 ^ 24 + b1.toNat * 2 ^ 16 + b2.toNat * 2 ^ 8 + b3.toNat)

/-- `be32_bytes` of 00_scope.md R10: bits 31:24 first. -/
def be32Bytes (v : Word) : List Byte :=
  [v.extractLsb' 24 8, v.extractLsb' 16 8, v.extractLsb' 8 8, v.extractLsb' 0 8]

/-- The four bytes at the head of a byte string, read big-endian (20_memory.md R64), and what follows them. -/
def takeWord : List Byte → Option (Word × List Byte)
  | b0 :: b1 :: b2 :: b3 :: rest => some (be32 b0 b1 b2 b3, rest)
  | _ => none

/-- The first `n` bytes of a byte string and what follows them, where there are that many. -/
def takeBytes (n : Nat) (bs : List Byte) : Option (List Byte × List Byte) :=
  if bs.length < n then none else some (bs.take n, bs.drop n)

/-! ## Constants of the formats (00_scope.md R6) -/

/-- `PNG_SIG` (00_scope.md R6, 30_encoding.md R83). -/
def pngSignature : List Byte := [137, 80, 78, 71, 13, 10, 26, 10]

/-- `TAG_IHDR` (00_scope.md R6). -/
def tagIhdr : Word := 0x49484452
/-- `TAG_SRGB` (00_scope.md R6). -/
def tagSrgb : Word := 0x73524742
/-- `TAG_IDAT` (00_scope.md R6). -/
def tagIdat : Word := 0x49444154
/-- `TAG_IEND` (00_scope.md R6). -/
def tagIend : Word := 0x49454E44

/-! ## Decoding -/

/-- Why a decoder refuses. -/
inductive DecodeError where
  /-- Bits 31:16 of the command word are not 0 (30_encoding.md R82). -/
  | reservedBits
  /-- Bits 7:0 are none of the eleven opcodes (R82). -/
  | unassignedOpcode
  /-- Bits 15:8 are not 0 on a command other than `CRC_BYTE` (R82). -/
  | strayImmediate
  /-- The first eight bytes are not `PNG_SIG` (R83). -/
  | wrongSignature
  /-- The byte string ends inside the record (R84, R86). -/
  | truncatedRecord
  deriving DecidableEq, Repr

/-- The ten commands without an immediate, by opcode (30_encoding.md R81). -/
def fixedCommand (op : Byte) : Option Instr :=
  match op.toNat with
  | 0x00 => some .nop
  | 0x01 => some .sreset
  | 0x10 => some .crcInit
  | 0x12 => some .crcBuf
  | 0x13 => some .crcSum
  | 0x20 => some .pngOpen
  | 0x21 => some .pngNext
  | 0x22 => some .pngIhdr
  | 0x23 => some .pngPeek
  | 0x30 => some .pbEncode
  | _    => none

/-- The command a 32-bit word encodes (30_encoding.md R80 to R82): `op` in bits 7:0, `imm8` in bits 15:8, bits 31:16
reserved. -/
def decodeCommand (w : Word) : Except DecodeError Instr :=
  let op   : Byte := w.extractLsb' 0 8
  let imm8 : Byte := w.extractLsb' 8 8
  if w.extractLsb' 16 16 ≠ 0 then .error .reservedBits
  else if op = 0x11 then .ok (.crcByte imm8)
  else match fixedCommand op with
    | none   => .error .unassignedOpcode
    | some i => if imm8 = 0 then .ok i else .error .strayImmediate

/-- A PackBits-ICNS token at the head of a byte string (30_encoding.md R86). -/
def takeToken : List Byte → Option (Instr × List Byte)
  | [] => none
  | h :: rest =>
    if h.toNat ≤ 127 then (takeBytes (h.toNat + 1) rest).map fun (data, rest') => (.pbLit data, rest')
    else match rest with
      | []         => none
      | b :: rest' => some (.pbRun (h.toNat - 125) b, rest')

/-- A chunk record at the head of a byte string (30_encoding.md R84): length, tag, that many data bytes, crc. -/
def takeChunkRecord (bs : List Byte) : Option ((Word × List Byte × Word) × List Byte) :=
  (takeWord bs).bind fun (len, r0) =>
  (takeWord r0).bind fun (tag, r1) =>
  (takeBytes len.toNat r1).bind fun (data, r2) =>
  (takeWord r2).map fun (crc, r3) => ((tag, data, crc), r3)

/-- An IHDR body at the head of a byte string (30_encoding.md R85). -/
def takeIhdrBody (bs : List Byte) : Option (IhdrBody × List Byte) :=
  (takeWord bs).bind fun (width, r0) =>
  (takeWord r0).bind fun (height, r1) =>
  match r1 with
  | d :: c :: m :: f :: i :: rest => some (⟨width, height, d, c, m, f, i⟩, rest)
  | _ => none

/-- The decoder: the instruction of the given format at the head of a byte string, and the bytes after it. Total on any
bytes; a refusal says why. A command word stands as its four bytes, most significant first (log entry 10). -/
def decode (f : Format) (bs : List Byte) : Except DecodeError (Instr × List Byte) :=
  let orTruncated (r : Option (Instr × List Byte)) : Except DecodeError (Instr × List Byte) :=
    match r with
    | some x => .ok x
    | none   => .error .truncatedRecord
  match f with
  | .cw => match takeWord bs with
    | none           => .error .truncatedRecord
    | some (w, rest) => match decodeCommand w with
      | .ok i    => .ok (i, rest)
      | .error e => .error e
  | .pbToken  => orTruncated (takeToken bs)
  | .pngSig   => if bs.take 8 = pngSignature then .ok (.pngSig, bs.drop 8) else .error .wrongSignature
  | .pngChunk => orTruncated ((takeChunkRecord bs).map fun ((tag, data, crc), rest) => (.pngChunk tag data crc, rest))
  | .ihdrBody => orTruncated ((takeIhdrBody bs).map fun (h, rest) => (.pngIhdrBody h, rest))
  | .srgbBody => match bs with
    | []        => .error .truncatedRecord
    | i :: rest => .ok (.pngSrgbBody i, rest)

/-! ## Encoding -/

/-- The format an instruction is written in (the "format" of its row in spec/opcode_table.json). -/
def Instr.format : Instr → Format
  | .pbLit _ | .pbRun _ _ => .pbToken
  | .pngSig               => .pngSig
  | .pngChunk _ _ _       => .pngChunk
  | .pngIhdrBody _        => .ihdrBody
  | .pngSrgbBody _        => .srgbBody
  | .nop | .sreset | .crcInit | .crcByte _ | .crcBuf | .crcSum => .cw
  | .pngOpen | .pngNext | .pngIhdr | .pngPeek | .pbEncode => .cw

/-- The command word of a command, none for a record (30_encoding.md R81). -/
def encodeWord : Instr → Option Word
  | .nop       => some 0x00000000
  | .sreset    => some 0x00000001
  | .crcInit   => some 0x00000010
  | .crcByte b => some (BitVec.ofNat 32 (0x11 + b.toNat * 0x100))
  | .crcBuf    => some 0x00000012
  | .crcSum    => some 0x00000013
  | .pngOpen   => some 0x00000020
  | .pngNext   => some 0x00000021
  | .pngIhdr   => some 0x00000022
  | .pngPeek   => some 0x00000023
  | .pbEncode  => some 0x00000030
  | .pbLit _ | .pbRun _ _ | .pngSig | .pngChunk _ _ _ | .pngIhdrBody _ | .pngSrgbBody _ => none

/-- The bytes of a token (30_encoding.md R86): `literal_count - 1` and the literal bytes. -/
def literalBytes (data : List Byte) : List Byte := BitVec.ofNat 8 (data.length - 1) :: data

/-- The bytes of a run token (30_encoding.md R86): `count + 125` and the repeated byte. -/
def runBytes (count : Nat) (value : Byte) : List Byte := [BitVec.ofNat 8 (count + 125), value]

/-- The bytes of a chunk record (30_encoding.md R84). -/
def chunkBytes (tag : Word) (data : List Byte) (crc : Word) : List Byte :=
  be32Bytes (BitVec.ofNat 32 data.length) ++ be32Bytes tag ++ data ++ be32Bytes crc

/-- The bytes of an IHDR body (30_encoding.md R85). -/
def ihdrBytes (h : IhdrBody) : List Byte :=
  be32Bytes h.width ++ be32Bytes h.height ++ [h.depth, h.colorType, h.compr, h.filter, h.interlace]

/-- The bytes of a record; a command has none here, its word is `encodeWord`'s. -/
def recordBytes : Instr → List Byte
  | .pbLit data            => literalBytes data
  | .pbRun count value     => runBytes count value
  | .pngSig                => pngSignature
  | .pngChunk tag data crc => chunkBytes tag data crc
  | .pngIhdrBody h         => ihdrBytes h
  | .pngSrgbBody i         => [i]
  | .nop | .sreset | .crcInit | .crcByte _ | .crcBuf | .crcSum => []
  | .pngOpen | .pngNext | .pngIhdr | .pngPeek | .pbEncode => []

/-- The encoder: the bytes of an instruction, a command word as its four bytes, most significant first (log entry 10). -/
def encode (i : Instr) : List Byte :=
  match encodeWord i with
  | some w => be32Bytes w
  | none   => recordBytes i

/-! ## The host's words -/

/-- The `n` bytes of a number, most significant first: how spec/opcode_table.json writes a row of several bytes
("written here with stream byte 0 as the most significant byte"). -/
def bytesOf : Nat → Nat → List Byte
  | 0, _     => []
  | n + 1, w => BitVec.ofNat 8 (w / 2 ^ (8 * n)) :: bytesOf n w

/-- How many zero bytes stand after the table's bits of a chunk head in `decodeTableWord`, at most (log entry 10). -/
def operandPadding : Nat := 4096

/-- The instruction the decoder reads from an instruction whose bits are `w`, numbered as spec/opcode_table.json numbers
them, every bit above `nbits` zero. The width picks the format; of the two 64-bit formats the signature is tried first,
and an 8-bit row is read as a PackBits token (log entry 10). -/
def decodeTableWord (nbits w : Nat) : Option Instr :=
  let found (r : Except DecodeError (Instr × List Byte)) : Option Instr :=
    match r with
    | .ok (i, _) => some i
    | .error _   => none
  if 2 ^ nbits ≤ w then none
  else match nbits with
    | 32  => found (decode .cw (bytesOf 4 w))
    | 8   => found (decode .pbToken (bytesOf 1 w ++ List.replicate (w % 128 + 1) 0))
    | 64  =>
      match decode .pngSig (bytesOf 8 w) with
      | .ok (i, _) => some i
      | .error _   => found (decode .pngChunk (bytesOf 8 w ++ List.replicate (min (w / 2 ^ 32) operandPadding + 4) 0))
    | 104 => found (decode .ihdrBody (bytesOf 13 w))
    | _   => none

end Sys2Proof
end

