-- ==== Sys2Proof/Machine/Operands.lean ====
section
/-! DEFINITION. Where operands come from (30_encoding.md R80: registers and `IBUF`): the bytes and big-endian words of `IBUF`
(00_scope.md R11, 20_memory.md R64), the valid input `ibuf`, the range checks, and a byte of `OBUF`. -/

namespace Sys2Proof.Machine

/-- `MemRead(IBUF, a, 1)`: the byte last written, or the free value of a byte nothing has written since hardware reset
(93_implementation_defined.md U4; log entry 4). -/
def State.ibufByte (s : State) (a : Nat) : Byte :=
  (Memory.read s.ibuf a).getD (Config.freeIbuf s.ibufDraw a)

/-- `IBUF[a .. a + n)`. -/
def State.ibufBytes (s : State) : Nat → Nat → List Byte
  | _, 0     => []
  | a, n + 1 => s.ibufByte a :: State.ibufBytes s (a + 1) n

/-- `MemRead(IBUF, a, 4)` (00_scope.md R11): big-endian, at any byte address (20_memory.md R64, R68). -/
def State.ibufWord (s : State) (a : Nat) : Word :=
  be32 (s.ibufByte a) (s.ibufByte (a + 1)) (s.ibufByte (a + 2)) (s.ibufByte (a + 3))

/-- `ibuf`, the valid input `IBUF[0 .. x[ILEN])` (00_scope.md R11, 10_state.md R28). -/
def State.input (s : State) : List Byte := s.ibufBytes 0 s.ilen.toNat

/-- `x[ILEN] > IBUF_SIZE`: the test every command that reads `IBUF` from its own operands makes first (20_memory.md R73). -/
abbrev State.ilenOver (s : State) : Prop := s.ilen.toNat > s.ibufSize.toNat

/-- The window of `CRC_BUF` (10_state.md R30): `IBUF[x[SRC_OFF] .. x[SRC_OFF] + x[SRC_LEN])`. -/
def State.srcWindow (s : State) : List Byte := s.ibufBytes s.srcOff.toNat s.srcLen.toNat

/-- `MemRead(OBUF, a, 1)`: the byte last written, or the free value of an unspecified byte (93_implementation_defined.md U4,
U5; log entries 4 and 5). -/
def State.obufByte (s : State) (a : Nat) : Byte :=
  (Memory.read s.obuf a).getD (Config.freeObuf s.obufDraw a)

/-- `OBUF[a .. a + n)`. -/
def State.obufBytes (s : State) : Nat → Nat → List Byte
  | _, 0     => []
  | a, n + 1 => s.obufByte a :: State.obufBytes s (a + 1) n

/-- `ObufRead(a)` (43_control_and_access.md R185): 0 outside `OBUF`. -/
def State.obufRead (s : State) (a : Word) : Byte :=
  if a.toNat < s.obufSize.toNat then s.obufByte a.toNat else 0

end Sys2Proof.Machine
end

