-- ==== Sys2Proof/Machine/Ops.lean ====
section
/-! DEFINITION. The operations commands share: completion (60_exceptions.md R212, ICB's only form of taking an exception),
closing the parse (20_memory.md R62), and the output of PBC. There is no return from an exception: R214 says there is no
handler to return from. -/

namespace Sys2Proof.Machine

/-! ## Completion -/

/-- Normal completion (60_exceptions.md R212): `STATUS.ERR <- 0x00 ; x[ERRINFO] <- 0`. -/
def State.completeOk (s : State) : State :=
  { s with status := s.status.completedOk, errInfo := 0 }

/-- `raise E(info)` (60_exceptions.md R212): `STATUS.ERR <- code of E ; STATUS.STICKY <- 1 ; x[ERRINFO] <- info mod 2^32`. -/
def State.completeError (s : State) (e : Code) (info : Nat) : State :=
  { s with status := s.status.completedWith e, errInfo := BitVec.ofNat 32 info }

/-- How a command's pseudocode ends (60_exceptions.md R210): normally in a state, or by `raise E(info)` in the state it had
reached. -/
inductive Done where
  | ok (s : State)
  | err (s : State) (e : Code) (info : Nat)
  deriving DecidableEq, Repr

/-- The completion every command performs after its pseudocode (60_exceptions.md R212). -/
def Done.complete : Done → State
  | .ok s         => s.completeOk
  | .err s e info => s.completeError e info

/-! ## The parse -/

/-- Close the parse: invalidation (20_memory.md R62) and the first lines of `PNG_OPEN` (41_png_chunk.md R133). -/
def State.closeParse (s : State) : State :=
  { s with status := s.status.closed, pPos := 0 }

/-! ## The output buffer -/

/-- `OBUF` and `OLEN` after an `OVERFLOW`: unspecified (42_packbits.md R164, 93_implementation_defined.md U5), so a new free
draw of each (log entry 5). -/
def State.scrambleOutput (s : State) : State :=
  { s with obuf := [], obufDraw := s.obufDraw + 1, olen := Config.freeOlen (s.obufDraw + 1) }

/-- Append bytes to the output: at `OBUF[x[OLEN] ..)`, or `OVERFLOW` with the length the output would have had
(42_packbits.md R164). -/
def State.emit (s : State) (bs : List Byte) : Done :=
  if s.olen.toNat + bs.length > s.obufSize.toNat then
    .err s.scrambleOutput .overflow (s.olen.toNat + bs.length)
  else
    .ok { s with
      obuf := Memory.writeBytes s.obuf s.olen.toNat bs
      olen := BitVec.ofNat 32 (s.olen.toNat + bs.length) }

end Sys2Proof.Machine
end

