-- ==== Sys2Proof/Machine/Control.lean ====
section
/-! DEFINITION. The control commands `NOP` and `SRESET` (43_control_and_access.md R180, R181). -/

namespace Sys2Proof.Machine

/-- Every register at its reset value, the buffers' contents kept (43_control_and_access.md R181, 10_state.md R43 last column,
70_reset_and_hazards.md R232). The parameters `IBUF_SIZE` and `OBUF_SIZE` are what they are. -/
def State.softReset (s : State) : State :=
  { State.reset with
    ibufSize := s.ibufSize
    obufSize := s.obufSize
    ibuf     := s.ibuf
    obuf     := s.obuf
    ibufDraw := s.ibufDraw
    obufDraw := s.obufDraw
    pending  := s.pending
    replies  := s.replies }

/-- `NOP` (43_control_and_access.md R180): nothing but the completion. -/
def execNop (s : State) : Answer := .next s.completeOk

/-- `SRESET` (43_control_and_access.md R181). -/
def execSreset (s : State) : Answer := .next s.softReset.completeOk

end Sys2Proof.Machine
end

