-- ==== Sys2Proof/Machine/CrcRef.lean ====
section
/-! DEFINITION. The CRC-32 reference functions of 40_crc32.md: the table, the step, the fold, `crc32`, and the bitwise form. -/

namespace Sys2Proof.Machine

/-- `POLY` (00_scope.md R6). -/
def crcPoly : Word := 0xEDB88320

/-- `CRC_INIT_VAL` (00_scope.md R6). -/
def crcInitVal : Word := 0xFFFFFFFF

/-- `not32` (00_scope.md R9): the final complement, `CRC_XOROUT` of R6. -/
def not32 (v : Word) : Word := v ^^^ 0xFFFFFFFF

/-- One conditional shift-and-xor of the construction (40_crc32.md R110). -/
def crcShift (c : Word) : Word :=
  if c.getLsbD 0 then (c >>> 1) ^^^ crcPoly else c >>> 1

/-- Eight of them: "repeat 8 times" (40_crc32.md R110, R114). -/
def crcShift8 (c : Word) : Word :=
  crcShift (crcShift (crcShift (crcShift (crcShift (crcShift (crcShift (crcShift c)))))))

/-- The table `T` (40_crc32.md R110; a constant, 10_state.md R40). -/
def crcTable (n : Byte) : Word := crcShift8 (n.setWidth 32)

/-- `crc_step` (40_crc32.md R111): the table is indexed by the low byte of `c xor b`. -/
def crcStep (c : Word) (b : Byte) : Word :=
  crcTable ((c ^^^ b.setWidth 32).extractLsb' 0 8) ^^^ (c >>> 8)

/-- The bitwise form of `crc_step` (40_crc32.md R114). -/
def crcStepBitwise (c : Word) (b : Byte) : Word := crcShift8 (c ^^^ b.setWidth 32)

/-- `crc_fold` (40_crc32.md R112): the bytes in index order. -/
def crcFold : Word → List Byte → Word
  | c, []      => c
  | c, b :: bs => crcFold (crcStep c b) bs

/-- `crc32` (40_crc32.md R113): preset all ones, final complement. -/
def crc32 (bs : List Byte) : Word := not32 (crcFold crcInitVal bs)

end Sys2Proof.Machine
end

