-- ==== Sys2Proof/Machine/Crc.lean ====
section
/-! DEFINITION. The commands of the CRC unit (40_crc32.md R115 to R118). -/

namespace Sys2Proof.Machine

/-- Fold bytes into `CRC_R` from a starting value. -/
def State.foldCrc (s : State) (start : Word) (bs : List Byte) : State :=
  { s with crcR := crcFold start bs }

/-- `CRC_INIT` (40_crc32.md R115). -/
def execCrcInit (s : State) : Answer := .next (s.foldCrc crcInitVal []).completeOk

/-- `CRC_BYTE imm8` (40_crc32.md R116). -/
def execCrcByte (imm8 : Byte) (s : State) : Answer := .next (s.foldCrc s.crcR [imm8]).completeOk

/-- The pseudocode of `CRC_BUF` (40_crc32.md R117); the sum is over naturals. -/
def crcBufBody (s : State) : Done :=
  if s.ilenOver then .err s .range 1
  else if s.srcOff.toNat + s.srcLen.toNat > s.ilen.toNat then .err s .range 2
  else .ok (s.foldCrc s.crcR s.srcWindow)

/-- `CRC_BUF` (40_crc32.md R117). -/
def execCrcBuf (s : State) : Answer := .next (crcBufBody s).complete

/-- The pseudocode of `CRC_SUM` (40_crc32.md R118). -/
def crcSumBody (s : State) : Done :=
  if s.ilenOver then .err s .range 1
  else .ok (s.foldCrc crcInitVal s.input)

/-- `CRC_SUM` (40_crc32.md R118). -/
def execCrcSum (s : State) : Answer := .next (crcSumBody s).complete

end Sys2Proof.Machine
end

