-- ==== Sys2Proof/Machine/PackBitsRef.lean ====
section
/-! DEFINITION. The PackBits-ICNS reference functions of 42_packbits.md: `run_start`, `run_len`, `lit_len`, `pb_encode`,
`pb_decode`. A position `i` of the spec's byte string `d` stands here as the bytes of `d` from `i` on. -/

namespace Sys2Proof.Machine

/-- `PB_MIN_RUN` (00_scope.md R6). -/
def pbMinRun : Nat := 3
/-- `PB_MAX_RUN` (00_scope.md R6). -/
def pbMaxRun : Nat := 130
/-- `PB_MAX_LIT` (00_scope.md R6). -/
def pbMaxLit : Nat := 128

/-- `run_start` (42_packbits.md R160): the next three bytes exist and are equal. -/
def runStart : List Byte → Bool
  | a :: b :: c :: _ => a == b && b == c
  | _ => false

/-- How many bytes at the head equal `b`. -/
def equalCount (b : Byte) : List Byte → Nat
  | []      => 0
  | x :: xs => if x = b then equalCount b xs + 1 else 0

/-- `run_len` (42_packbits.md R160): the consecutive equal bytes at the head, capped at 130. -/
def runLen : List Byte → Nat
  | []      => 0
  | b :: bs => min (equalCount b bs + 1) pbMaxRun

/-- The distance to the first run start, or to the end (42_packbits.md R161: "while j < n and not run_start(d, j)"). -/
def beforeRunStart : List Byte → Nat
  | []      => 0
  | b :: bs => if runStart (b :: bs) then 0 else beforeRunStart bs + 1

/-- `lit_len` (42_packbits.md R161): up to the first run start after the first byte, capped at 128 (reading A, 90_conflicts.md
C5; log entry 12). -/
def litLen : List Byte → Nat
  | []      => 0
  | _ :: bs => min (beforeRunStart bs + 1) pbMaxLit

/-- A unit of PackBits-ICNS output (00_scope.md R13, 30_encoding.md R86). -/
inductive Token where
  | lit (data : List Byte)
  | run (count : Nat) (value : Byte)
  deriving DecidableEq, Repr

/-- The instruction that stands for a token (rows `PB.LIT` and `PB.RUN` of spec/opcode_table.json). -/
def Token.instr : Token → Instr
  | .lit data        => .pbLit data
  | .run count value => .pbRun count value

/-- The bytes of a token (30_encoding.md R86). -/
def Token.bytes : Token → List Byte
  | .lit data        => literalBytes data
  | .run count value => runBytes count value

/-- The bytes a token decodes to (30_encoding.md R86, column "Decodes to"). -/
def Token.decoded : Token → List Byte
  | .lit data        => data
  | .run count value => List.replicate count value

/-- The tokens of `pb_encode` (42_packbits.md R162), the three branches in the spec's order. The first argument bounds the
number of tokens; the length of the input is enough. -/
def pbTokens : Nat → List Byte → List Token
  | 0, _ => []
  | _ + 1, [] => []
  | _ + 1, [a] => [.lit [a]]
  | _ + 1, [a, b] => [.lit [a, b]]
  | fuel + 1, a :: b :: c :: rest =>
    let d := a :: b :: c :: rest
    if runStart d then .run (runLen d) a :: pbTokens fuel (d.drop (runLen d))
    else .lit (d.take (litLen d)) :: pbTokens fuel (d.drop (litLen d))

/-- `pb_encode` (42_packbits.md R162): the tokens concatenated, no terminator. -/
def pbEncode (d : List Byte) : List Byte := (pbTokens d.length d).flatMap Token.bytes

/-- The loop of `pb_decode` (42_packbits.md R166); none where the stream ends inside a token, where the spec leaves it
undefined (log entry 18). The first argument bounds the number of tokens. -/
def pbDecodeLoop : Nat → List Byte → Option (List Byte)
  | _, [] => some []
  | 0, _ :: _ => none
  | fuel + 1, h :: rest =>
    if h.toNat ≤ 127 then
      (takeBytes (h.toNat + 1) rest).bind fun (data, rest') => (pbDecodeLoop fuel rest').map (data ++ ·)
    else match rest with
      | []         => none
      | b :: rest' => (pbDecodeLoop fuel rest').map (List.replicate (h.toNat - 125) b ++ ·)

/-- `pb_decode` (42_packbits.md R166). -/
def pbDecode (e : List Byte) : Option (List Byte) := pbDecodeLoop e.length e

end Sys2Proof.Machine
end

