-- ==== Sys2Proof/Machine/PackBits.lean ====
section
/-! DEFINITION. The command of PBC (42_packbits.md R164). -/

namespace Sys2Proof.Machine

/-- The pseudocode of `PB_ENCODE` (42_packbits.md R164): the whole of `ibuf`, to `OBUF` from offset 0. -/
def pbEncodeBody (s : State) : Done :=
  if s.ilenOver then .err s .range 1
  else State.emit { s with olen := 0 } (pbEncode s.input)

/-- `PB_ENCODE` (42_packbits.md R164). -/
def execPbEncode (s : State) : Answer := .next (pbEncodeBody s).complete

end Sys2Proof.Machine
end

