-- ==== Sys2Proof/Machine/PngRef.lean ====
section
/-! DEFINITION. The PNG reference functions of 41_png_chunk.md: `png_read`, the validator's predicate, `peek_ihdr`. -/

namespace Sys2Proof.Machine

/-- A chunk as `png_read` yields it (41_png_chunk.md R130; the source's `PngChunk`, 10_state.md R36). -/
structure Chunk where
  tag  : Word
  data : List Byte
  crc  : Word
  deriving DecidableEq, Repr

/-- The causes of the source's `FormatError` (41_png_chunk.md R130, R132; 44_pseudo_ops.md R196). -/
inductive FormatError where
  | signature
  | truncated
  | missingIhdr
  | missingIend
  | ihdrLength
  deriving DecidableEq, Repr

/-- How a walk ends (41_png_chunk.md R130): at the end of the byte string, or at the offset of a part that is no whole chunk. -/
inductive WalkEnd where
  | atEnd
  | trunc (p : Nat)
  deriving DecidableEq, Repr

/-- The walk of `png_read` from offset `p`, over the bytes from `p` on (41_png_chunk.md R130). The first argument bounds the
number of chunks; the length of the byte string is enough. -/
def pngWalk : Nat → Nat → List Byte → List Chunk × WalkEnd
  | 0, p, bs => ([], if bs.isEmpty then .atEnd else .trunc p)
  | fuel + 1, p, bs =>
    if bs.isEmpty then ([], .atEnd)
    else match takeChunkRecord bs with
      | none => ([], .trunc p)
      | some ((tag, data, crc), rest) =>
        let (cs, e) := pngWalk fuel (p + 12 + data.length) rest
        (⟨tag, data, crc⟩ :: cs, e)

/-- `png_read` (41_png_chunk.md R130): the signature test, then the walk. A byte string shorter than 8 bytes fails the test. -/
def pngRead (bs : List Byte) : Except FormatError (List Chunk × WalkEnd) :=
  if bs.take 8 ≠ pngSignature then .error .signature
  else .ok (pngWalk bs.length 8 (bs.drop 8))

/-- `chunk_calc` (41_png_chunk.md R131): the CRC of the tag bytes and the data. -/
def chunkCalc (tag : Word) (data : List Byte) : Word := crc32 (be32Bytes tag ++ data)

/-- `chunk_crc_ok` (41_png_chunk.md R131). -/
def chunkCrcOk (c : Chunk) : Bool := chunkCalc c.tag c.data == c.crc

/-- The decode of a 13-byte IHDR body (30_encoding.md R85); any other length is the `ihdr length` error (41_png_chunk.md R132). -/
def decodeIhdr (data : List Byte) : Except FormatError IhdrBody :=
  if data.length ≠ 13 then .error .ihdrLength
  else match takeIhdrBody data with
    | some (h, _) => .ok h
    | none        => .error .ihdrLength

/-- The scan of `peek_ihdr` over the chunks read: the first tagged `IHDR` is the one decoded (41_png_chunk.md R132). -/
def peekChunks : List Chunk → WalkEnd → Except FormatError IhdrBody
  | [], .trunc _ => .error .truncated
  | [], .atEnd   => .error .missingIhdr
  | c :: cs, e   => if c.tag = tagIhdr then decodeIhdr c.data else peekChunks cs e

/-- `peek_ihdr` (41_png_chunk.md R132). -/
def peekIhdr (bs : List Byte) : Except FormatError IhdrBody :=
  match pngRead bs with
  | .error e    => .error e
  | .ok (cs, e) => peekChunks cs e

end Sys2Proof.Machine
end

