-- ==== Sys2Proof/Machine/Png.lean ====
section
/-! DEFINITION. The commands of PCP (41_png_chunk.md R133 to R136, R139). -/

namespace Sys2Proof.Machine

/-- The signature is accepted: the parse stands before the first chunk (41_png_chunk.md R133, last two lines). -/
def State.openParse (s : State) : State :=
  { s with status := { s.status with pOpen := true }, pPos := 8 }

/-- The chunk record at `P_POS` is taken: the chunk registers, the validator's verdict, the next position (41_png_chunk.md R134,
R139). `CH_CALC` is computed on PCP's own datapath: `CRC_R` is not touched (10_state.md R32, R36). -/
def State.takeChunk (s : State) (c : Chunk) : State :=
  { s with
    chLen  := BitVec.ofNat 32 c.data.length
    chTag  := c.tag
    chDoff := BitVec.ofNat 32 (s.pPos.toNat + 8)
    chCrc  := c.crc
    chCalc := chunkCalc c.tag c.data
    status := s.status.withChunk (chunkCrcOk c)
    pPos   := BitVec.ofNat 32 (s.pPos.toNat + 12 + c.data.length) }

/-- The end of `ibuf` is reached (41_png_chunk.md R134). -/
def State.endOfStream (s : State) : State := { s with status := s.status.atEnd }

/-- The IHDR registers take a decoded body, its five bytes zero-extended (41_png_chunk.md R135, 10_state.md R37). -/
def State.loadIhdr (s : State) (h : IhdrBody) : State :=
  { s with
    ihWidth  := h.width
    ihHeight := h.height
    ihDepth  := h.depth.setWidth 32
    ihCtype  := h.colorType.setWidth 32
    ihComp   := h.compr.setWidth 32
    ihFilt   := h.filter.setWidth 32
    ihIlace  := h.interlace.setWidth 32
    status   := { s.status with ihValid := true } }

/-- The chunk of `IBUF` at offset `p` with `len` data bytes (30_encoding.md R84). -/
def State.chunkAt (s : State) (p len : Nat) : Chunk where
  tag  := s.ibufWord (p + 4)
  data := s.ibufBytes (p + 8) len
  crc  := s.ibufWord (p + 8 + len)

/-- The IHDR body of `IBUF` at offset `d` (30_encoding.md R85). -/
def State.ihdrAt (s : State) (d : Nat) : IhdrBody where
  width     := s.ibufWord d
  height    := s.ibufWord (d + 4)
  depth     := s.ibufByte (d + 8)
  colorType := s.ibufByte (d + 9)
  compr     := s.ibufByte (d + 10)
  filter    := s.ibufByte (d + 11)
  interlace := s.ibufByte (d + 12)

/-- The pseudocode of `PNG_OPEN` (41_png_chunk.md R133): any earlier parse is closed first. -/
def pngOpenBody (s : State) : Done :=
  let s := s.closeParse
  if s.ilenOver then .err s .range 1
  else if s.ilen.toNat < 8 then .err s .fmtSignature 0
  else if s.ibufBytes 0 8 ≠ pngSignature then .err s .fmtSignature 0
  else .ok s.openParse

/-- `PNG_OPEN` (41_png_chunk.md R133). -/
def execPngOpen (s : State) : Answer := .next (pngOpenBody s).complete

/-- The pseudocode of `PNG_NEXT` (41_png_chunk.md R134); sums are over naturals. -/
def pngNextBody (s : State) : Done :=
  let p := s.pPos.toNat
  let len := (s.ibufWord p).toNat
  if s.status.pOpen = false then .err s .sequence 0x21
  else if p = s.ilen.toNat then .ok s.endOfStream
  else if s.ilen.toNat - p < 12 then .err s .fmtTruncated p
  else if p + 12 + len > s.ilen.toNat then .err s .fmtTruncated p
  else .ok (s.takeChunk (s.chunkAt p len))

/-- `PNG_NEXT` (41_png_chunk.md R134). -/
def execPngNext (s : State) : Answer := .next (pngNextBody s).complete

/-- The pseudocode of `PNG_IHDR` (41_png_chunk.md R135). -/
def pngIhdrBody (s : State) : Done :=
  if s.status.chValid = false then .err s .sequence 0x22
  else if s.chTag ≠ tagIhdr then .err s .sequence 0x22
  else if s.chLen ≠ 13 then .err s .fmtIhdrLen s.chLen.toNat
  else .ok (s.loadIhdr (s.ihdrAt s.chDoff.toNat))

/-- `PNG_IHDR` (41_png_chunk.md R135). -/
def execPngIhdr (s : State) : Answer := .next (pngIhdrBody s).complete

/-- The loop of `PNG_PEEK` and its last step (41_png_chunk.md R136); none if the bound on the number of chunks runs out, which
no state reaches from the bound `execPngPeek` gives (log entry 13). -/
def pngPeekWalk : Nat → State → Option Done
  | 0, _ => none
  | fuel + 1, s => match pngNextBody s with
    | .err s' e info => some (.err s' e info)
    | .ok s' =>
      if s'.status.eos then some (.err s' .fmtMissingIhdr 0)
      else if s'.chTag = tagIhdr then some (pngIhdrBody s')
      else pngPeekWalk fuel s'

/-- The pseudocode of `PNG_PEEK` (41_png_chunk.md R136): open, then the loop. -/
def pngPeekBody (s : State) : Option Done :=
  match pngOpenBody s with
  | .err s' e info => some (.err s' e info)
  | .ok s'         => pngPeekWalk (s'.ilen.toNat + 1) s'

/-- `PNG_PEEK` (41_png_chunk.md R136). -/
def execPngPeek (s : State) : Answer :=
  match pngPeekBody s with
  | some d => .next d.complete
  | none   => .fault .walkUnfinished

end Sys2Proof.Machine
end

