-- ==== Sys2Proof/Machine/Records.lean ====
section
/-! DEFINITION. The six data-format rows of spec/opcode_table.json. A record is no command: no step runs one by itself. Its
meaning here is the effect it has in the unit that takes or produces it, by the rules of that unit (log entries 7 to 9):
`PNG_OPEN` takes the signature, `PNG_NEXT` a chunk, `PNG_IHDR` an IHDR body, `PB_ENCODE` produces tokens. -/

namespace Sys2Proof.Machine

/-- `PB.LIT` (30_encoding.md R86): the token is produced at the end of the output (42_packbits.md R162, R164). -/
def execPbLit (data : List Byte) (s : State) : Answer := .next (s.emit (literalBytes data)).complete

/-- `PB.RUN` (30_encoding.md R86): the token is produced at the end of the output (42_packbits.md R162, R164). -/
def execPbRun (count : Nat) (value : Byte) (s : State) : Answer := .next (s.emit (runBytes count value)).complete

/-- `PNG.SIG` (30_encoding.md R83): the signature is taken, which opens the parse (41_png_chunk.md R133). -/
def execPngSig (s : State) : Answer := .next s.closeParse.openParse.completeOk

/-- `PNG.CHUNK` (30_encoding.md R84): the record is taken at `P_POS` (41_png_chunk.md R134). -/
def execPngChunk (tag : Word) (data : List Byte) (crc : Word) (s : State) : Answer :=
  .next (s.takeChunk ⟨tag, data, crc⟩).completeOk

/-- `PNG.IHDR_BODY` (30_encoding.md R85): the body is decoded into the IHDR registers (41_png_chunk.md R135). -/
def execPngIhdrBody (body : IhdrBody) (s : State) : Answer := .next (s.loadIhdr body).completeOk

/-- `PNG.SRGB_BODY` (30_encoding.md R90): "ICB never parses it specially", so it has no effect of its own (log entry 8). -/
def execPngSrgbBody (_intent : Byte) (s : State) : Answer := .next s

end Sys2Proof.Machine
end

