-- ==== Sys2Proof/Machine/Dispatch.lean ====
section
/-! DEFINITION. The dispatch: one arm per instruction. -/

namespace Sys2Proof.Machine

def exec (i : Instr) (s : State) : Host.Outcome State Fault Refusal :=
  match i with
  | .nop => Sys2Proof.Machine.execNop s
  | .sreset => Sys2Proof.Machine.execSreset s
  | .crcInit => Sys2Proof.Machine.execCrcInit s
  | .crcByte imm8 => Sys2Proof.Machine.execCrcByte imm8 s
  | .crcBuf => Sys2Proof.Machine.execCrcBuf s
  | .crcSum => Sys2Proof.Machine.execCrcSum s
  | .pngOpen => Sys2Proof.Machine.execPngOpen s
  | .pngNext => Sys2Proof.Machine.execPngNext s
  | .pngIhdr => Sys2Proof.Machine.execPngIhdr s
  | .pngPeek => Sys2Proof.Machine.execPngPeek s
  | .pbEncode => Sys2Proof.Machine.execPbEncode s
  | .pbLit data => Sys2Proof.Machine.execPbLit data s
  | .pbRun count value => Sys2Proof.Machine.execPbRun count value s
  | .pngSig => Sys2Proof.Machine.execPngSig s
  | .pngChunk tag data crc => Sys2Proof.Machine.execPngChunk tag data crc s
  | .pngIhdrBody body => Sys2Proof.Machine.execPngIhdrBody body s
  | .pngSrgbBody intent => Sys2Proof.Machine.execPngSrgbBody intent s

end Sys2Proof.Machine
end

