-- ==== Sys2Proof/Machine/Registers.lean ====
section
/-! DEFINITION. The register map (10_state.md R24): names, numbers, the host's access, and the value a `RegRead` returns. -/

namespace Sys2Proof.Machine

/-- The 25 registers of 10_state.md R24. -/
inductive Reg where
  | cmd | status | errInfo | ilen | olen | srcOff | srcLen | ibufSize | obufSize
  | crcR | crcOut | crcPoly
  | pPos | chLen | chTag | chDoff | chCrc | chCalc
  | ihWidth | ihHeight | ihDepth | ihCtype | ihComp | ihFilt | ihIlace
  deriving DecidableEq, Repr

/-- The number of a register (10_state.md R24). -/
def Reg.num : Reg → Word
  | .cmd      => 0x00
  | .status   => 0x01
  | .errInfo  => 0x02
  | .ilen     => 0x03
  | .olen     => 0x04
  | .srcOff   => 0x05
  | .srcLen   => 0x06
  | .ibufSize => 0x07
  | .obufSize => 0x08
  | .crcR     => 0x10
  | .crcOut   => 0x11
  | .crcPoly  => 0x12
  | .pPos     => 0x20
  | .chLen    => 0x21
  | .chTag    => 0x22
  | .chDoff   => 0x23
  | .chCrc    => 0x24
  | .chCalc   => 0x25
  | .ihWidth  => 0x28
  | .ihHeight => 0x29
  | .ihDepth  => 0x2A
  | .ihCtype  => 0x2B
  | .ihComp   => 0x2C
  | .ihFilt   => 0x2D
  | .ihIlace  => 0x2E

/-- The register a number names, none for an unassigned number (10_state.md R24, R42). -/
def Reg.ofNum (n : Word) : Option Reg :=
  match n.toNat with
  | 0x00 => some .cmd
  | 0x01 => some .status
  | 0x02 => some .errInfo
  | 0x03 => some .ilen
  | 0x04 => some .olen
  | 0x05 => some .srcOff
  | 0x06 => some .srcLen
  | 0x07 => some .ibufSize
  | 0x08 => some .obufSize
  | 0x10 => some .crcR
  | 0x11 => some .crcOut
  | 0x12 => some .crcPoly
  | 0x20 => some .pPos
  | 0x21 => some .chLen
  | 0x22 => some .chTag
  | 0x23 => some .chDoff
  | 0x24 => some .chCrc
  | 0x25 => some .chCalc
  | 0x28 => some .ihWidth
  | 0x29 => some .ihHeight
  | 0x2A => some .ihDepth
  | 0x2B => some .ihCtype
  | 0x2C => some .ihComp
  | 0x2D => some .ihFilt
  | 0x2E => some .ihIlace
  | _    => none

/-- The value of a register as the host reads it: `CMD` reads as 0 (10_state.md R25), `CRC_OUT` is the complement of
`CRC_R` (R33), `CRC_POLY` is the polynomial (R34). -/
def State.readReg (s : State) : Reg → Word
  | .cmd      => 0
  | .status   => s.status.toWord
  | .errInfo  => s.errInfo
  | .ilen     => s.ilen
  | .olen     => s.olen
  | .srcOff   => s.srcOff
  | .srcLen   => s.srcLen
  | .ibufSize => s.ibufSize
  | .obufSize => s.obufSize
  | .crcR     => s.crcR
  | .crcOut   => not32 s.crcR
  | .crcPoly  => crcPoly
  | .pPos     => s.pPos
  | .chLen    => s.chLen
  | .chTag    => s.chTag
  | .chDoff   => s.chDoff
  | .chCrc    => s.chCrc
  | .chCalc   => s.chCalc
  | .ihWidth  => s.ihWidth
  | .ihHeight => s.ihHeight
  | .ihDepth  => s.ihDepth
  | .ihCtype  => s.ihCtype
  | .ihComp   => s.ihComp
  | .ihFilt   => s.ihFilt
  | .ihIlace  => s.ihIlace

/-- `RegRead(n)` (43_control_and_access.md R182): 0 for an unassigned number (10_state.md R42). -/
def State.regRead (s : State) (n : Word) : Word :=
  match Reg.ofNum n with
  | some r => s.readReg r
  | none   => 0

end Sys2Proof.Machine
end

