-- ==== Sys2Proof/Machine/HostOps.lean ====
section
/-! DEFINITION. What each operation on the machine does (43_control_and_access.md R182 to R185, 70_reset_and_hazards.md R230):
the accesses, the issue of a command word, and hardware reset. -/

namespace Sys2Proof.Machine

/-- A write of the command word `w` to `CMD` (10_state.md R25): the command it encodes, or the completion `ILLEGAL_CMD` with
the word in `ERRINFO` and nothing executed (30_encoding.md R82). -/
def issueCommand (w : Word) (s : State) : Answer :=
  match decodeCommand w with
  | .ok i    => exec i s
  | .error _ => .next (s.completeError .illegalCmd w.toNat)

/-- `RegRead(n)` (43_control_and_access.md R182): the host gets the value; no register changes. -/
def execRegRead (n : Word) (s : State) : Answer :=
  .next { s with replies := s.replies ++ [.reg n (s.regRead n)] }

/-- A write to `ILEN`: the store and the invalidation (43_control_and_access.md R183, 20_memory.md R62). -/
def State.writeIlen (s : State) (v : Word) : State := State.closeParse { s with ilen := v }

/-- `RegWrite(n, v)` (43_control_and_access.md R183); read-only and unassigned numbers are ignored (10_state.md R42). -/
def execRegWrite (n v : Word) (s : State) : Answer :=
  match Reg.ofNum n with
  | some .cmd    => issueCommand v s
  | some .ilen   => .next (s.writeIlen v)
  | some .srcOff => .next { s with srcOff := v }
  | some .srcLen => .next { s with srcLen := v }
  | _            => .next s

/-- The store of `IbufWrite` and the invalidation (43_control_and_access.md R184, 20_memory.md R62). -/
def State.writeIbuf (s : State) (a : Nat) (b : Byte) : State :=
  State.closeParse { s with ibuf := Memory.write s.ibuf a b }

/-- `IbufWrite(a, b)` (43_control_and_access.md R184): nothing outside `IBUF`. -/
def execIbufWrite (a : Word) (b : Byte) (s : State) : Answer :=
  if a.toNat < s.ibufSize.toNat then .next (s.writeIbuf a.toNat b) else .next s

/-- `ObufRead(a)` (43_control_and_access.md R185): the host gets the byte; nothing changes. -/
def execObufRead (a : Word) (s : State) : Answer :=
  .next { s with replies := s.replies ++ [.obuf a (s.obufRead a)] }

/-- Hardware reset (70_reset_and_hazards.md R230, R231): the reset state of this machine, with fresh free draws for every byte of
`IBUF` and `OBUF`. What the host has still to do and what it has read are not the machine's (log entry 15). -/
def State.hardReset (s : State) : State :=
  { State.reset with
    ibufSize := s.ibufSize
    obufSize := s.obufSize
    ibufDraw := s.ibufDraw + 1
    obufDraw := s.obufDraw + 1
    pending  := s.pending
    replies  := s.replies }

/-- Hardware reset as an operation. -/
def execHardwareReset (s : State) : Answer := .next s.hardReset

/-- One operation, complete and atomic (20_memory.md R70). -/
def perform (op : HostOp) (s : State) : Answer :=
  match op with
  | .regRead n      => execRegRead n s
  | .regWrite n v   => execRegWrite n v s
  | .ibufWrite a b  => execIbufWrite a b s
  | .obufRead a     => execObufRead a s
  | .hardwareReset  => execHardwareReset s

/-- The next operation of the host, or nothing where the host has none: ICB never acts on its own (10_state.md R20; log
entry 2). -/
def stepPending (s : State) : Answer :=
  match s.pending with
  | []        => .next s
  | op :: ops => perform op { s with pending := ops }

/-! ## Runs -/

/-- Perform operations in order (20_memory.md R70): a run (70_reset_and_hazards.md R236). -/
def performAll : List HostOp → State → Answer
  | [], s => .next s
  | op :: ops, s => match perform op s with
    | .next s'   => performAll ops s'
    | .fault r   => .fault r
    | .refused r => .refused r

/-- The state an answer goes on in. -/
def nextState : Answer → Option State
  | .next s    => some s
  | .fault _   => none
  | .refused _ => none

/-- The results of a run (70_reset_and_hazards.md R236): what the host has read in it, oldest first, and the final state. -/
def runResults (ops : List HostOp) (s : State) : Option (List Reply × State) :=
  (nextState (performAll ops s)).map fun t => (t.replies.drop s.replies.length, t)

/-- The operation executes a command, and the command completes with a non-zero code (60_exceptions.md R210, R211). An illegal word
is one. -/
def commandFails (op : HostOp) (s : State) : Bool :=
  match op with
  | .regWrite n _  => if n = Reg.cmd.num then ((nextState (perform op s)).map (·.status.err)).any (· ≠ .ok) else false
  | .regRead _ | .ibufWrite _ _ | .obufRead _ | .hardwareReset => false

/-- Some command of the run completed with a non-zero code: the run "went wrong" (70_reset_and_hazards.md R236), whatever reset
followed it. -/
def runWentWrong : List HostOp → State → Bool
  | [], _ => false
  | op :: ops, s => commandFails op s || (nextState (perform op s)).any (runWentWrong ops)

/-! ## Where a word of spec/opcode_table.json stands to be run next (log entries 2 and 11) -/

/-- The host is about to write the command word `w` to `CMD`. -/
def State.queueCommand (s : State) (w : Word) : State :=
  { s with pending := .regWrite 0 w :: s.pending }

/-- `IBUF` holds exactly these bytes as the valid input, in a machine whose buffers are large enough. -/
def State.holding (s : State) (bs : List Byte) : State :=
  { s with
    ibuf     := Memory.writeBytes [] 0 bs
    ilen     := BitVec.ofNat 32 bs.length
    ibufSize := 0xFFFFFFFF
    obufSize := 0xFFFFFFFF }

/-- The instruction is the next to run: a command word about to be written to `CMD`; for a record, the buffer holds it where
the command that takes it (or produces it) meets it, and that command is about to be written. -/
def State.present (s : State) (i : Instr) : State :=
  match i with
  | .pngSig => (s.holding pngSignature).queueCommand 0x20
  | .pngChunk tag data crc =>
    let t := (s.holding (pngSignature ++ chunkBytes tag data crc)).queueCommand 0x21
    { t with status := { t.status with pOpen := true }, pPos := 8 }
  | .pngIhdrBody body =>
    let crc := chunkCalc tagIhdr (ihdrBytes body)
    let t := (s.holding (pngSignature ++ chunkBytes tagIhdr (ihdrBytes body) crc)).queueCommand 0x22
    { t with
      status := { t.status with pOpen := true, chValid := true, crcOk := true }
      pPos := 33, chLen := 13, chTag := tagIhdr, chDoff := 16, chCrc := crc, chCalc := crc }
  | .pbLit data        => (s.holding data).queueCommand 0x30
  | .pbRun count value => (s.holding (List.replicate count value)).queueCommand 0x30
  | .pngSrgbBody _     => { s with pending := [] }
  | .nop | .sreset | .crcInit | .crcByte _ | .crcBuf | .crcSum
  | .pngOpen | .pngNext | .pngIhdr | .pngPeek | .pbEncode =>
    match encodeWord i with
    | some w => s.queueCommand w
    | none   => s

/-- A word of a given width is the next to run: a 32-bit word is written to `CMD` as it is, legal or not. -/
def State.presentWord (s : State) (nbits w : Nat) : State :=
  if nbits = 32 then s.queueCommand (BitVec.ofNat 32 w)
  else match decodeTableWord nbits w with
    | some i => s.present i
    | none   => s

end Sys2Proof.Machine
end

