-- ==== Sys2Proof/Machine/Step.lean ====
section
/-! DEFINITION. One step: one host operation, whole and atomic (20_memory.md R70: `state' = apply(state, operation)`). -/

namespace Sys2Proof.Machine

/-- One step: the next operation of the host (20_memory.md R70). -/
def step (s : State) : Host.Outcome State Fault Refusal := stepPending s

/-- The instruction whose bits are `w` (numbered as spec/opcode_table.json numbers them) is the very next to run. -/
def State.withFetchWord (s : State) (nbits w : Nat) : State := s.presentWord nbits w

end Sys2Proof.Machine
end

