-- ==== Sys2Proof/Machine/WriterRef.lean ====
section
/-! DEFINITION. The reference functions `png_write` and `minimize` of 44_pseudo_ops.md (host software, not commands). -/

namespace Sys2Proof.Machine

/-- One written chunk, `W_k` of 44_pseudo_ops.md R195: the stored CRC is the computed one. -/
def writtenChunk (tag : Word) (data : List Byte) : List Byte :=
  chunkBytes tag data (chunkCalc tag data)

/-- The chunk records after the signature, in list order. -/
def writtenChunks (list : List (Word × List Byte)) : List Byte :=
  list.flatMap fun (tag, data) => writtenChunk tag data

/-- The condition of 44_pseudo_ops.md R195: every length fits its 32-bit field. -/
def writable (list : List (Word × List Byte)) : Bool :=
  list.all fun (_, data) => decide (data.length < 4294967296)

/-- `png_write` (44_pseudo_ops.md R195), which is defined for data shorter than 2^32 bytes each; none for a list with longer data,
for which the spec gives no bytes (DESIGN CHOICE, log entry 24). -/
def pngWrite (list : List (Word × List Byte)) : Option (List Byte) :=
  if writable list then some (pngSignature ++ writtenChunks list) else none

/-- What `minimize` answers: bytes, a `FormatError`, or no meaning (44_pseudo_ops.md R196, 93_implementation_defined.md U7; log
entries 18 and 24). -/
inductive Minimized where
  | bytes (bs : List Byte)
  | failed (e : FormatError)
  | noMeaning
  deriving DecidableEq, Repr

/-- The data of the chunks with a given tag, in stream order. -/
def dataOf (tag : Word) (cs : List Chunk) : List (List Byte) :=
  (cs.filter (·.tag == tag)).map Chunk.data

/-- The list `minimize` writes (44_pseudo_ops.md R196): IHDR, the sRGB chunk if asked for, one IDAT, IEND. -/
def minimalList (ihdr : List Byte) (srgb : Option Byte) (idat iend : List Byte) : List (Word × List Byte) :=
  [(tagIhdr, ihdr)] ++ (match srgb with | some i => [(tagSrgb, [i])] | none => []) ++ [(tagIdat, idat)] ++ [(tagIend, iend)]

/-- The list `minimize` writes for the chunks of a whole stream, with its failures in the spec's order (44_pseudo_ops.md R196);
none where the counts of IHDR and IEND chunks give it no meaning. -/
def minimizeList (cs : List Chunk) (srgb : Option Byte) : Except FormatError (Option (List (Word × List Byte))) :=
  match dataOf tagIhdr cs, dataOf tagIend cs with
  | [], _            => .error .missingIhdr
  | _ :: _, []       => .error .missingIend
  | [ihdr], [iend]   => .ok (some (minimalList ihdr srgb (dataOf tagIdat cs).flatten iend))
  | _ :: _, _ :: _   => .ok none

/-- `minimize` (44_pseudo_ops.md R196). It has no meaning where the counts give it none (log entry 18), or where the merged IDAT has
2^32 bytes or more, so that `png_write` has no value (DESIGN CHOICE, log entry 24). -/
def minimize (bs : List Byte) (srgb : Option Byte) : Minimized :=
  match pngRead bs with
  | .error e => .failed e
  | .ok (_, .trunc _) => .failed .truncated
  | .ok (cs, .atEnd) => match minimizeList cs srgb with
    | .error e       => .failed e
    | .ok (some l)   => match pngWrite l with
      | some out => .bytes out
      | none     => .noMeaning
    | .ok none       => .noMeaning

end Sys2Proof.Machine
end

