-- ==== Sys2Proof/Machine/PseudoOps.lean ====
section
/-! DEFINITION. The program lines of 30_encoding.md R88 and the pseudo-operations of 44_pseudo_ops.md R197 to R202: named
sequences of host operations, and host software around them. They add no behaviour to the machine (log entry 19). -/

namespace Sys2Proof.Machine

/-! ## Lines -/

/-- One line of a program (30_encoding.md R88). -/
inductive Line where
  /-- A command by name, `CRC_BYTE v` among them. -/
  | command (i : Instr)
  /-- `CMD w`. -/
  | cmd (w : Word)
  /-- `WR name, v`. -/
  | wr (r : Reg) (v : Word)
  /-- `RD name`. -/
  | rd (r : Reg)
  /-- `IB a, b`. -/
  | ib (a : Word) (b : Byte)
  /-- `OB a`. -/
  | ob (a : Word)
  deriving DecidableEq, Repr

/-- The operation a line stands for (30_encoding.md R88); none for a record, which is no command. -/
def Line.op : Line → Option HostOp
  | .command i => (encodeWord i).map (.regWrite Reg.cmd.num)
  | .cmd w     => some (.regWrite Reg.cmd.num w)
  | .wr r v    => some (.regWrite r.num v)
  | .rd r      => some (.regRead r.num)
  | .ib a b    => some (.ibufWrite a b)
  | .ob a      => some (.obufRead a)

/-- Perform a program of lines in order. -/
def runLines (ls : List Line) (s : State) : Answer := performAll (ls.filterMap Line.op) s

/-! ## `LOAD`, `CRC32`, `CHUNK_VERIFY` -/

/-- The `IB` lines of `LOAD`, from an address on. -/
def ibLines : Nat → List Byte → List Line
  | _, []      => []
  | a, b :: bs => .ib (BitVec.ofNat 32 a) b :: ibLines (a + 1) bs

/-- `LOAD s` (44_pseudo_ops.md R197) for a machine of this `IBUF_SIZE`; with `len(s) > IBUF_SIZE` it "is not available", and has no
lines. -/
def loadLines (ibufSize : Word) (bs : List Byte) : Option (List Line) :=
  if bs.length ≤ ibufSize.toNat then some (ibLines 0 bs ++ [.wr .ilen (BitVec.ofNat 32 bs.length)]) else none

/-- `CRC32 s` through the buffer (44_pseudo_ops.md R198, left column), where `LOAD s` is available. -/
def crc32ByBuffer (ibufSize : Word) (bs : List Byte) : Option (List Line) :=
  (loadLines ibufSize bs).map (· ++ [.command .crcSum, .rd .crcOut])

/-- `CRC32 s` by immediate bytes (44_pseudo_ops.md R198, right column). -/
def crc32ByBytes (bs : List Byte) : List Line :=
  .command .crcInit :: bs.map (fun b => .command (.crcByte b)) ++ [.rd .crcOut]

/-- `CHUNK_VERIFY` (44_pseudo_ops.md R200), with the window the host computes from what it reads in `s`. The rule requires
`CH_VALID = 1` and says nothing of the other case: no lines there (DESIGN CHOICE, log entry 25). -/
def chunkVerify (s : State) : Option (List Line) :=
  if s.status.chValid then
    some [.rd .chDoff, .rd .chLen, .rd .chCrc,
      .wr .srcOff (s.regRead Reg.chDoff.num - 4), .wr .srcLen (s.regRead Reg.chLen.num + 4),
      .command .crcInit, .command .crcBuf, .rd .crcOut]
  else none

/-! ## `PNG_READ_ALL` -/

/-- What the host reads of one chunk (44_pseudo_ops.md R199). -/
structure ChunkView where
  tag   : Word
  len   : Word
  doff  : Word
  crc   : Word
  crcOk : Bool
  deriving DecidableEq, Repr

/-- How `PNG_READ_ALL` stops (44_pseudo_ops.md R199): complete, or with the completion code the host read. -/
inductive ReadAllEnd where
  | complete
  | failed (code : Byte)
  deriving DecidableEq, Repr

/-- What the host reads of the current chunk. -/
def State.chunkView (s : State) : ChunkView where
  tag   := s.regRead Reg.chTag.num
  len   := s.regRead Reg.chLen.num
  doff  := s.regRead Reg.chDoff.num
  crc   := s.regRead Reg.chCrc.num
  crcOk := (s.regRead Reg.status.num).getLsbD 12

/-- `ERR` in a `STATUS` the host has read (10_state.md R26). -/
def errOf (status : Word) : Byte := status.extractLsb' 0 8

/-- The loop of `PNG_READ_ALL` (44_pseudo_ops.md R199). The first argument bounds the number of chunks. -/
def readAllLoop : Nat → State → Option (List ChunkView × ReadAllEnd × State)
  | 0, _ => none
  | fuel + 1, s =>
    (nextState (runLines [.command .pngNext, .rd .status] s)).bind fun s1 =>
    let status := s1.regRead Reg.status.num
    if errOf status ≠ 0 then some ([], .failed (errOf status), s1)
    else if status.getLsbD 10 then some ([], .complete, s1)
    else
      (nextState (runLines [.rd .chTag, .rd .chLen, .rd .chDoff, .rd .chCrc] s1)).bind fun s2 =>
      (readAllLoop fuel s2).map fun (views, e, s3) => (s2.chunkView :: views, e, s3)

/-- `PNG_READ_ALL` (44_pseudo_ops.md R199) on the current `ibuf`. -/
def pngReadAll (s : State) : Option (List ChunkView × ReadAllEnd × State) :=
  (nextState (runLines [.command .pngOpen, .rd .status] s)).bind fun s1 =>
  let status := s1.regRead Reg.status.num
  if errOf status ≠ 0 then some ([], .failed (errOf status), s1)
  else readAllLoop (s1.ilen.toNat + 1) s1

/-! ## `PNG_WRITE` and `PNG_MINIMIZE` -/

/-- The pieces of a byte string, each of at most `n` bytes. The first argument bounds their number. -/
def piecesOf : Nat → Nat → List Byte → List (List Byte)
  | _, _, [] => []
  | 0, _, _ :: _ => []
  | fuel + 1, n, b :: bs => (b :: bs).take n :: piecesOf fuel n ((b :: bs).drop n)

/-- The lines that fold one piece into `CRC_R` (44_pseudo_ops.md R201). -/
def pieceLines (ibufSize : Word) (piece : List Byte) : Option (List Line) :=
  (loadLines ibufSize piece).map
    (· ++ [.wr .srcOff 0, .wr .srcLen (BitVec.ofNat 32 piece.length), .command .crcBuf])

/-- The CRC of a byte string on the CRC unit (44_pseudo_ops.md R201): by `CRC_SUM` where it fits `IBUF`, else in pieces of
`IBUF_SIZE` bytes by `CRC_BUF`; no lines where `IBUF_SIZE = 0`, since then no piece can be loaded (log entry 19). -/
def crcLines (ibufSize : Word) (bs : List Byte) : Option (List Line) :=
  if bs.length ≤ ibufSize.toNat then crc32ByBuffer ibufSize bs
  else if ibufSize = 0 then none
  else ((piecesOf bs.length ibufSize.toNat bs).mapM (pieceLines ibufSize)).map fun ls =>
    .command .crcInit :: ls.flatten ++ [.rd .crcOut]

/-- `PNG_WRITE list` after the signature (44_pseudo_ops.md R201): the bytes the host emits, and the machine it leaves. -/
def pngWriteLoop : List (Word × List Byte) → State → Option (List Byte × State)
  | [], s => some ([], s)
  | (tag, data) :: list, s =>
    (crcLines s.ibufSize (be32Bytes tag ++ data)).bind fun ls =>
    (nextState (runLines ls s)).bind fun s1 =>
    (pngWriteLoop list s1).map fun (bs, s2) => (chunkBytes tag data (s1.regRead Reg.crcOut.num) ++ bs, s2)

/-- `PNG_WRITE list` (44_pseudo_ops.md R201), for the lists `png_write` is defined on (log entry 24). -/
def pngWriteHost (list : List (Word × List Byte)) (s : State) : Option (List Byte × State) :=
  if writable list = false then none
  else (pngWriteLoop list s).map fun (bs, s1) => (pngSignature ++ bs, s1)

/-- The chunk of the host's own copy of the byte string at the window it has read (44_pseudo_ops.md R199). -/
def ChunkView.chunk (v : ChunkView) (bs : List Byte) : Chunk where
  tag  := v.tag
  data := (bs.drop v.doff.toNat).take v.len.toNat
  crc  := v.crc

/-- `PNG_MINIMIZE srgb` on a byte string the host holds (44_pseudo_ops.md R202), where `LOAD` is available. The merged list of a
stream that fits `IBUF` is always writable. -/
def pngMinimizeHost (bs : List Byte) (srgb : Option Byte) (s : State) : Option (Minimized × State) :=
  (loadLines s.ibufSize bs).bind fun ls =>
  (nextState (runLines ls s)).bind fun s1 =>
  (pngReadAll s1).bind fun (views, e, s2) =>
  match e with
  | .failed code => some (.failed (if code = Code.fmtSignature.toByte then .signature else .truncated), s2)
  | .complete =>
    match minimizeList (views.map (·.chunk bs)) srgb with
    | .error e     => some (.failed e, s2)
    | .ok none     => some (.noMeaning, s2)
    | .ok (some l) => (pngWriteHost l s2).map fun (out, s3) => (.bytes out, s3)

end Sys2Proof.Machine
end

