-- ==== Sys2Proof/Safety.lean ====
section
/-! DEFINITION. What claims are stated in: a safe answer, a run that went wrong (70_reset_and_hazards.md R236), and the invariant
of 10_state.md R44. -/

namespace Sys2Proof.Machine

/-- Whether an operation clears `STICKY` (10_state.md R26): hardware reset, and the write of the word of `SRESET` to `CMD`. -/
def HostOp.isReset (op : HostOp) : Prop := op = .hardwareReset ∨ op = .regWrite 0x00 0x00000001

/-- An answer that goes on. ICB has no other (60_exceptions.md R210). -/
def Answer.goesOn : Answer → Prop
  | .next _    => True
  | .fault _   => False
  | .refused _ => False

/-- What the final state records of a run that went wrong (70_reset_and_hazards.md R236): `STICKY = 1`, unless an `SRESET` or
hardware reset followed. Of the run itself it is `runWentWrong` that says so. -/
def State.wentWrong (s : State) : Prop := s.status.sticky = true

/-- The IHDR registers hold this body (10_state.md R37). -/
structure State.HoldsIhdr (s : State) (h : IhdrBody) : Prop where
  width     : s.ihWidth = h.width
  height    : s.ihHeight = h.height
  depth     : s.ihDepth = h.depth.setWidth 32
  colorType : s.ihCtype = h.colorType.setWidth 32
  compr     : s.ihComp = h.compr.setWidth 32
  filter    : s.ihFilt = h.filter.setWidth 32
  interlace : s.ihIlace = h.interlace.setWidth 32

/-- 10_state.md R44 (b): what an open parse says. -/
structure State.OpenParse (s : State) : Prop where
  ilen_le   : s.ilen.toNat ≤ s.ibufSize.toNat
  pos_ge    : 8 ≤ s.pPos.toNat
  pos_le    : s.pPos.toNat ≤ s.ilen.toNat
  signature : s.ibufBytes 0 8 = pngSignature

/-- 10_state.md R44 (c): what a valid chunk says; and `CH_CALC` is the CRC of the tag and the data (R36). -/
structure State.CurrentChunk (s : State) : Prop where
  doff_ge : 16 ≤ s.chDoff.toNat
  pos_eq  : s.chDoff.toNat + s.chLen.toNat + 4 = s.pPos.toNat
  tag_eq  : s.chTag = s.ibufWord (s.chDoff.toNat - 4)
  len_eq  : s.chLen = s.ibufWord (s.chDoff.toNat - 8)
  crc_eq  : s.chCrc = s.ibufWord (s.chDoff.toNat + s.chLen.toNat)
  calc_eq : s.chCalc = crc32 (s.ibufBytes (s.chDoff.toNat - 4) (s.chLen.toNat + 4))
  verdict : s.status.crcOk = true ↔ s.chCalc = s.chCrc

/-- 10_state.md R44 (e): the IHDR registers equal the decode of 13 bytes still present in `ibuf`, the data of a chunk tagged
`IHDR`. -/
def State.DecodedIhdr (s : State) : Prop :=
  ∃ d, 16 ≤ d ∧ d + 17 ≤ s.ilen.toNat ∧ s.ibufWord (d - 4) = tagIhdr ∧ s.ibufWord (d - 8) = 13 ∧ s.HoldsIhdr (s.ihdrAt d)

/-- The invariant: 10_state.md R44 (a) to (f), `P_POS` of a closed parse (R35), the zero upper bits of the narrow registers
(R24, R37), and the canonical form of the two buffers inside their capacities (R38, R39). -/
structure State.Inv (s : State) : Prop where
  ibuf_wf        : Memory.wf s.ibuf
  obuf_wf        : Memory.wf s.obuf
  ibuf_inside    : ∀ c ∈ s.ibuf, c.1 < s.ibufSize.toNat
  obuf_inside    : ∀ c ∈ s.obuf, c.1 < s.obufSize.toNat
  chValid_open   : s.status.chValid = true → s.status.pOpen = true
  eos_open       : s.status.eos = true → s.status.pOpen = true
  ihValid_open   : s.status.ihValid = true → s.status.pOpen = true
  not_both       : ¬ (s.status.chValid = true ∧ s.status.eos = true)
  crcOk_chValid  : s.status.crcOk = true → s.status.chValid = true
  open_parse     : s.status.pOpen = true → s.OpenParse
  current_chunk  : s.status.chValid = true → s.CurrentChunk
  eos_pos        : s.status.eos = true → s.pPos = s.ilen
  decoded_ihdr   : s.status.ihValid = true → s.DecodedIhdr
  err_sticky     : s.status.err ≠ .ok → s.status.sticky = true
  closed_pos     : s.status.pOpen = false → s.pPos = 0
  narrow         : s.ihDepth.toNat < 256 ∧ s.ihCtype.toNat < 256 ∧ s.ihComp.toNat < 256 ∧ s.ihFilt.toNat < 256 ∧
                     s.ihIlace.toNat < 256

/-! ## Terms the statements use -/

/-- The state after `k` commands `PNG_NEXT`, each of which yields a chunk not tagged `IHDR`: the turns `PNG_PEEK`'s loop makes
before its last (41_png_chunk.md R136). -/
def State.afterNexts : Nat → State → Option State
  | 0, s => some s
  | k + 1, s => match exec .pngNext s with
    | .next t    => if t.status.err = .ok ∧ t.status.eos = false ∧ t.chTag ≠ tagIhdr then State.afterNexts k t else none
    | .fault _   => none
    | .refused _ => none

/-- `PNG_NEXT` repeated from this state yields these chunks, with the validator's verdict on each, and then this end
(41_png_chunk.md R138). -/
def State.Yields : State → List Chunk → WalkEnd → Prop
  | s, [], .atEnd => ∃ t, exec .pngNext s = .next t ∧ t.status.err = .ok ∧ t.status.eos = true
  | s, [], .trunc p =>
    ∃ t, exec .pngNext s = .next t ∧ t.status.err = .fmtTruncated ∧ t.errInfo.toNat = p
  | s, c :: cs, e => ∃ t, exec .pngNext s = .next t ∧ t.status.err = .ok ∧ t.status.chValid = true ∧ t.chTag = c.tag ∧
      t.ibufBytes t.chDoff.toNat t.chLen.toNat = c.data ∧ t.chCrc = c.crc ∧ t.status.crcOk = chunkCrcOk c ∧
      State.Yields t cs e

/-- The errors of 60_exceptions.md R211, by command, with the value of `ERRINFO`: the code and the value a state shows after a
command that raised. -/
def State.ShowsErrorOf (t : State) : Instr → Prop
  | .crcBuf   => t.status.err = .range ∧ (t.errInfo = 1 ∨ t.errInfo = 2)
  | .crcSum   => t.status.err = .range ∧ t.errInfo = 1
  | .pngOpen  => (t.status.err = .range ∧ t.errInfo = 1) ∨ (t.status.err = .fmtSignature ∧ t.errInfo = 0)
  | .pngNext  => (t.status.err = .sequence ∧ t.errInfo = 0x21) ∨ (t.status.err = .fmtTruncated ∧ t.errInfo = t.pPos)
  | .pngIhdr  => (t.status.err = .sequence ∧ t.errInfo = 0x22) ∨ (t.status.err = .fmtIhdrLen ∧ t.errInfo = t.chLen)
  | .pngPeek  => (t.status.err = .range ∧ t.errInfo = 1) ∨ (t.status.err = .fmtSignature ∧ t.errInfo = 0) ∨
      (t.status.err = .fmtTruncated ∧ t.errInfo = t.pPos) ∨ (t.status.err = .fmtMissingIhdr ∧ t.errInfo = 0) ∨
      (t.status.err = .fmtIhdrLen ∧ t.errInfo = t.chLen)
  | .pbEncode => (t.status.err = .range ∧ t.errInfo = 1) ∨
      (t.status.err = .overflow ∧ t.errInfo = BitVec.ofNat 32 (pbEncode t.input).length)
  | .nop | .sreset | .crcInit | .crcByte _ => False
  | .pbLit _ | .pbRun _ _ | .pngSig | .pngChunk _ _ _ | .pngIhdrBody _ | .pngSrgbBody _ => False

/-- Two machines that differ at most in the bytes of `IBUF` outside the valid input `IBUF[0 .. x[ILEN])` (20_memory.md R73). -/
structure State.SameValidInput (s t : State) : Prop where
  rest  : t = { s with ibuf := t.ibuf, ibufDraw := t.ibufDraw }
  bytes : ∀ a, a < s.ilen.toNat → t.ibufByte a = s.ibufByte a

/-- The 25 registers by number with the value `RegRead` returns (10_state.md R24, 43_control_and_access.md R182). -/
def State.registerTable (s : State) : List (Word × Word) :=
  [(0x00, 0), (0x01, s.status.toWord), (0x02, s.errInfo), (0x03, s.ilen), (0x04, s.olen), (0x05, s.srcOff),
   (0x06, s.srcLen), (0x07, s.ibufSize), (0x08, s.obufSize)] ++
  [(0x10, s.crcR), (0x11, s.crcR ^^^ 0xFFFFFFFF), (0x12, 0xEDB88320)] ++
  [(0x20, s.pPos), (0x21, s.chLen), (0x22, s.chTag), (0x23, s.chDoff), (0x24, s.chCrc), (0x25, s.chCalc)] ++
  [(0x28, s.ihWidth), (0x29, s.ihHeight), (0x2A, s.ihDepth), (0x2B, s.ihCtype), (0x2C, s.ihComp), (0x2D, s.ihFilt),
   (0x2E, s.ihIlace)]

/-- Run the tokens' instructions in order (30_encoding.md R86: "a concatenation of tokens"). -/
def runTokens : List Token → State → Answer
  | [], s => .next s
  | k :: ks, s => match exec k.instr s with
    | .next t    => runTokens ks t
    | .fault r   => .fault r
    | .refused r => .refused r

end Sys2Proof.Machine
end

