-- ==== Sys2Proof/WellFormed.lean ====
section
/-! DEFINITION. Which instructions an encoding exists for. The commands' operands carry their range in their type; the
records of variable length have theirs checked here. -/

namespace Sys2Proof

/-- An instruction is well formed when every count it carries fits the field that encodes it: a literal token has 1 to 128
bytes and a run token a count of 3 to 130 (30_encoding.md R86), a chunk's data length fits its 32-bit length field
(30_encoding.md R84, 44_pseudo_ops.md R195: shorter than 2^32 bytes). -/
def Instr.wellFormed : Instr → Bool
  | .pbLit data         => decide (1 ≤ data.length ∧ data.length ≤ 128)
  | .pbRun count _      => decide (3 ≤ count ∧ count ≤ 130)
  | .pngChunk _ data _  => decide (data.length < 4294967296)
  | .nop | .sreset | .crcInit | .crcByte _ | .crcBuf | .crcSum => true
  | .pngOpen | .pngNext | .pngIhdr | .pngPeek | .pbEncode => true
  | .pngSig | .pngIhdrBody _ | .pngSrgbBody _ => true

end Sys2Proof
end

