-- ==== Sys2Proof/Certificates/Slice0/Obligations.lean ====
section
/-! DEFINITION. The statements for the provers, from the numbered rules of spec/. A next state is written as an update of the
state before, so that everything the update does not name is unchanged. -/

open Sys2Proof Sys2Proof.Machine

/-! ## Encodings -/

/-- Words written out from the encodings of 30_encoding.md R81, R83, R86 decode to what they stand for. -/
def Obligations.SpecWordsDecode : Prop :=
  decodeCommand 0b00000000000000000000000000000000 = .ok .nop ∧
  decodeCommand 0b00000000000000000000000000000001 = .ok .sreset ∧
  decodeCommand 0b00000000000000000000000000010000 = .ok .crcInit ∧
  decodeCommand 0b00000000000000000011000100010001 = .ok (.crcByte 0x31) ∧
  decodeCommand 0b00000000000000000000000000010010 = .ok .crcBuf ∧
  decodeCommand 0b00000000000000000000000000010011 = .ok .crcSum ∧
  decodeCommand 0b00000000000000000000000000100000 = .ok .pngOpen ∧
  decodeCommand 0b00000000000000000000000000100001 = .ok .pngNext ∧
  decodeCommand 0b00000000000000000000000000100010 = .ok .pngIhdr ∧
  decodeCommand 0b00000000000000000000000000100011 = .ok .pngPeek ∧
  decodeCommand 0b00000000000000000000000000110000 = .ok .pbEncode ∧
  decode .pbToken [0x01, 0x41, 0x42] = .ok (.pbLit [0x41, 0x42], []) ∧
  decode .pbToken [0xFF, 0x05, 0x77] = .ok (.pbRun 130 0x05, [0x77]) ∧
  decode .pngSig [0x89, 0x50, 0x4E, 0x47, 0x0D, 0x0A, 0x1A, 0x0A] = .ok (.pngSig, []) ∧
  decode .pngChunk [0, 0, 0, 0, 0x49, 0x45, 0x4E, 0x44, 0xAE, 0x42, 0x60, 0x82] =
    .ok (.pngChunk 0x49454E44 [] 0xAE426082, []) ∧
  decode .ihdrBody [0, 0, 1, 2, 0, 0, 0, 3, 8, 6, 0, 0, 1] = .ok (.pngIhdrBody ⟨0x102, 3, 8, 6, 0, 0, 1⟩, []) ∧
  decode .srgbBody [0x03] = .ok (.pngSrgbBody 3, [])

/-- The decoder undoes the encoder on every well-formed instruction, whatever bytes follow: no bit of an encoding is dropped. -/
def Obligations.EncodeThenDecode : Prop :=
  ∀ (i : Instr) (rest : List Byte), i.wellFormed = true → decode i.format (encode i ++ rest) = .ok (i, rest)

/-- 30_encoding.md R82: which words are illegal, and that there are exactly 266 legal ones; an illegal word completes with
`ILLEGAL_CMD` and `ERRINFO <- w`, and no other state changes (`STICKY` by 60_exceptions.md R212). -/
def Obligations.IllegalWordsExecuteNothing : Prop :=
  (∀ w : Word, (∃ i, decodeCommand w = .ok i) ↔
    ¬ (w.extractLsb' 16 16 ≠ 0 ∨
       w.extractLsb' 0 8 ∉ [(0x00 : Byte), 0x01, 0x10, 0x11, 0x12, 0x13, 0x20, 0x21, 0x22, 0x23, 0x30] ∨
       (w.extractLsb' 0 8 ≠ (0x11 : Byte) ∧ w.extractLsb' 8 8 ≠ (0 : Byte)))) ∧
  (∃ legal : List Word, legal.Nodup ∧ legal.length = 266 ∧ ∀ w, w ∈ legal ↔ ∃ i, decodeCommand w = .ok i) ∧
  (∀ (w : Word) (s : State), (∀ i, decodeCommand w ≠ .ok i) →
    perform (.regWrite 0x00 w) s =
      .next { s with status := { s.status with err := .illegalCmd, sticky := true }, errInfo := w })

/-- A legal command word is the encoding of the command it decodes to: each command has one word (30_encoding.md R81). -/
def Obligations.DecodedWordReencodes : Prop :=
  ∀ (w : Word) (i : Instr), decodeCommand w = .ok i → encodeWord i = some w ∧ i.format = .cw

/-! ## The step -/

/-- One step is one host operation, whole (20_memory.md R70), and nothing where the host has none (10_state.md R20; log entry
2); a write of a word to `CMD` that decodes to `i` makes the step run `i`, with the operation taken off the host's queue. -/
def Obligations.StepRunsDecodedCommand : Prop :=
  (∀ s : State, s.pending = [] → step s = .next s) ∧
  (∀ (s : State) (op : HostOp) (ops : List HostOp), s.pending = op :: ops → step s = perform op { s with pending := ops }) ∧
  (∀ (s : State) (w : Word) (i : Instr) (ops : List HostOp), s.pending = .regWrite 0x00 w :: ops →
    decodeCommand w = .ok i → step s = exec i { s with pending := ops })

/-- 60_exceptions.md R210: every command ends in exactly one of two ways, normal completion or error completion; there is no
third outcome; and no operation of the host does anything else than answer a next state. -/
def Obligations.EveryCommandCompletes : Prop :=
  (∀ (i : Instr) (s : State), ∃ t, exec i s = .next t ∧
    (i.format = .cw → (t.status.err = .ok ∧ t.errInfo = 0) ∨ (t.status.err ≠ .ok ∧ t.status.sticky = true))) ∧
  (∀ (op : HostOp) (s : State), ∃ t, perform op s = .next t ∧
    ((∀ w, op ≠ .regWrite 0x00 w) → op ≠ .hardwareReset →
      t.status.err = s.status.err ∧ t.status.sticky = s.status.sticky ∧ t.errInfo = s.errInfo)) ∧
  (∀ s : State, ∃ t, step s = .next t)

/-! ## Control and CRC commands -/

/-- 43_control_and_access.md R180, `NOP`. -/
def Obligations.NopOnlyCompletes : Prop :=
  decodeCommand 0x00000000 = .ok .nop ∧
  ∀ s : State, exec .nop s = .next { s with status := { s.status with err := .ok }, errInfo := 0 }

/-- 43_control_and_access.md R181, `SRESET`, and 70_reset_and_hazards.md R232: every register at its reset value, the buffers as
they were; it is the only command that clears `STICKY`. -/
def Obligations.SresetRestoresRegisters : Prop :=
  decodeCommand 0x00000001 = .ok .sreset ∧
  (∀ s : State, exec .sreset s = .next { s with
    status := ⟨.ok, false, false, false, false, false, false⟩
    errInfo := 0, ilen := 0, olen := 0, srcOff := 0, srcLen := 0, crcR := 0xFFFFFFFF, pPos := 0
    chLen := 0, chTag := 0, chDoff := 0, chCrc := 0, chCalc := 0
    ihWidth := 0, ihHeight := 0, ihDepth := 0, ihCtype := 0, ihComp := 0, ihFilt := 0, ihIlace := 0 }) ∧
  (∀ (i : Instr) (s t : State), exec i s = .next t → s.status.sticky = true → t.status.sticky = false → i = .sreset)

/-- 40_crc32.md R115, `CRC_INIT`. -/
def Obligations.CrcInitPresets : Prop :=
  decodeCommand 0x00000010 = .ok .crcInit ∧
  ∀ s : State, exec .crcInit s =
    .next { s with crcR := 0xFFFFFFFF, status := { s.status with err := .ok }, errInfo := 0 }

/-- 40_crc32.md R116, `CRC_BYTE imm8`, every immediate: `crc_step` of R111 written out. -/
def Obligations.CrcByteFoldsImmediate : Prop :=
  (∀ b : Byte, decodeCommand (BitVec.ofNat 32 (0x11 + b.toNat * 0x100)) = .ok (.crcByte b)) ∧
  ∀ (b : Byte) (s : State), exec (.crcByte b) s =
    .next { s with
      crcR := crcTable ((s.crcR ^^^ b.setWidth 32).extractLsb' 0 8) ^^^ (s.crcR >>> 8)
      status := { s.status with err := .ok }, errInfo := 0 }

/-- 40_crc32.md R117, `CRC_BUF`. -/
def Obligations.CrcBufFoldsWindow : Prop :=
  decodeCommand 0x00000012 = .ok .crcBuf ∧
  ∀ s : State,
    (s.ilen.toNat > s.ibufSize.toNat → exec .crcBuf s =
      .next { s with status := { s.status with err := .range, sticky := true }, errInfo := 1 }) ∧
    (s.ilen.toNat ≤ s.ibufSize.toNat → s.srcOff.toNat + s.srcLen.toNat > s.ilen.toNat → exec .crcBuf s =
      .next { s with status := { s.status with err := .range, sticky := true }, errInfo := 2 }) ∧
    (s.ilen.toNat ≤ s.ibufSize.toNat → s.srcOff.toNat + s.srcLen.toNat ≤ s.ilen.toNat → exec .crcBuf s =
      .next { s with
        crcR := crcFold s.crcR (s.ibufBytes s.srcOff.toNat s.srcLen.toNat)
        status := { s.status with err := .ok }, errInfo := 0 })

/-- 40_crc32.md R118, `CRC_SUM`; after it `RegRead(CRC_OUT)` is `crc32(ibuf)`; and it equals `CRC_INIT`, then `CRC_BUF` with
`SRC_OFF = 0` and `SRC_LEN = x[ILEN]`, but for those two registers. -/
def Obligations.CrcSumFoldsInput : Prop :=
  decodeCommand 0x00000013 = .ok .crcSum ∧
  ∀ s : State,
    (s.ilen.toNat > s.ibufSize.toNat → exec .crcSum s =
      .next { s with status := { s.status with err := .range, sticky := true }, errInfo := 1 }) ∧
    (s.ilen.toNat ≤ s.ibufSize.toNat → ∃ t, exec .crcSum s = .next t ∧
      t = { s with
        crcR := crcFold 0xFFFFFFFF (s.ibufBytes 0 s.ilen.toNat)
        status := { s.status with err := .ok }, errInfo := 0 } ∧
      t.regRead 0x11 = crc32 (s.ibufBytes 0 s.ilen.toNat) ∧
      ∃ u v, exec .crcInit { s with srcOff := 0, srcLen := s.ilen } = .next u ∧ exec .crcBuf u = .next v ∧
        v = { t with srcOff := 0, srcLen := s.ilen })

/-! ## PCP commands -/

/-- 41_png_chunk.md R133, `PNG_OPEN`: any earlier parse is closed first (`c`). -/
def Obligations.PngOpenTestsSignature : Prop :=
  decodeCommand 0x00000020 = .ok .pngOpen ∧
  ∀ s c : State,
    c = { s with
      status := { s.status with pOpen := false, eos := false, chValid := false, crcOk := false, ihValid := false }
      pPos := 0 } →
    (s.ilen.toNat > s.ibufSize.toNat → exec .pngOpen s =
      .next { c with status := { c.status with err := .range, sticky := true }, errInfo := 1 }) ∧
    (s.ilen.toNat ≤ s.ibufSize.toNat → s.ilen.toNat < 8 → exec .pngOpen s =
      .next { c with status := { c.status with err := .fmtSignature, sticky := true }, errInfo := 0 }) ∧
    (s.ilen.toNat ≤ s.ibufSize.toNat → 8 ≤ s.ilen.toNat →
      s.ibufBytes 0 8 ≠ [137, 80, 78, 71, 13, 10, 26, 10] → exec .pngOpen s =
      .next { c with status := { c.status with err := .fmtSignature, sticky := true }, errInfo := 0 }) ∧
    (s.ilen.toNat ≤ s.ibufSize.toNat → 8 ≤ s.ilen.toNat →
      s.ibufBytes 0 8 = [137, 80, 78, 71, 13, 10, 26, 10] → exec .pngOpen s =
      .next { c with status := { c.status with err := .ok, pOpen := true }, errInfo := 0, pPos := 8 })

/-- 41_png_chunk.md R134, `PNG_NEXT`, with `p = x[P_POS]` and `L` the length field at `p`: the five ends of its pseudocode. -/
def Obligations.PngNextYieldsChunk : Prop :=
  decodeCommand 0x00000021 = .ok .pngNext ∧
  ∀ (s : State) (p len : Nat), p = s.pPos.toNat → len = (s.ibufWord p).toNat →
    (s.status.pOpen = false → exec .pngNext s =
      .next { s with status := { s.status with err := .sequence, sticky := true }, errInfo := 0x21 }) ∧
    (s.status.pOpen = true → p = s.ilen.toNat → exec .pngNext s =
      .next { s with
        status := { s.status with err := .ok, eos := true, chValid := false, crcOk := false }, errInfo := 0 }) ∧
    (s.status.pOpen = true → p < s.ilen.toNat → s.ilen.toNat - p < 12 → exec .pngNext s =
      .next { s with status := { s.status with err := .fmtTruncated, sticky := true }, errInfo := s.pPos }) ∧
    (s.status.pOpen = true → p + 12 ≤ s.ilen.toNat → p + 12 + len > s.ilen.toNat → exec .pngNext s =
      .next { s with status := { s.status with err := .fmtTruncated, sticky := true }, errInfo := s.pPos }) ∧
    (s.status.pOpen = true → p + 12 + len ≤ s.ilen.toNat → exec .pngNext s =
      .next { s with
        chLen  := s.ibufWord p
        chTag  := s.ibufWord (p + 4)
        chDoff := BitVec.ofNat 32 (p + 8)
        chCrc  := s.ibufWord (p + 8 + len)
        chCalc := crc32 (s.ibufBytes (p + 4) (4 + len))
        pPos   := BitVec.ofNat 32 (p + 12 + len)
        status := { s.status with
          err := .ok, chValid := true
          crcOk := decide (crc32 (s.ibufBytes (p + 4) (4 + len)) = s.ibufWord (p + 8 + len)) }
        errInfo := 0 })

/-- 41_png_chunk.md R135, `PNG_IHDR`, with `d = x[CH_DOFF]`. -/
def Obligations.PngIhdrDecodesBody : Prop :=
  decodeCommand 0x00000022 = .ok .pngIhdr ∧
  ∀ (s : State) (d : Nat), d = s.chDoff.toNat →
    (s.status.chValid = false ∨ s.chTag ≠ 0x49484452 → exec .pngIhdr s =
      .next { s with status := { s.status with err := .sequence, sticky := true }, errInfo := 0x22 }) ∧
    (s.status.chValid = true → s.chTag = 0x49484452 → s.chLen ≠ 13 → exec .pngIhdr s =
      .next { s with status := { s.status with err := .fmtIhdrLen, sticky := true }, errInfo := s.chLen }) ∧
    (s.status.chValid = true → s.chTag = 0x49484452 → s.chLen = 13 → exec .pngIhdr s =
      .next { s with
        ihWidth  := s.ibufWord d
        ihHeight := s.ibufWord (d + 4)
        ihDepth  := (s.ibufByte (d + 8)).setWidth 32
        ihCtype  := (s.ibufByte (d + 9)).setWidth 32
        ihComp   := (s.ibufByte (d + 10)).setWidth 32
        ihFilt   := (s.ibufByte (d + 11)).setWidth 32
        ihIlace  := (s.ibufByte (d + 12)).setWidth 32
        status   := { s.status with err := .ok, ihValid := true }
        errInfo  := 0 })

/-- 41_png_chunk.md R136, `PNG_PEEK`: what issuing `PNG_OPEN`, then `PNG_NEXT` as often as its loop turns, then `PNG_IHDR`
would leave. -/
def Obligations.PngPeekIssuesOpenNextIhdr : Prop :=
  decodeCommand 0x00000023 = .ok .pngPeek ∧
  ∀ s : State, ∃ s1, exec .pngOpen s = .next s1 ∧
    (s1.status.err ≠ .ok → exec .pngPeek s = .next s1) ∧
    (s1.status.err = .ok → ∃ k u v, s1.afterNexts k = some u ∧ exec .pngNext u = .next v ∧
      ((v.status.err ≠ .ok ∧ exec .pngPeek s = .next v) ∨
       (v.status.err = .ok ∧ v.status.eos = true ∧ exec .pngPeek s =
          .next { v with status := { v.status with err := .fmtMissingIhdr, sticky := true }, errInfo := 0 }) ∨
       (v.status.err = .ok ∧ v.status.eos = false ∧ v.chTag = 0x49484452 ∧ exec .pngPeek s = exec .pngIhdr v)))

/-- `PNG_PEEK` is the source's `peek_ihdr` on `ibuf` (41_png_chunk.md R132 and the last sentences of R136): the same body in the
IHDR registers, or the completion code of the same cause. -/
def Obligations.PngPeekIsPeekIhdr : Prop :=
  ∀ s : State, s.ilen.toNat ≤ s.ibufSize.toNat → ∃ t, exec .pngPeek s = .next t ∧
    (∀ h, peekIhdr s.input = .ok h → t.status.err = .ok ∧ t.status.ihValid = true ∧ t.HoldsIhdr h) ∧
    (peekIhdr s.input = .error .signature → t.status.err = .fmtSignature) ∧
    (peekIhdr s.input = .error .truncated → t.status.err = .fmtTruncated) ∧
    (peekIhdr s.input = .error .missingIhdr → t.status.err = .fmtMissingIhdr) ∧
    (peekIhdr s.input = .error .ihdrLength → t.status.err = .fmtIhdrLen) ∧
    peekIhdr s.input ≠ .error .missingIend

/-- 41_png_chunk.md R138: the commands and the reference function `png_read` agree on `ibuf`, chunk by chunk to the end. -/
def Obligations.CommandsAgreeWithPngRead : Prop :=
  ∀ s : State, s.ilen.toNat ≤ s.ibufSize.toNat → ∃ t, exec .pngOpen s = .next t ∧
    (pngRead s.input = .error .signature → t.status.err = .fmtSignature) ∧
    (∀ cs e, pngRead s.input = .ok (cs, e) → t.status.err = .ok ∧ t.Yields cs e) ∧
    (∀ e, pngRead s.input = .error e → e = .signature)

/-! ## PBC command -/

/-- 42_packbits.md R164, `PB_ENCODE`: out of range; an output that does not fit (`OBUF` and `OLEN` unspecified, everything else
as said); an output that fits, byte by byte. -/
def Obligations.PbEncodeWritesOutput : Prop :=
  decodeCommand 0x00000030 = .ok .pbEncode ∧
  ∀ (s : State) (e : List Byte), e = pbEncode (s.ibufBytes 0 s.ilen.toNat) →
    (s.ilen.toNat > s.ibufSize.toNat → exec .pbEncode s =
      .next { s with status := { s.status with err := .range, sticky := true }, errInfo := 1 }) ∧
    (s.ilen.toNat ≤ s.ibufSize.toNat → e.length > s.obufSize.toNat → ∃ t, exec .pbEncode s = .next t ∧
      t = { s with
        obuf := t.obuf, obufDraw := t.obufDraw, olen := t.olen
        status := { s.status with err := .overflow, sticky := true }, errInfo := BitVec.ofNat 32 e.length }) ∧
    (s.ilen.toNat ≤ s.ibufSize.toNat → e.length ≤ s.obufSize.toNat → ∃ t, exec .pbEncode s = .next t ∧
      t = { s with
        obuf := t.obuf, olen := BitVec.ofNat 32 e.length, status := { s.status with err := .ok }, errInfo := 0 } ∧
      t.olen.toNat = e.length ∧
      (∀ a b, e[a]? = some b → t.obufByte a = b) ∧
      (∀ a, e.length ≤ a → t.obufByte a = s.obufByte a))

/-! ## The data-format records -/

/-- The effect of the records PCP takes (log entry 7, the model's choice of what `exec` of a record is; the effects are those of
41_png_chunk.md R133, R134, R135): the signature opens the parse, a chunk fills the chunk registers, an IHDR body the IHDR
registers; an sRGB body has none (log entry 8). -/
def Obligations.RecordEffects : Prop :=
  (∀ s : State, exec .pngSig s = .next { s with
    status := { s.status with
      err := .ok, pOpen := true, eos := false, chValid := false, crcOk := false, ihValid := false }
    errInfo := 0, pPos := 8 }) ∧
  (∀ (s : State) (tag : Word) (data : List Byte) (crc : Word), exec (.pngChunk tag data crc) s = .next { s with
    chLen := BitVec.ofNat 32 data.length, chTag := tag, chDoff := BitVec.ofNat 32 (s.pPos.toNat + 8)
    chCrc := crc, chCalc := crc32 (be32Bytes tag ++ data)
    pPos := BitVec.ofNat 32 (s.pPos.toNat + 12 + data.length)
    status := { s.status with
      err := .ok, chValid := true, crcOk := decide (crc32 (be32Bytes tag ++ data) = crc) }
    errInfo := 0 }) ∧
  (∀ (s : State) (h : IhdrBody), exec (.pngIhdrBody h) s = .next { s with
    ihWidth := h.width, ihHeight := h.height, ihDepth := h.depth.setWidth 32, ihCtype := h.colorType.setWidth 32
    ihComp := h.compr.setWidth 32, ihFilt := h.filter.setWidth 32, ihIlace := h.interlace.setWidth 32
    status := { s.status with err := .ok, ihValid := true }, errInfo := 0 }) ∧
  (∀ (s : State) (i : Byte), exec (.pngSrgbBody i) s = .next s)

/-- The effect of the tokens PBC produces (log entries 7 and 9, the model's choice; 30_encoding.md R86 gives the bytes): a
well-formed token's bytes stand in `OBUF` at the old `OLEN`, every other byte of `OBUF` is as it was and `OLEN` is moved on; a
token that does not fit is an `OVERFLOW`. -/
def Obligations.TokenEffects : Prop :=
  ∀ (s : State) (i : Instr) (bytes : List Byte),
    ((∃ data, i = .pbLit data ∧ i.wellFormed = true ∧ bytes = BitVec.ofNat 8 (data.length - 1) :: data) ∨
     (∃ count value, i = .pbRun count value ∧ i.wellFormed = true ∧ bytes = [BitVec.ofNat 8 (count + 125), value])) →
    (s.olen.toNat + bytes.length > s.obufSize.toNat → ∃ t, exec i s = .next t ∧
      t = { s with
        obuf := t.obuf, obufDraw := t.obufDraw, olen := t.olen
        status := { s.status with err := .overflow, sticky := true }
        errInfo := BitVec.ofNat 32 (s.olen.toNat + bytes.length) }) ∧
    (s.olen.toNat + bytes.length ≤ s.obufSize.toNat → ∃ t, exec i s = .next t ∧
      t = { s with obuf := t.obuf, olen := t.olen, status := { s.status with err := .ok }, errInfo := 0 } ∧
      t.olen.toNat = s.olen.toNat + bytes.length ∧
      (∀ k b, bytes[k]? = some b → t.obufByte (s.olen.toNat + k) = b) ∧
      (∀ a, a < s.olen.toNat ∨ s.olen.toNat + bytes.length ≤ a → t.obufByte a = s.obufByte a))

/-- The commands run the records they meet: where the decoder reads the record `i` at the place a command takes it from, the
command's answer is `exec i`'s. -/
def Obligations.CommandsRunTheRecordsTheyMeet : Prop :=
  (∀ (s : State) (rest : List Byte), s.ilen.toNat ≤ s.ibufSize.toNat →
    decode .pngSig s.input = .ok (.pngSig, rest) → exec .pngOpen s = exec .pngSig s) ∧
  (∀ (s : State) (i : Instr) (rest : List Byte), s.status.pOpen = true → s.pPos.toNat ≤ s.ilen.toNat →
    decode .pngChunk (s.ibufBytes s.pPos.toNat (s.ilen.toNat - s.pPos.toNat)) = .ok (i, rest) →
    exec .pngNext s = exec i s) ∧
  (∀ (s : State) (i : Instr) (rest : List Byte), s.status.chValid = true → s.chTag = 0x49484452 → s.chLen = 13 →
    decode .ihdrBody (s.ibufBytes s.chDoff.toNat s.chLen.toNat) = .ok (i, rest) → exec .pngIhdr s = exec i s)

/-- `PB_ENCODE` of a non-empty `ibuf` whose output fits runs the instructions of its tokens in order, from an empty output
(42_packbits.md R162, R164; 30_encoding.md R86). -/
def Obligations.PbEncodeRunsItsTokens : Prop :=
  ∀ s : State, 0 < s.ilen.toNat → s.ilen.toNat ≤ s.ibufSize.toNat → (pbEncode s.input).length ≤ s.obufSize.toNat →
    exec .pbEncode s = runTokens (pbTokens s.ilen.toNat s.input) { s with olen := 0 }

/-! ## Frames -/

/-- What `NOP` and the CRC commands leave unchanged: everything but `CRC_R` (`NOP`: that too), `ERR`, `STICKY` and `ERRINFO`;
every flag of PCP and every byte of both buffers. -/
def Obligations.CrcGroupFrame : Prop :=
  ∀ (i : Instr) (s t : State),
    i = .nop ∨ i = .crcInit ∨ (∃ b, i = .crcByte b) ∨ i = .crcBuf ∨ i = .crcSum → exec i s = .next t →
    t = { s with
      crcR := t.crcR, errInfo := t.errInfo
      status := { s.status with err := t.status.err, sticky := t.status.sticky } } ∧
    (i = .nop → t.crcR = s.crcR) ∧
    (∀ a, t.ibufByte a = s.ibufByte a) ∧ (∀ a, t.obufByte a = s.obufByte a)

/-- What the PCP commands leave unchanged: `ILEN`, `OLEN`, `CRC_R` (10_state.md R32), the operands of `CRC_BUF`, every byte of
both buffers; and each command the registers and flags of the others. -/
def Obligations.PcpFrame : Prop :=
  ∀ (i : Instr) (s t : State), i = .pngOpen ∨ i = .pngNext ∨ i = .pngIhdr ∨ i = .pngPeek → exec i s = .next t →
    t = { s with
      status := t.status, errInfo := t.errInfo, pPos := t.pPos
      chLen := t.chLen, chTag := t.chTag, chDoff := t.chDoff, chCrc := t.chCrc, chCalc := t.chCalc
      ihWidth := t.ihWidth, ihHeight := t.ihHeight, ihDepth := t.ihDepth, ihCtype := t.ihCtype
      ihComp := t.ihComp, ihFilt := t.ihFilt, ihIlace := t.ihIlace } ∧
    (∀ a, t.ibufByte a = s.ibufByte a) ∧ (∀ a, t.obufByte a = s.obufByte a) ∧
    (i = .pngOpen → t = { s with status := t.status, errInfo := t.errInfo, pPos := t.pPos }) ∧
    (i = .pngNext → t.status.pOpen = s.status.pOpen ∧ t.status.ihValid = s.status.ihValid ∧
      t = { s with
        status := t.status, errInfo := t.errInfo, pPos := t.pPos
        chLen := t.chLen, chTag := t.chTag, chDoff := t.chDoff, chCrc := t.chCrc, chCalc := t.chCalc }) ∧
    (i = .pngIhdr → t.status.pOpen = s.status.pOpen ∧ t.status.eos = s.status.eos ∧
      t.status.chValid = s.status.chValid ∧ t.status.crcOk = s.status.crcOk ∧ t.pPos = s.pPos ∧ t.chLen = s.chLen ∧
      t.chTag = s.chTag ∧ t.chDoff = s.chDoff ∧ t.chCrc = s.chCrc ∧ t.chCalc = s.chCalc)

/-- What `PB_ENCODE` leaves unchanged: every register but `OLEN`, `ERRINFO`, `ERR` and `STICKY`, every flag of PCP, every byte of
`IBUF`; of `OBUF`, the bytes outside the output where it completes `OK`, and every byte where it is out of range. -/
def Obligations.PbEncodeFrame : Prop :=
  ∀ s t : State, exec .pbEncode s = .next t →
    t = { s with
      olen := t.olen, obuf := t.obuf, obufDraw := t.obufDraw, errInfo := t.errInfo
      status := { s.status with err := t.status.err, sticky := t.status.sticky } } ∧
    (∀ a, t.ibufByte a = s.ibufByte a) ∧
    (t.status.err = .ok → ∀ a, (pbEncode s.input).length ≤ a → t.obufByte a = s.obufByte a) ∧
    (t.status.err = .range → t.olen = s.olen ∧ ∀ a, t.obufByte a = s.obufByte a)

/-! ## Completion -/

/-- 60_exceptions.md R211: which codes each command raises, with the value of `ERRINFO`; a command that raises nothing completes
with 0 in both and leaves `STICKY` (`SRESET` apart, which clears it). -/
def Obligations.CompletionCodes : Prop :=
  ∀ (i : Instr) (s t : State), i.format = .cw → exec i s = .next t →
    (t.status.err = .ok ∧ t.errInfo = 0 ∧ (i ≠ .sreset → t.status.sticky = s.status.sticky) ∧
      (i = .sreset → t.status.sticky = false)) ∨
    (t.status.err ≠ .ok ∧ t.status.sticky = true ∧ t.ShowsErrorOf i)

/-- The precision of errors (60_exceptions.md R212, its three cases): a command that raises has changed nothing but the
completion (`ERR`, `STICKY`, `ERRINFO`); or, for `PNG_OPEN`, has closed the parse; or, after `OVERFLOW`, has left `OBUF` and
`OLEN` unspecified. -/
def Obligations.ErrorsArePrecise : Prop :=
  ∀ (i : Instr) (s t : State), exec i s = .next t → t.status.err ≠ .ok →
    (i = .crcBuf ∨ i = .crcSum ∨ i = .pngNext ∨ i = .pngIhdr ∨ (i = .pbEncode ∧ t.status.err = .range) →
      t = { s with status := { s.status with err := t.status.err, sticky := true }, errInfo := t.errInfo }) ∧
    (i = .pngOpen →
      t = { s with
        status := ⟨t.status.err, true, false, false, false, false, false⟩, errInfo := t.errInfo, pPos := 0 }) ∧
    (i = .pbEncode → t.status.err = .overflow →
      t = { s with
        status := { s.status with err := .overflow, sticky := true }, errInfo := t.errInfo
        obuf := t.obuf, obufDraw := t.obufDraw, olen := t.olen })

/-- `STICKY` stays 1 until `SRESET` or hardware reset (10_state.md R26, 60_exceptions.md R214), and so it records a run that went
wrong (70_reset_and_hazards.md R236): a command that completed with a non-zero code makes the run one that went wrong, whatever
follows, and leaves `STICKY` set at the end where no reset follows; a run that sets `STICKY` is one that went wrong, and a run
that went wrong had such a command. -/
def Obligations.StickyLatches : Prop :=
  (∀ (s t : State) (op : HostOp), perform op s = .next t → s.status.sticky = true → ¬ op.isReset →
    t.status.sticky = true) ∧
  (∀ (before after : List HostOp) (op : HostOp) (s u t : State), performAll before s = .next u →
    commandFails op u = true → performAll (before ++ op :: after) s = .next t →
    runWentWrong (before ++ op :: after) s = true ∧ ((∀ o ∈ after, ¬ o.isReset) → t.wentWrong)) ∧
  (∀ (ops : List HostOp) (s : State), runWentWrong ops s = true → ∃ before op after u,
    ops = before ++ op :: after ∧ performAll before s = .next u ∧ commandFails op u = true) ∧
  (∀ (ops : List HostOp) (s t : State), performAll ops s = .next t → s.status.sticky = false → t.wentWrong →
    runWentWrong ops s = true) ∧
  (∀ (op : HostOp) (s t : State), perform op s = .next t →
    (commandFails op s = true ↔ (∃ w, op = .regWrite 0x00 w) ∧ t.status.err ≠ .ok))

/-- 60_exceptions.md R214: after an error completion ICB accepts the next operation exactly as after a normal one: no command
reads `ERR` or `ERRINFO`. -/
def Obligations.OldCompletionIsNotRead : Prop :=
  ∀ (i : Instr) (s : State) (e : Code) (info : Word), i.format = .cw →
    exec i { s with status := { s.status with err := e }, errInfo := info } = exec i s

/-- 60_exceptions.md R218: a CRC mismatch clears `CRC_OK` for that chunk and does nothing else: `PNG_NEXT` completes `OK`,
`STICKY` is not set, the chunk is yielded. -/
def Obligations.CrcMismatchIsNoError : Prop :=
  ∀ (s : State) (p len : Nat), p = s.pPos.toNat → len = (s.ibufWord p).toNat → s.status.pOpen = true →
    p + 12 + len ≤ s.ilen.toNat → crc32 (s.ibufBytes (p + 4) (4 + len)) ≠ s.ibufWord (p + 8 + len) →
    ∃ t, exec .pngNext s = .next t ∧ t.status.crcOk = false ∧ t.status.err = .ok ∧ t.status.sticky = s.status.sticky ∧
      t.status.chValid = true ∧ t.chTag = s.ibufWord (p + 4) ∧ t.chLen = s.ibufWord p ∧ t.pPos.toNat = p + 12 + len

/-- The validator's verdict is read by nothing (41_png_chunk.md R139): flipping `CRC_OK` changes what no command does, but for
`CRC_OK` itself. -/
def Obligations.VerdictIsNotRead : Prop :=
  ∀ (i : Instr) (s t : State) (v : Bool), exec i s = .next t →
    ∃ w, exec i { s with status := { s.status with crcOk := v } } =
      .next { t with status := { t.status with crcOk := w } }

/-! ## Accesses and reset -/

/-- `RegRead` (43_control_and_access.md R182): the 25 registers of 10_state.md R24, 0 for every other number, and no state of
the machine changes; the host gets the value. -/
def Obligations.RegReadValues : Prop :=
  ∀ (s : State) (n : Word),
    perform (.regRead n) s = .next { s with replies := s.replies ++ [.reg n (s.regRead n)] } ∧
    (∀ v, (n, v) ∈ s.registerTable → s.regRead n = v) ∧
    (n ∉ s.registerTable.map Prod.fst → s.regRead n = 0)

/-- The layout of `STATUS` (10_state.md R26) and the numbers of the codes (60_exceptions.md R211). -/
def Obligations.StatusLayout : Prop :=
  (∀ st : Status, st.toWord.extractLsb' 0 8 = st.err.toByte ∧ st.toWord.getLsbD 8 = st.sticky ∧
    st.toWord.getLsbD 9 = st.pOpen ∧ st.toWord.getLsbD 10 = st.eos ∧ st.toWord.getLsbD 11 = st.chValid ∧
    st.toWord.getLsbD 12 = st.crcOk ∧ st.toWord.getLsbD 13 = st.ihValid ∧
    st.toWord.extractLsb' 14 18 = (0 : BitVec 18)) ∧
  Code.ok.toByte = 0x00 ∧ Code.illegalCmd.toByte = 0x01 ∧ Code.range.toByte = 0x02 ∧ Code.sequence.toByte = 0x03 ∧
  Code.overflow.toByte = 0x04 ∧ Code.fmtSignature.toByte = 0x10 ∧ Code.fmtTruncated.toByte = 0x11 ∧
  Code.fmtMissingIhdr.toByte = 0x12 ∧ Code.fmtIhdrLen.toByte = 0x13

/-- `RegWrite` (43_control_and_access.md R183): a write to `CMD` executes the command word, or completes with `ILLEGAL_CMD`; the
invalidation of 20_memory.md R62 for a write to `ILEN`; nothing for read-only and unassigned numbers (10_state.md R42). -/
def Obligations.RegWriteEffects : Prop :=
  ∀ (s : State) (n v : Word),
    (n = 0x00 → ∀ i, decodeCommand v = .ok i → perform (.regWrite n v) s = exec i s) ∧
    (n = 0x00 → (∀ i, decodeCommand v ≠ .ok i) → perform (.regWrite n v) s =
      .next { s with status := { s.status with err := .illegalCmd, sticky := true }, errInfo := v }) ∧
    (n = 0x03 → perform (.regWrite n v) s = .next { s with
      ilen := v, pPos := 0
      status := { s.status with pOpen := false, eos := false, chValid := false, crcOk := false, ihValid := false } }) ∧
    (n = 0x05 → perform (.regWrite n v) s = .next { s with srcOff := v }) ∧
    (n = 0x06 → perform (.regWrite n v) s = .next { s with srcLen := v }) ∧
    (n ≠ 0x00 → n ≠ 0x03 → n ≠ 0x05 → n ≠ 0x06 → perform (.regWrite n v) s = .next s)

/-- `IbufWrite` (43_control_and_access.md R184) with the invalidation of 20_memory.md R62: one byte of `IBUF`, every other byte
as it was; nothing outside `IBUF`. -/
def Obligations.IbufWriteEffects : Prop :=
  ∀ (s : State) (a : Word) (b : Byte),
    (s.ibufSize.toNat ≤ a.toNat → perform (.ibufWrite a b) s = .next s) ∧
    (a.toNat < s.ibufSize.toNat → ∃ t, perform (.ibufWrite a b) s = .next t ∧
      t = { s with
        ibuf := t.ibuf, pPos := 0
        status := { s.status with pOpen := false, eos := false, chValid := false, crcOk := false, ihValid := false } } ∧
      t.ibufByte a.toNat = b ∧ ∀ k, k ≠ a.toNat → t.ibufByte k = s.ibufByte k)

/-- `ObufRead` (43_control_and_access.md R185): the byte inside `OBUF`, 0 outside, and no state of the machine changes. -/
def Obligations.ObufReadValues : Prop :=
  ∀ (s : State) (a : Word),
    (a.toNat < s.obufSize.toNat →
      perform (.obufRead a) s = .next { s with replies := s.replies ++ [.obuf a (s.obufByte a.toNat)] }) ∧
    (s.obufSize.toNat ≤ a.toNat → perform (.obufRead a) s = .next { s with replies := s.replies ++ [.obuf a 0] })

/-- The reset state (70_reset_and_hazards.md R231, 10_state.md R43), as the host reads it; no byte of a buffer is written. -/
def Obligations.ResetStateValues : Prop :=
  (∀ r : Reg, r ≠ .ibufSize → r ≠ .obufSize → r ≠ .crcR → r ≠ .crcPoly → State.reset.regRead r.num = 0) ∧
  State.reset.regRead 0x10 = 0xFFFFFFFF ∧ State.reset.regRead 0x12 = 0xEDB88320 ∧
  State.reset.regRead 0x07 = Config.ibufSize ∧ State.reset.regRead 0x08 = Config.obufSize ∧
  State.reset.status = ⟨.ok, false, false, false, false, false, false⟩ ∧
  State.reset.ibuf = [] ∧ State.reset.obuf = []

/-- Hardware reset (70_reset_and_hazards.md R230): the whole state is replaced by the reset state; every byte of `IBUF` and
`OBUF` reads from a fresh free draw (log entry 4); the machine's parameters stay, and so does what is the host's (log entry 15). -/
def Obligations.HardwareResetReplacesState : Prop :=
  ∀ s : State, ∃ t, perform .hardwareReset s = .next t ∧
    t = { State.reset with
      ibufSize := s.ibufSize, obufSize := s.obufSize, pending := s.pending, replies := s.replies
      ibufDraw := t.ibufDraw, obufDraw := t.obufDraw } ∧
    s.ibufDraw < t.ibufDraw ∧ s.obufDraw < t.obufDraw ∧
    (∀ a, t.ibufByte a = Config.freeIbuf t.ibufDraw a) ∧ (∀ a, t.obufByte a = Config.freeObuf t.obufDraw a)

/-- `IBUF_SIZE` and `OBUF_SIZE` are constants (10_state.md R31): no step changes them. -/
def Obligations.SizesNeverChange : Prop :=
  ∀ s t : State, step s = .next t → t.ibufSize = s.ibufSize ∧ t.obufSize = s.obufSize

/-! ## Invariant and isolation -/

/-- The invariant of 10_state.md R44 holds right after reset. -/
def Obligations.InvariantAtReset : Prop := State.reset.Inv

/-- 10_state.md R44: every step keeps the invariant (a) to (f), from every state that meets it; and so do the canonical form of
the buffers inside their capacities, `P_POS = 0` of a closed parse (R35) and the zero upper bits of the narrow registers. -/
def Obligations.StepKeepsInvariant : Prop :=
  ∀ s t : State, s.Inv → step s = .next t → t.Inv

/-- 20_memory.md R73: no command reads `IBUF` at an address `>= x[ILEN]`. Two machines whose `IBUF` differ only there answer
alike, in every state that meets the invariant. -/
def Obligations.CommandsReadOnlyValidInput : Prop :=
  ∀ (i : Instr) (s t s' : State), i.format = .cw → s.Inv → s.SameValidInput t → exec i s = .next s' →
    exec i t = .next { s' with ibuf := t.ibuf, ibufDraw := t.ibufDraw }

/-! ## CRC-32 -/

/-- 40_crc32.md R114: `crc_step` in bitwise form. -/
def Obligations.CrcStepIsBitwise : Prop :=
  ∀ (c : Word) (b : Byte), crcStep c b = crcShift8 (c ^^^ b.setWidth 32)

/-- 40_crc32.md R119 (a) and (b): a CRC may be fed in pieces, and a finished CRC can be resumed. -/
def Obligations.CrcFoldsInPieces : Prop :=
  (∀ (c : Word) (s t : List Byte), crcFold c (s ++ t) = crcFold (crcFold c s) t) ∧
  (∀ s t : List Byte, crc32 (s ++ t) = not32 (crcFold (not32 (crc32 s)) t))

/-- The check values of 40_crc32.md R113 (the source's). -/
def Obligations.CrcCheckValues : Prop :=
  crc32 [] = 0 ∧ crc32 [0x31, 0x32, 0x33, 0x34, 0x35, 0x36, 0x37, 0x38, 0x39] = 0xCBF43926

/-! ## PackBits-ICNS -/

/-- 42_packbits.md R160 and R161: `run_len` at a run start is the largest count; `lit_len` is the distance to the first later run
start, or to the end, capped at 128. `d` is the byte string from position `i` on. -/
def Obligations.RunAndLiteralLengths : Prop :=
  (∀ d : List Byte, runStart d = true ↔ 2 < d.length ∧ d[0]? = d[1]? ∧ d[1]? = d[2]?) ∧
  (∀ d : List Byte, runStart d = true →
    IsGreatest {c : Nat | 3 ≤ c ∧ c ≤ 130 ∧ c ≤ d.length ∧ ∀ k, k < c → d[k]? = d[0]?} (runLen d)) ∧
  (∀ d : List Byte, d ≠ [] → ∃ j,
    IsLeast {j : Nat | 1 ≤ j ∧ (j = d.length ∨ (j < d.length ∧ runStart (d.drop j) = true))} j ∧ litLen d = min j 128)

/-- 42_packbits.md R163 and R161's remark: every token `pb_encode` emits is well formed, and no literal contains a run start. -/
def Obligations.TokensAreWellFormed : Prop :=
  ∀ (d : List Byte) (k : Token), k ∈ pbTokens d.length d →
    k.instr.wellFormed = true ∧
    (∀ data, k = .lit data → (∀ j, runStart (data.drop j) = false) ∧ (BitVec.ofNat 8 (data.length - 1)).toNat + 1 = data.length) ∧
    (∀ count value, k = .run count value → (BitVec.ofNat 8 (count + 125)).toNat = count + 125)

/-- 42_packbits.md R165, the source's testable properties. -/
def Obligations.SourcePropertiesOfEncode : Prop :=
  (∀ (n : Nat) (b : Byte), 3 ≤ n → n ≤ 130 → pbEncode (List.replicate n b) = [BitVec.ofNat 8 (n + 125), b]) ∧
  (∀ d : List Byte, 1 ≤ d.length → d.length ≤ 128 → (∀ j, runStart (d.drop j) = false) →
    pbEncode d = BitVec.ofNat 8 (d.length - 1) :: d) ∧
  pbEncode [] = []

/-- 42_packbits.md R167: decoding the encoder's output gives the input back, for every byte string. -/
def Obligations.PackBitsRoundTrip : Prop := ∀ d : List Byte, pbDecode (pbEncode d) = some d

/-- 42_packbits.md R168: the size bound, and that it is reached. -/
def Obligations.PackBitsSizeBound : Prop :=
  (∀ d : List Byte, (pbEncode d).length ≤ d.length + d.length / 128 + 1) ∧
  (∃ d : List Byte, d.length = 129 ∧ d.Nodup ∧ (pbEncode d).length = d.length + d.length / 128 + 1)

/-- 00_scope.md R7: `PB_ENCODE` never faults `OVERFLOW` when `OBUF_SIZE >= IBUF_SIZE + floor(IBUF_SIZE / 128) + 1`. -/
def Obligations.LargeOutputNeverOverflows : Prop :=
  ∀ s : State, s.ibufSize.toNat + s.ibufSize.toNat / 128 + 1 ≤ s.obufSize.toNat →
    ∃ t, exec .pbEncode s = .next t ∧ t.status.err ≠ .overflow ∧ (s.ilen.toNat ≤ s.ibufSize.toNat → t.status.err = .ok)

/-! ## The writer and the pseudo-operations -/

/-- 44_pseudo_ops.md R203 (c) and (d): reading what `png_write` wrote gives the list back, each pair with its CRC, to a clean
end; and every chunk satisfies the validator. -/
def Obligations.WriteThenRead : Prop :=
  ∀ list : List (Word × List Byte), (∀ x ∈ list, x.2.length < 4294967296) → ∃ out cs, pngWrite list = some out ∧
    pngRead out = .ok (cs, .atEnd) ∧ cs.map (fun c => (c.tag, c.data)) = list ∧
    (∀ c ∈ cs, chunkCrcOk c = true)

/-- 44_pseudo_ops.md R203 (a), the source's chunk round trip: `peek_ihdr` of a written stream whose first chunk is an IHDR chunk
with a 13-byte body decodes that body. -/
def Obligations.PeekOfWrittenStream : Prop :=
  ∀ (h : IhdrBody) (d : List Byte), d.length < 4294967296 → ∃ out,
    pngWrite [(0x49484452, ihdrBytes h), (0x49444154, d), (0x49454E44, [])] = some out ∧ peekIhdr out = .ok h

/-- 44_pseudo_ops.md R203 (b), the source's property: `minimize` is idempotent, on every stream it has bytes for. -/
def Obligations.MinimizeIsIdempotent : Prop :=
  ∀ (x y : List Byte) (srgb : Option Byte), minimize x srgb = .bytes y → minimize y srgb = .bytes y

/-- 44_pseudo_ops.md R197 and R198: `LOAD s` leaves `ibuf = s` with the parse closed and `CRC_R`, `OBUF`, `OLEN` untouched, and is
not available for a longer `s` than `IBUF` holds, nor is what begins with it; both expansions of `CRC32 s` end with the host
reading `crc32(s)`. -/
def Obligations.LoadAndCrc32 : Prop :=
  ∀ (s : State) (bs : List Byte),
    (bs.length > s.ibufSize.toNat → loadLines s.ibufSize bs = none ∧ crc32ByBuffer s.ibufSize bs = none) ∧
    (bs.length ≤ s.ibufSize.toNat → ∃ ls t, loadLines s.ibufSize bs = some ls ∧ runLines ls s = .next t ∧ t.input = bs ∧
      t = { s with
        ibuf := t.ibuf, ilen := BitVec.ofNat 32 bs.length, pPos := 0
        status := { s.status with pOpen := false, eos := false, chValid := false, crcOk := false, ihValid := false } }) ∧
    (bs.length ≤ s.ibufSize.toNat → ∃ ls t, crc32ByBuffer s.ibufSize bs = some ls ∧ runLines ls s = .next t ∧
      t.replies = s.replies ++ [.reg 0x11 (crc32 bs)]) ∧
    (∃ t, runLines (crc32ByBytes bs) s = .next t ∧ t.replies = s.replies ++ [.reg 0x11 (crc32 bs)] ∧
      t.status.pOpen = s.status.pOpen)

/-- 44_pseudo_ops.md R200: with a valid chunk `CHUNK_VERIFY` ends with the host reading `CH_CALC` from `CRC_OUT`, equal to
`CH_CRC` exactly when `CRC_OK = 1`; the parse stays as it was. -/
def Obligations.ChunkVerifyRecomputes : Prop :=
  ∀ s : State, s.Inv → s.status.chValid = true → ∃ ls t, chunkVerify s = some ls ∧ runLines ls s = .next t ∧
    t.replies = s.replies ++
      [.reg 0x23 s.chDoff, .reg 0x21 s.chLen, .reg 0x24 s.chCrc, .reg 0x11 s.chCalc] ∧
    t.regRead 0x11 = s.chCalc ∧ (t.regRead 0x11 = s.chCrc ↔ s.status.crcOk = true) ∧
    t.status.err = .ok ∧ t.status.pOpen = true ∧ t.status.chValid = true ∧ t.pPos = s.pPos

/-- 44_pseudo_ops.md R199: `PNG_READ_ALL` on the current `ibuf` stops with the code of an open that fails; else it obtains the
chunks of `png_read(ibuf)`, the data taken from the host's own copy, and stops as that ends. -/
def Obligations.PngReadAllIsPngRead : Prop :=
  ∀ s : State,
    (s.ilen.toNat > s.ibufSize.toNat → ∃ t, pngReadAll s = some ([], .failed 0x02, t)) ∧
    (s.ilen.toNat ≤ s.ibufSize.toNat → pngRead s.input = .error .signature →
      ∃ t, pngReadAll s = some ([], .failed 0x10, t)) ∧
    (s.ilen.toNat ≤ s.ibufSize.toNat → ∀ cs e, pngRead s.input = .ok (cs, e) →
      ∃ views t, pngReadAll s = some (views, (if e = .atEnd then .complete else .failed 0x11), t) ∧
        views.map (·.chunk s.input) = cs ∧ views.map ChunkView.crcOk = cs.map chunkCrcOk)

/-- 44_pseudo_ops.md R201: the bytes `PNG_WRITE list` emits equal `png_write(list)`, whether a chunk fits `IBUF` or is fed in
pieces. -/
def Obligations.PngWriteHostIsPngWrite : Prop :=
  ∀ (s : State) (list : List (Word × List Byte)), s.ibufSize ≠ 0 → (∀ x ∈ list, x.2.length < 4294967296) →
    ∃ out t, pngWrite list = some out ∧ pngWriteHost list s = some (out, t)

/-- 44_pseudo_ops.md R202: `PNG_MINIMIZE` of a byte string that fits `IBUF` gives what `minimize` gives. -/
def Obligations.PngMinimizeHostIsMinimize : Prop :=
  ∀ (s : State) (bs : List Byte) (srgb : Option Byte), bs.length ≤ s.ibufSize.toNat →
    ∃ t, pngMinimizeHost bs srgb s = some (minimize bs srgb, t)
end

