-- ==== Sys2Proof/Laws/Bytes.lean ====
section
/-! SUPPORT. Byte order and the reads of `IBUF`: `be32` and `be32_bytes` undo each other (00_scope.md R10), and what reading
strings of bytes says. -/

namespace Sys2Proof

/-- `be32` is the sum of 00_scope.md R10: it never wraps. -/
theorem toNat_be32 (a b c d : Byte) :
    (be32 a b c d).toNat = a.toNat * 16777216 + b.toNat * 65536 + c.toNat * 256 + d.toNat := by
  have ha := a.isLt
  have hb := b.isLt
  have hc := c.isLt
  have hd := d.isLt
  rw [be32, BitVec.toNat_ofNat, Nat.mod_eq_of_lt (by omega)]
  omega

theorem be32_be32Bytes (v : Word) :
    be32 (v.extractLsb' 24 8) (v.extractLsb' 16 8) (v.extractLsb' 8 8) (v.extractLsb' 0 8) = v := by
  have h : ∀ n : Nat, n < 4294967296 →
      n / 16777216 % 256 * 16777216 + n / 65536 % 256 * 65536 + n / 256 % 256 * 256 + n % 256 = n := by
    intro n hn; omega
  apply BitVec.eq_of_toNat_eq
  rw [toNat_be32]
  simpa only [BitVec.extractLsb'_toNat, Nat.shiftRight_eq_div_pow, Nat.reducePow, Nat.div_one] using h v.toNat v.isLt

/-- The digits of a four-digit number in base 256. -/
theorem digits_of_sum (a b c d : Nat) (ha : a < 256) (hb : b < 256) (hc : c < 256) (hd : d < 256) :
    (a * 16777216 + b * 65536 + c * 256 + d) / 16777216 % 256 = a ∧
    (a * 16777216 + b * 65536 + c * 256 + d) / 65536 % 256 = b ∧
    (a * 16777216 + b * 65536 + c * 256 + d) / 256 % 256 = c ∧
    (a * 16777216 + b * 65536 + c * 256 + d) % 256 = d := by omega

theorem be32Bytes_be32 (a b c d : Byte) : be32Bytes (be32 a b c d) = [a, b, c, d] := by
  obtain ⟨h3, h2, h1, h0⟩ := digits_of_sum a.toNat b.toNat c.toNat d.toNat a.isLt b.isLt c.isLt d.isLt
  rw [← toNat_be32] at h0 h1 h2 h3
  have e : ∀ (start : Nat) (x : Byte), (be32 a b c d).toNat / 2 ^ start % 256 = x.toNat →
      (be32 a b c d).extractLsb' start 8 = x := fun start x h => by
    apply BitVec.eq_of_toNat_eq
    rw [BitVec.extractLsb'_toNat, Nat.shiftRight_eq_div_pow, h]
  rw [be32Bytes, e 24 a h3, e 16 b h2, e 8 c h1, e 0 d (by simpa using h0)]

@[simp] theorem be32Bytes_length (v : Word) : (be32Bytes v).length = 4 := rfl

@[simp] theorem takeWord_be32Bytes (v : Word) (rest : List Byte) : takeWord (be32Bytes v ++ rest) = some (v, rest) := by
  simp [be32Bytes, takeWord, be32_be32Bytes]

/-- What `takeWord` read: the four bytes at the head. -/
theorem takeWord_eq_some {bs rest : List Byte} {v : Word} (h : takeWord bs = some (v, rest)) :
    bs = be32Bytes v ++ rest := by
  unfold takeWord at h
  split at h
  · simp only [Option.some.injEq, Prod.mk.injEq] at h
    obtain ⟨rfl, rfl⟩ := h
    simp [be32Bytes_be32]
  · simp at h

theorem takeWord_eq_none {bs : List Byte} : takeWord bs = none ↔ bs.length < 4 := by
  unfold takeWord
  split
  · simp
  · next h =>
    simp only [true_iff]
    match bs, h with
    | [], _ | [_], _ | [_, _], _ | [_, _, _], _ => simp
    | a :: b :: c :: d :: r, h => exact absurd rfl (h a b c d r)

@[simp] theorem takeBytes_append (data rest : List Byte) : takeBytes data.length (data ++ rest) = some (data, rest) := by
  simp [takeBytes]

/-- What `takeBytes` read: the first `n` bytes. -/
theorem takeBytes_eq_some {n : Nat} {bs data rest : List Byte} (h : takeBytes n bs = some (data, rest)) :
    bs = data ++ rest ∧ data.length = n := by
  unfold takeBytes at h
  split at h
  · simp at h
  · simp only [Option.some.injEq, Prod.mk.injEq] at h
    obtain ⟨rfl, rfl⟩ := h
    simp; omega

theorem takeBytes_eq_none {n : Nat} {bs : List Byte} : takeBytes n bs = none ↔ bs.length < n := by
  simp [takeBytes]

/-- What `takeChunkRecord` read: a chunk record, its length field the number of its data bytes. -/
theorem takeChunkRecord_eq_some {bs rest data : List Byte} {tag crc : Word}
    (h : takeChunkRecord bs = some ((tag, data, crc), rest)) :
    bs = chunkBytes tag data crc ++ rest ∧ data.length < 4294967296 := by
  simp only [takeChunkRecord, Option.bind_eq_some_iff, Option.map_eq_some_iff, Prod.exists, Prod.mk.injEq] at h
  obtain ⟨len, r0, h0, tag', r1, h1, data', r2, h2, crc', r3, h3, ⟨rfl, rfl, rfl⟩, rfl⟩ := h
  obtain ⟨hr1, hlen⟩ := takeBytes_eq_some h2
  have hlen' : BitVec.ofNat 32 data'.length = len := by rw [hlen]; simp
  refine ⟨?_, by rw [hlen]; exact len.isLt⟩
  rw [takeWord_eq_some h0, takeWord_eq_some h1, hr1, takeWord_eq_some h3, chunkBytes, hlen']
  simp only [List.append_assoc]

theorem takeChunkRecord_chunkBytes (tag : Word) (data : List Byte) (crc : Word) (rest : List Byte)
    (h : data.length < 4294967296) :
    takeChunkRecord (chunkBytes tag data crc ++ rest) = some ((tag, data, crc), rest) := by
  have hl : (BitVec.ofNat 32 data.length).toNat = data.length := by
    rw [BitVec.toNat_ofNat]; exact Nat.mod_eq_of_lt h
  simp only [takeChunkRecord, chunkBytes, List.append_assoc, takeWord_be32Bytes, Option.bind_some, hl,
    takeBytes_append, Option.map_some]

@[simp] theorem chunkBytes_length (tag : Word) (data : List Byte) (crc : Word) :
    (chunkBytes tag data crc).length = 12 + data.length := by
  simp [chunkBytes]; omega

@[simp] theorem ihdrBytes_length (h : IhdrBody) : (ihdrBytes h).length = 13 := rfl

@[simp] theorem takeIhdrBody_ihdrBytes (h : IhdrBody) (rest : List Byte) :
    takeIhdrBody (ihdrBytes h ++ rest) = some (h, rest) := by
  simp only [ihdrBytes, List.append_assoc, takeIhdrBody, takeWord_be32Bytes, Option.bind_some]
  rfl

/-! ## The decoder and the encoder, format by format -/

theorem decode_cw (bs : List Byte) : decode .cw bs =
    match takeWord bs with
    | none           => .error .truncatedRecord
    | some (w, rest) => match decodeCommand w with
      | .ok i    => .ok (i, rest)
      | .error e => .error e := rfl

theorem decode_pbToken (bs : List Byte) : decode .pbToken bs =
    match takeToken bs with
    | some x => .ok x
    | none   => .error .truncatedRecord := rfl

theorem decode_pngSig (bs : List Byte) : decode .pngSig bs =
    if bs.take 8 = pngSignature then .ok (.pngSig, bs.drop 8) else .error .wrongSignature := rfl

theorem decode_pngChunk (bs : List Byte) : decode .pngChunk bs =
    match takeChunkRecord bs with
    | some ((tag, data, crc), rest) => .ok (.pngChunk tag data crc, rest)
    | none                          => .error .truncatedRecord := by
  simp only [decode]
  cases takeChunkRecord bs <;> rfl

theorem decode_ihdrBody (bs : List Byte) : decode .ihdrBody bs =
    match takeIhdrBody bs with
    | some (h, rest) => .ok (.pngIhdrBody h, rest)
    | none           => .error .truncatedRecord := by
  simp only [decode]
  cases takeIhdrBody bs <;> rfl

theorem encode_of_word {i : Instr} {w : Word} (h : encodeWord i = some w) : encode i = be32Bytes w := by
  simp [encode, h]

theorem encode_pbLit (data : List Byte) : encode (.pbLit data) = literalBytes data := rfl
theorem encode_pbRun (count : Nat) (value : Byte) : encode (.pbRun count value) = runBytes count value := rfl
theorem encode_pngSig : encode .pngSig = pngSignature := rfl
theorem encode_pngChunk (tag : Word) (data : List Byte) (crc : Word) :
    encode (.pngChunk tag data crc) = chunkBytes tag data crc := rfl
theorem encode_pngIhdrBody (h : IhdrBody) : encode (.pngIhdrBody h) = ihdrBytes h := rfl
theorem encode_pngSrgbBody (intent : Byte) : encode (.pngSrgbBody intent) = [intent] := rfl

/-- A literal token's header holds its length less 1 (30_encoding.md R86). -/
theorem literalHeader_toNat {data : List Byte} (h : 1 ≤ data.length ∧ data.length ≤ 128) :
    (BitVec.ofNat 8 (data.length - 1) : Byte).toNat = data.length - 1 := by
  rw [BitVec.toNat_ofNat]; exact Nat.mod_eq_of_lt (by omega)

/-- A run token's header holds its count plus 125 (30_encoding.md R86). -/
theorem runHeader_toNat {count : Nat} (h : count ≤ 130) : (BitVec.ofNat 8 (count + 125) : Byte).toNat = count + 125 := by
  rw [BitVec.toNat_ofNat]; exact Nat.mod_eq_of_lt (by omega)

theorem takeToken_literalBytes {data : List Byte} (h : 1 ≤ data.length ∧ data.length ≤ 128) (rest : List Byte) :
    takeToken (literalBytes data ++ rest) = some (.pbLit data, rest) := by
  simp only [literalBytes, List.cons_append, takeToken, literalHeader_toNat h]
  rw [if_pos (by omega), show data.length - 1 + 1 = data.length by omega, takeBytes_append]
  rfl

theorem takeToken_runBytes {count : Nat} (h : 3 ≤ count ∧ count ≤ 130) (value : Byte) (rest : List Byte) :
    takeToken (runBytes count value ++ rest) = some (.pbRun count value, rest) := by
  simp only [runBytes, List.cons_append, takeToken, runHeader_toNat h.2]
  rw [if_neg (by omega)]
  simp

namespace Machine

@[simp] theorem State.ibufBytes_length (s : State) (a n : Nat) : (s.ibufBytes a n).length = n := by
  induction n generalizing a with
  | zero => rfl
  | succ n ih => simp [State.ibufBytes, ih]

theorem State.ibufBytes_append (s : State) (a m n : Nat) :
    s.ibufBytes a (m + n) = s.ibufBytes a m ++ s.ibufBytes (a + m) n := by
  induction m generalizing a with
  | zero => simp [State.ibufBytes]
  | succ m ih => rw [Nat.succ_add, State.ibufBytes, ih, State.ibufBytes]; simp [Nat.add_assoc, Nat.add_comm 1 m]

theorem State.ibufBytes_getElem? (s : State) (a n k : Nat) (h : k < n) :
    (s.ibufBytes a n)[k]? = some (s.ibufByte (a + k)) := by
  induction n generalizing a k with
  | zero => omega
  | succ n ih =>
    cases k with
    | zero => simp [State.ibufBytes]
    | succ k => rw [State.ibufBytes, List.getElem?_cons_succ, ih (a + 1) k (by omega)]; congr 2; omega

theorem State.ibufBytes_drop (s : State) (a n k : Nat) (h : k ≤ n) :
    (s.ibufBytes a n).drop k = s.ibufBytes (a + k) (n - k) := by
  conv => lhs; rw [show n = k + (n - k) by omega]
  rw [State.ibufBytes_append, List.drop_left' (by simp)]

theorem State.ibufBytes_take (s : State) (a n k : Nat) (h : k ≤ n) :
    (s.ibufBytes a n).take k = s.ibufBytes a k := by
  conv => lhs; rw [show n = k + (n - k) by omega]
  rw [State.ibufBytes_append, List.take_left' (by simp)]

/-- The four bytes of a big-endian word of `IBUF` (20_memory.md R64). -/
theorem State.be32Bytes_ibufWord (s : State) (a : Nat) : be32Bytes (s.ibufWord a) = s.ibufBytes a 4 := by
  rw [State.ibufWord, be32Bytes_be32]
  rfl

/-- The bytes of two buffers agree where their bytes do. -/
theorem State.ibufBytes_congr {s t : State} {a n : Nat} (h : ∀ k, a ≤ k → k < a + n → s.ibufByte k = t.ibufByte k) :
    s.ibufBytes a n = t.ibufBytes a n := by
  induction n generalizing a with
  | zero => rfl
  | succ n ih =>
    rw [State.ibufBytes, State.ibufBytes, h a (by omega) (by omega), ih fun k h1 h2 => h k (by omega) (by omega)]

theorem State.ibufWord_congr {s t : State} {a : Nat} (h : ∀ k, a ≤ k → k < a + 4 → s.ibufByte k = t.ibufByte k) :
    s.ibufWord a = t.ibufWord a := by
  simp only [State.ibufWord, h a (by omega) (by omega), h (a + 1) (by omega) (by omega),
    h (a + 2) (by omega) (by omega), h (a + 3) (by omega) (by omega)]

/-- What is read of `IBUF` depends on `IBUF` alone. -/
theorem State.ibufByte_of_ibuf {s t : State} (h : s.ibuf = t.ibuf) (hd : s.ibufDraw = t.ibufDraw) (a : Nat) :
    s.ibufByte a = t.ibufByte a := by
  simp only [State.ibufByte, h, hd]

theorem State.ibufBytes_of_ibuf {s t : State} (h : s.ibuf = t.ibuf) (hd : s.ibufDraw = t.ibufDraw) (a n : Nat) :
    s.ibufBytes a n = t.ibufBytes a n :=
  State.ibufBytes_congr fun k _ _ => State.ibufByte_of_ibuf h hd k

theorem State.ibufWord_of_ibuf {s t : State} (h : s.ibuf = t.ibuf) (hd : s.ibufDraw = t.ibufDraw) (a : Nat) :
    s.ibufWord a = t.ibufWord a :=
  State.ibufWord_congr fun k _ _ => State.ibufByte_of_ibuf h hd k

/-- What is read of `OBUF` depends on `OBUF` alone. -/
theorem State.obufByte_of_obuf {s t : State} (h : s.obuf = t.obuf) (hd : s.obufDraw = t.obufDraw) (a : Nat) :
    s.obufByte a = t.obufByte a := by
  simp only [State.obufByte, h, hd]

@[simp] theorem State.obufBytes_length (s : State) (a n : Nat) : (s.obufBytes a n).length = n := by
  induction n generalizing a with
  | zero => rfl
  | succ n ih => simp [State.obufBytes, ih]

/-! ## The records in `IBUF` -/

theorem State.takeWord_ibufBytes (s : State) (a n : Nat) (h : 4 ≤ n) :
    takeWord (s.ibufBytes a n) = some (s.ibufWord a, s.ibufBytes (a + 4) (n - 4)) := by
  conv => lhs; rw [show n = 4 + (n - 4) by omega, State.ibufBytes_append, ← State.be32Bytes_ibufWord, takeWord_be32Bytes]

theorem State.takeBytes_ibufBytes (s : State) (a n k : Nat) (h : k ≤ n) :
    takeBytes k (s.ibufBytes a n) = some (s.ibufBytes a k, s.ibufBytes (a + k) (n - k)) := by
  have := takeBytes_append (s.ibufBytes a k) (s.ibufBytes (a + k) (n - k))
  rw [← State.ibufBytes_append, State.ibufBytes_length] at this
  rw [← this]; congr 2; omega

/-- The chunk record at an offset of `IBUF` (30_encoding.md R84), where it is whole. -/
theorem State.takeChunkRecord_ibufBytes (s : State) (p n : Nat) : takeChunkRecord (s.ibufBytes p n) =
    if 12 ≤ n ∧ 12 + (s.ibufWord p).toNat ≤ n then
      some ((s.ibufWord (p + 4), s.ibufBytes (p + 8) (s.ibufWord p).toNat, s.ibufWord (p + 8 + (s.ibufWord p).toNat)),
        s.ibufBytes (p + 12 + (s.ibufWord p).toNat) (n - 12 - (s.ibufWord p).toNat))
    else none := by
  unfold takeChunkRecord
  by_cases h4 : 4 ≤ n
  · rw [State.takeWord_ibufBytes _ _ _ h4, Option.bind_some]; dsimp only
    by_cases h8 : 8 ≤ n
    · rw [State.takeWord_ibufBytes _ _ _ (by omega), Option.bind_some]; dsimp only
      by_cases hl : (s.ibufWord p).toNat ≤ n - 4 - 4
      · rw [State.takeBytes_ibufBytes _ _ _ _ hl, Option.bind_some]; dsimp only
        by_cases hc : 4 ≤ n - 4 - 4 - (s.ibufWord p).toNat
        · rw [State.takeWord_ibufBytes _ _ _ hc, Option.map_some, if_pos (by omega)]
          rw [show p + 4 + 4 = p + 8 from rfl, show p + 8 + (s.ibufWord p).toNat + 4 = p + 12 + (s.ibufWord p).toNat by omega,
            show n - 4 - 4 - (s.ibufWord p).toNat - 4 = n - 12 - (s.ibufWord p).toNat by omega]
        · rw [takeWord_eq_none.2 (by simp; omega), if_neg (by omega)]; rfl
      · rw [takeBytes_eq_none.2 (by simp; omega), if_neg (by omega)]; rfl
    · rw [takeWord_eq_none.2 (by simp; omega), if_neg (by omega)]; rfl
  · rw [takeWord_eq_none.2 (by simp; omega), if_neg (by omega)]; rfl

end Machine
end Sys2Proof
end

