-- ==== Sys2Proof/Laws/Registers.lean ====
section
/-! SUPPORT. The register map (10_state.md R24): numbers name registers one to one. -/

namespace Sys2Proof.Machine

@[simp] theorem Reg.ofNum_num (r : Reg) : Reg.ofNum r.num = some r := by
  cases r <;> rfl

/-- A number names at most one register, its own. -/
theorem Reg.ofNum_eq_some {n : Word} {r : Reg} (h : Reg.ofNum n = some r) : n = r.num := by
  have hn : ∀ k : Nat, n.toNat = k → n = BitVec.ofNat 32 k := fun k hk => by
    rw [← hk, BitVec.ofNat_toNat, BitVec.setWidth_eq]
  unfold Reg.ofNum at h
  split at h
  all_goals first
    | contradiction
    | (rename_i heq; cases h; exact hn _ heq)

@[simp] theorem State.regRead_num (s : State) (r : Reg) : s.regRead r.num = s.readReg r := by
  simp [State.regRead]

end Sys2Proof.Machine
end

