-- ==== Sys2Proof/Laws/State.lean ====
section
/-! SUPPORT. One lemma per field per named update of `State` and `Status`, true by `rfl`: no later proof unfolds an update. -/

namespace Sys2Proof.Machine

/-! ## `Status` -/

@[simp] theorem Status.closed_err (st : Status) : st.closed.err = st.err := rfl
@[simp] theorem Status.closed_sticky (st : Status) : st.closed.sticky = st.sticky := rfl
@[simp] theorem Status.closed_pOpen (st : Status) : st.closed.pOpen = false := rfl
@[simp] theorem Status.closed_eos (st : Status) : st.closed.eos = false := rfl
@[simp] theorem Status.closed_chValid (st : Status) : st.closed.chValid = false := rfl
@[simp] theorem Status.closed_crcOk (st : Status) : st.closed.crcOk = false := rfl
@[simp] theorem Status.closed_ihValid (st : Status) : st.closed.ihValid = false := rfl
@[simp] theorem Status.atEnd_err (st : Status) : st.atEnd.err = st.err := rfl
@[simp] theorem Status.atEnd_sticky (st : Status) : st.atEnd.sticky = st.sticky := rfl
@[simp] theorem Status.atEnd_pOpen (st : Status) : st.atEnd.pOpen = st.pOpen := rfl
@[simp] theorem Status.atEnd_eos (st : Status) : st.atEnd.eos = true := rfl
@[simp] theorem Status.atEnd_chValid (st : Status) : st.atEnd.chValid = false := rfl
@[simp] theorem Status.atEnd_crcOk (st : Status) : st.atEnd.crcOk = false := rfl
@[simp] theorem Status.atEnd_ihValid (st : Status) : st.atEnd.ihValid = st.ihValid := rfl
@[simp] theorem Status.withChunk_err (st : Status) (v : Bool) : (st.withChunk v).err = st.err := rfl
@[simp] theorem Status.withChunk_sticky (st : Status) (v : Bool) : (st.withChunk v).sticky = st.sticky := rfl
@[simp] theorem Status.withChunk_pOpen (st : Status) (v : Bool) : (st.withChunk v).pOpen = st.pOpen := rfl
@[simp] theorem Status.withChunk_eos (st : Status) (v : Bool) : (st.withChunk v).eos = st.eos := rfl
@[simp] theorem Status.withChunk_chValid (st : Status) (v : Bool) : (st.withChunk v).chValid = true := rfl
@[simp] theorem Status.withChunk_crcOk (st : Status) (v : Bool) : (st.withChunk v).crcOk = v := rfl
@[simp] theorem Status.withChunk_ihValid (st : Status) (v : Bool) : (st.withChunk v).ihValid = st.ihValid := rfl
@[simp] theorem Status.completedOk_err (st : Status) : st.completedOk.err = .ok := rfl
@[simp] theorem Status.completedOk_sticky (st : Status) : st.completedOk.sticky = st.sticky := rfl
@[simp] theorem Status.completedOk_pOpen (st : Status) : st.completedOk.pOpen = st.pOpen := rfl
@[simp] theorem Status.completedOk_eos (st : Status) : st.completedOk.eos = st.eos := rfl
@[simp] theorem Status.completedOk_chValid (st : Status) : st.completedOk.chValid = st.chValid := rfl
@[simp] theorem Status.completedOk_crcOk (st : Status) : st.completedOk.crcOk = st.crcOk := rfl
@[simp] theorem Status.completedOk_ihValid (st : Status) : st.completedOk.ihValid = st.ihValid := rfl
@[simp] theorem Status.completedWith_err (st : Status) (e : Code) : (st.completedWith e).err = e := rfl
@[simp] theorem Status.completedWith_sticky (st : Status) (e : Code) : (st.completedWith e).sticky = true := rfl
@[simp] theorem Status.completedWith_pOpen (st : Status) (e : Code) : (st.completedWith e).pOpen = st.pOpen := rfl
@[simp] theorem Status.completedWith_eos (st : Status) (e : Code) : (st.completedWith e).eos = st.eos := rfl
@[simp] theorem Status.completedWith_chValid (st : Status) (e : Code) : (st.completedWith e).chValid = st.chValid := rfl
@[simp] theorem Status.completedWith_crcOk (st : Status) (e : Code) : (st.completedWith e).crcOk = st.crcOk := rfl
@[simp] theorem Status.completedWith_ihValid (st : Status) (e : Code) : (st.completedWith e).ihValid = st.ihValid := rfl
@[simp] theorem Status.reset_err : Status.reset.err = .ok := rfl
@[simp] theorem Status.reset_sticky : Status.reset.sticky = false := rfl
@[simp] theorem Status.reset_pOpen : Status.reset.pOpen = false := rfl
@[simp] theorem Status.reset_eos : Status.reset.eos = false := rfl
@[simp] theorem Status.reset_chValid : Status.reset.chValid = false := rfl
@[simp] theorem Status.reset_crcOk : Status.reset.crcOk = false := rfl
@[simp] theorem Status.reset_ihValid : Status.reset.ihValid = false := rfl

/-! ## `completeOk` -/

@[simp] theorem State.completeOk_status (s : State) : s.completeOk.status = s.status.completedOk := rfl
@[simp] theorem State.completeOk_errInfo (s : State) : s.completeOk.errInfo = 0 := rfl
@[simp] theorem State.completeOk_ilen (s : State) : s.completeOk.ilen = s.ilen := rfl
@[simp] theorem State.completeOk_olen (s : State) : s.completeOk.olen = s.olen := rfl
@[simp] theorem State.completeOk_srcOff (s : State) : s.completeOk.srcOff = s.srcOff := rfl
@[simp] theorem State.completeOk_srcLen (s : State) : s.completeOk.srcLen = s.srcLen := rfl
@[simp] theorem State.completeOk_ibufSize (s : State) : s.completeOk.ibufSize = s.ibufSize := rfl
@[simp] theorem State.completeOk_obufSize (s : State) : s.completeOk.obufSize = s.obufSize := rfl
@[simp] theorem State.completeOk_crcR (s : State) : s.completeOk.crcR = s.crcR := rfl
@[simp] theorem State.completeOk_pPos (s : State) : s.completeOk.pPos = s.pPos := rfl
@[simp] theorem State.completeOk_chLen (s : State) : s.completeOk.chLen = s.chLen := rfl
@[simp] theorem State.completeOk_chTag (s : State) : s.completeOk.chTag = s.chTag := rfl
@[simp] theorem State.completeOk_chDoff (s : State) : s.completeOk.chDoff = s.chDoff := rfl
@[simp] theorem State.completeOk_chCrc (s : State) : s.completeOk.chCrc = s.chCrc := rfl
@[simp] theorem State.completeOk_chCalc (s : State) : s.completeOk.chCalc = s.chCalc := rfl
@[simp] theorem State.completeOk_ihWidth (s : State) : s.completeOk.ihWidth = s.ihWidth := rfl
@[simp] theorem State.completeOk_ihHeight (s : State) : s.completeOk.ihHeight = s.ihHeight := rfl
@[simp] theorem State.completeOk_ihDepth (s : State) : s.completeOk.ihDepth = s.ihDepth := rfl
@[simp] theorem State.completeOk_ihCtype (s : State) : s.completeOk.ihCtype = s.ihCtype := rfl
@[simp] theorem State.completeOk_ihComp (s : State) : s.completeOk.ihComp = s.ihComp := rfl
@[simp] theorem State.completeOk_ihFilt (s : State) : s.completeOk.ihFilt = s.ihFilt := rfl
@[simp] theorem State.completeOk_ihIlace (s : State) : s.completeOk.ihIlace = s.ihIlace := rfl
@[simp] theorem State.completeOk_ibuf (s : State) : s.completeOk.ibuf = s.ibuf := rfl
@[simp] theorem State.completeOk_obuf (s : State) : s.completeOk.obuf = s.obuf := rfl
@[simp] theorem State.completeOk_ibufDraw (s : State) : s.completeOk.ibufDraw = s.ibufDraw := rfl
@[simp] theorem State.completeOk_obufDraw (s : State) : s.completeOk.obufDraw = s.obufDraw := rfl
@[simp] theorem State.completeOk_pending (s : State) : s.completeOk.pending = s.pending := rfl
@[simp] theorem State.completeOk_replies (s : State) : s.completeOk.replies = s.replies := rfl

/-! ## `completeError` -/

@[simp] theorem State.completeError_status (s : State) (e : Code) (info : Nat) : (s.completeError e info).status = s.status.completedWith e := rfl
@[simp] theorem State.completeError_errInfo (s : State) (e : Code) (info : Nat) : (s.completeError e info).errInfo = BitVec.ofNat 32 info := rfl
@[simp] theorem State.completeError_ilen (s : State) (e : Code) (info : Nat) : (s.completeError e info).ilen = s.ilen := rfl
@[simp] theorem State.completeError_olen (s : State) (e : Code) (info : Nat) : (s.completeError e info).olen = s.olen := rfl
@[simp] theorem State.completeError_srcOff (s : State) (e : Code) (info : Nat) : (s.completeError e info).srcOff = s.srcOff := rfl
@[simp] theorem State.completeError_srcLen (s : State) (e : Code) (info : Nat) : (s.completeError e info).srcLen = s.srcLen := rfl
@[simp] theorem State.completeError_ibufSize (s : State) (e : Code) (info : Nat) : (s.completeError e info).ibufSize = s.ibufSize := rfl
@[simp] theorem State.completeError_obufSize (s : State) (e : Code) (info : Nat) : (s.completeError e info).obufSize = s.obufSize := rfl
@[simp] theorem State.completeError_crcR (s : State) (e : Code) (info : Nat) : (s.completeError e info).crcR = s.crcR := rfl
@[simp] theorem State.completeError_pPos (s : State) (e : Code) (info : Nat) : (s.completeError e info).pPos = s.pPos := rfl
@[simp] theorem State.completeError_chLen (s : State) (e : Code) (info : Nat) : (s.completeError e info).chLen = s.chLen := rfl
@[simp] theorem State.completeError_chTag (s : State) (e : Code) (info : Nat) : (s.completeError e info).chTag = s.chTag := rfl
@[simp] theorem State.completeError_chDoff (s : State) (e : Code) (info : Nat) : (s.completeError e info).chDoff = s.chDoff := rfl
@[simp] theorem State.completeError_chCrc (s : State) (e : Code) (info : Nat) : (s.completeError e info).chCrc = s.chCrc := rfl
@[simp] theorem State.completeError_chCalc (s : State) (e : Code) (info : Nat) : (s.completeError e info).chCalc = s.chCalc := rfl
@[simp] theorem State.completeError_ihWidth (s : State) (e : Code) (info : Nat) : (s.completeError e info).ihWidth = s.ihWidth := rfl
@[simp] theorem State.completeError_ihHeight (s : State) (e : Code) (info : Nat) : (s.completeError e info).ihHeight = s.ihHeight := rfl
@[simp] theorem State.completeError_ihDepth (s : State) (e : Code) (info : Nat) : (s.completeError e info).ihDepth = s.ihDepth := rfl
@[simp] theorem State.completeError_ihCtype (s : State) (e : Code) (info : Nat) : (s.completeError e info).ihCtype = s.ihCtype := rfl
@[simp] theorem State.completeError_ihComp (s : State) (e : Code) (info : Nat) : (s.completeError e info).ihComp = s.ihComp := rfl
@[simp] theorem State.completeError_ihFilt (s : State) (e : Code) (info : Nat) : (s.completeError e info).ihFilt = s.ihFilt := rfl
@[simp] theorem State.completeError_ihIlace (s : State) (e : Code) (info : Nat) : (s.completeError e info).ihIlace = s.ihIlace := rfl
@[simp] theorem State.completeError_ibuf (s : State) (e : Code) (info : Nat) : (s.completeError e info).ibuf = s.ibuf := rfl
@[simp] theorem State.completeError_obuf (s : State) (e : Code) (info : Nat) : (s.completeError e info).obuf = s.obuf := rfl
@[simp] theorem State.completeError_ibufDraw (s : State) (e : Code) (info : Nat) : (s.completeError e info).ibufDraw = s.ibufDraw := rfl
@[simp] theorem State.completeError_obufDraw (s : State) (e : Code) (info : Nat) : (s.completeError e info).obufDraw = s.obufDraw := rfl
@[simp] theorem State.completeError_pending (s : State) (e : Code) (info : Nat) : (s.completeError e info).pending = s.pending := rfl
@[simp] theorem State.completeError_replies (s : State) (e : Code) (info : Nat) : (s.completeError e info).replies = s.replies := rfl

/-! ## `closeParse` -/

@[simp] theorem State.closeParse_status (s : State) : s.closeParse.status = s.status.closed := rfl
@[simp] theorem State.closeParse_errInfo (s : State) : s.closeParse.errInfo = s.errInfo := rfl
@[simp] theorem State.closeParse_ilen (s : State) : s.closeParse.ilen = s.ilen := rfl
@[simp] theorem State.closeParse_olen (s : State) : s.closeParse.olen = s.olen := rfl
@[simp] theorem State.closeParse_srcOff (s : State) : s.closeParse.srcOff = s.srcOff := rfl
@[simp] theorem State.closeParse_srcLen (s : State) : s.closeParse.srcLen = s.srcLen := rfl
@[simp] theorem State.closeParse_ibufSize (s : State) : s.closeParse.ibufSize = s.ibufSize := rfl
@[simp] theorem State.closeParse_obufSize (s : State) : s.closeParse.obufSize = s.obufSize := rfl
@[simp] theorem State.closeParse_crcR (s : State) : s.closeParse.crcR = s.crcR := rfl
@[simp] theorem State.closeParse_pPos (s : State) : s.closeParse.pPos = 0 := rfl
@[simp] theorem State.closeParse_chLen (s : State) : s.closeParse.chLen = s.chLen := rfl
@[simp] theorem State.closeParse_chTag (s : State) : s.closeParse.chTag = s.chTag := rfl
@[simp] theorem State.closeParse_chDoff (s : State) : s.closeParse.chDoff = s.chDoff := rfl
@[simp] theorem State.closeParse_chCrc (s : State) : s.closeParse.chCrc = s.chCrc := rfl
@[simp] theorem State.closeParse_chCalc (s : State) : s.closeParse.chCalc = s.chCalc := rfl
@[simp] theorem State.closeParse_ihWidth (s : State) : s.closeParse.ihWidth = s.ihWidth := rfl
@[simp] theorem State.closeParse_ihHeight (s : State) : s.closeParse.ihHeight = s.ihHeight := rfl
@[simp] theorem State.closeParse_ihDepth (s : State) : s.closeParse.ihDepth = s.ihDepth := rfl
@[simp] theorem State.closeParse_ihCtype (s : State) : s.closeParse.ihCtype = s.ihCtype := rfl
@[simp] theorem State.closeParse_ihComp (s : State) : s.closeParse.ihComp = s.ihComp := rfl
@[simp] theorem State.closeParse_ihFilt (s : State) : s.closeParse.ihFilt = s.ihFilt := rfl
@[simp] theorem State.closeParse_ihIlace (s : State) : s.closeParse.ihIlace = s.ihIlace := rfl
@[simp] theorem State.closeParse_ibuf (s : State) : s.closeParse.ibuf = s.ibuf := rfl
@[simp] theorem State.closeParse_obuf (s : State) : s.closeParse.obuf = s.obuf := rfl
@[simp] theorem State.closeParse_ibufDraw (s : State) : s.closeParse.ibufDraw = s.ibufDraw := rfl
@[simp] theorem State.closeParse_obufDraw (s : State) : s.closeParse.obufDraw = s.obufDraw := rfl
@[simp] theorem State.closeParse_pending (s : State) : s.closeParse.pending = s.pending := rfl
@[simp] theorem State.closeParse_replies (s : State) : s.closeParse.replies = s.replies := rfl

/-! ## `openParse` -/

@[simp] theorem State.openParse_status (s : State) : s.openParse.status = { s.status with pOpen := true } := rfl
@[simp] theorem State.openParse_errInfo (s : State) : s.openParse.errInfo = s.errInfo := rfl
@[simp] theorem State.openParse_ilen (s : State) : s.openParse.ilen = s.ilen := rfl
@[simp] theorem State.openParse_olen (s : State) : s.openParse.olen = s.olen := rfl
@[simp] theorem State.openParse_srcOff (s : State) : s.openParse.srcOff = s.srcOff := rfl
@[simp] theorem State.openParse_srcLen (s : State) : s.openParse.srcLen = s.srcLen := rfl
@[simp] theorem State.openParse_ibufSize (s : State) : s.openParse.ibufSize = s.ibufSize := rfl
@[simp] theorem State.openParse_obufSize (s : State) : s.openParse.obufSize = s.obufSize := rfl
@[simp] theorem State.openParse_crcR (s : State) : s.openParse.crcR = s.crcR := rfl
@[simp] theorem State.openParse_pPos (s : State) : s.openParse.pPos = 8 := rfl
@[simp] theorem State.openParse_chLen (s : State) : s.openParse.chLen = s.chLen := rfl
@[simp] theorem State.openParse_chTag (s : State) : s.openParse.chTag = s.chTag := rfl
@[simp] theorem State.openParse_chDoff (s : State) : s.openParse.chDoff = s.chDoff := rfl
@[simp] theorem State.openParse_chCrc (s : State) : s.openParse.chCrc = s.chCrc := rfl
@[simp] theorem State.openParse_chCalc (s : State) : s.openParse.chCalc = s.chCalc := rfl
@[simp] theorem State.openParse_ihWidth (s : State) : s.openParse.ihWidth = s.ihWidth := rfl
@[simp] theorem State.openParse_ihHeight (s : State) : s.openParse.ihHeight = s.ihHeight := rfl
@[simp] theorem State.openParse_ihDepth (s : State) : s.openParse.ihDepth = s.ihDepth := rfl
@[simp] theorem State.openParse_ihCtype (s : State) : s.openParse.ihCtype = s.ihCtype := rfl
@[simp] theorem State.openParse_ihComp (s : State) : s.openParse.ihComp = s.ihComp := rfl
@[simp] theorem State.openParse_ihFilt (s : State) : s.openParse.ihFilt = s.ihFilt := rfl
@[simp] theorem State.openParse_ihIlace (s : State) : s.openParse.ihIlace = s.ihIlace := rfl
@[simp] theorem State.openParse_ibuf (s : State) : s.openParse.ibuf = s.ibuf := rfl
@[simp] theorem State.openParse_obuf (s : State) : s.openParse.obuf = s.obuf := rfl
@[simp] theorem State.openParse_ibufDraw (s : State) : s.openParse.ibufDraw = s.ibufDraw := rfl
@[simp] theorem State.openParse_obufDraw (s : State) : s.openParse.obufDraw = s.obufDraw := rfl
@[simp] theorem State.openParse_pending (s : State) : s.openParse.pending = s.pending := rfl
@[simp] theorem State.openParse_replies (s : State) : s.openParse.replies = s.replies := rfl

/-! ## `takeChunk` -/

@[simp] theorem State.takeChunk_status (s : State) (c : Chunk) : (s.takeChunk c).status = s.status.withChunk (chunkCrcOk c) := rfl
@[simp] theorem State.takeChunk_errInfo (s : State) (c : Chunk) : (s.takeChunk c).errInfo = s.errInfo := rfl
@[simp] theorem State.takeChunk_ilen (s : State) (c : Chunk) : (s.takeChunk c).ilen = s.ilen := rfl
@[simp] theorem State.takeChunk_olen (s : State) (c : Chunk) : (s.takeChunk c).olen = s.olen := rfl
@[simp] theorem State.takeChunk_srcOff (s : State) (c : Chunk) : (s.takeChunk c).srcOff = s.srcOff := rfl
@[simp] theorem State.takeChunk_srcLen (s : State) (c : Chunk) : (s.takeChunk c).srcLen = s.srcLen := rfl
@[simp] theorem State.takeChunk_ibufSize (s : State) (c : Chunk) : (s.takeChunk c).ibufSize = s.ibufSize := rfl
@[simp] theorem State.takeChunk_obufSize (s : State) (c : Chunk) : (s.takeChunk c).obufSize = s.obufSize := rfl
@[simp] theorem State.takeChunk_crcR (s : State) (c : Chunk) : (s.takeChunk c).crcR = s.crcR := rfl
@[simp] theorem State.takeChunk_pPos (s : State) (c : Chunk) : (s.takeChunk c).pPos = BitVec.ofNat 32 (s.pPos.toNat + 12 + c.data.length) := rfl
@[simp] theorem State.takeChunk_chLen (s : State) (c : Chunk) : (s.takeChunk c).chLen = BitVec.ofNat 32 c.data.length := rfl
@[simp] theorem State.takeChunk_chTag (s : State) (c : Chunk) : (s.takeChunk c).chTag = c.tag := rfl
@[simp] theorem State.takeChunk_chDoff (s : State) (c : Chunk) : (s.takeChunk c).chDoff = BitVec.ofNat 32 (s.pPos.toNat + 8) := rfl
@[simp] theorem State.takeChunk_chCrc (s : State) (c : Chunk) : (s.takeChunk c).chCrc = c.crc := rfl
@[simp] theorem State.takeChunk_chCalc (s : State) (c : Chunk) : (s.takeChunk c).chCalc = chunkCalc c.tag c.data := rfl
@[simp] theorem State.takeChunk_ihWidth (s : State) (c : Chunk) : (s.takeChunk c).ihWidth = s.ihWidth := rfl
@[simp] theorem State.takeChunk_ihHeight (s : State) (c : Chunk) : (s.takeChunk c).ihHeight = s.ihHeight := rfl
@[simp] theorem State.takeChunk_ihDepth (s : State) (c : Chunk) : (s.takeChunk c).ihDepth = s.ihDepth := rfl
@[simp] theorem State.takeChunk_ihCtype (s : State) (c : Chunk) : (s.takeChunk c).ihCtype = s.ihCtype := rfl
@[simp] theorem State.takeChunk_ihComp (s : State) (c : Chunk) : (s.takeChunk c).ihComp = s.ihComp := rfl
@[simp] theorem State.takeChunk_ihFilt (s : State) (c : Chunk) : (s.takeChunk c).ihFilt = s.ihFilt := rfl
@[simp] theorem State.takeChunk_ihIlace (s : State) (c : Chunk) : (s.takeChunk c).ihIlace = s.ihIlace := rfl
@[simp] theorem State.takeChunk_ibuf (s : State) (c : Chunk) : (s.takeChunk c).ibuf = s.ibuf := rfl
@[simp] theorem State.takeChunk_obuf (s : State) (c : Chunk) : (s.takeChunk c).obuf = s.obuf := rfl
@[simp] theorem State.takeChunk_ibufDraw (s : State) (c : Chunk) : (s.takeChunk c).ibufDraw = s.ibufDraw := rfl
@[simp] theorem State.takeChunk_obufDraw (s : State) (c : Chunk) : (s.takeChunk c).obufDraw = s.obufDraw := rfl
@[simp] theorem State.takeChunk_pending (s : State) (c : Chunk) : (s.takeChunk c).pending = s.pending := rfl
@[simp] theorem State.takeChunk_replies (s : State) (c : Chunk) : (s.takeChunk c).replies = s.replies := rfl

/-! ## `endOfStream` -/

@[simp] theorem State.endOfStream_status (s : State) : s.endOfStream.status = s.status.atEnd := rfl
@[simp] theorem State.endOfStream_errInfo (s : State) : s.endOfStream.errInfo = s.errInfo := rfl
@[simp] theorem State.endOfStream_ilen (s : State) : s.endOfStream.ilen = s.ilen := rfl
@[simp] theorem State.endOfStream_olen (s : State) : s.endOfStream.olen = s.olen := rfl
@[simp] theorem State.endOfStream_srcOff (s : State) : s.endOfStream.srcOff = s.srcOff := rfl
@[simp] theorem State.endOfStream_srcLen (s : State) : s.endOfStream.srcLen = s.srcLen := rfl
@[simp] theorem State.endOfStream_ibufSize (s : State) : s.endOfStream.ibufSize = s.ibufSize := rfl
@[simp] theorem State.endOfStream_obufSize (s : State) : s.endOfStream.obufSize = s.obufSize := rfl
@[simp] theorem State.endOfStream_crcR (s : State) : s.endOfStream.crcR = s.crcR := rfl
@[simp] theorem State.endOfStream_pPos (s : State) : s.endOfStream.pPos = s.pPos := rfl
@[simp] theorem State.endOfStream_chLen (s : State) : s.endOfStream.chLen = s.chLen := rfl
@[simp] theorem State.endOfStream_chTag (s : State) : s.endOfStream.chTag = s.chTag := rfl
@[simp] theorem State.endOfStream_chDoff (s : State) : s.endOfStream.chDoff = s.chDoff := rfl
@[simp] theorem State.endOfStream_chCrc (s : State) : s.endOfStream.chCrc = s.chCrc := rfl
@[simp] theorem State.endOfStream_chCalc (s : State) : s.endOfStream.chCalc = s.chCalc := rfl
@[simp] theorem State.endOfStream_ihWidth (s : State) : s.endOfStream.ihWidth = s.ihWidth := rfl
@[simp] theorem State.endOfStream_ihHeight (s : State) : s.endOfStream.ihHeight = s.ihHeight := rfl
@[simp] theorem State.endOfStream_ihDepth (s : State) : s.endOfStream.ihDepth = s.ihDepth := rfl
@[simp] theorem State.endOfStream_ihCtype (s : State) : s.endOfStream.ihCtype = s.ihCtype := rfl
@[simp] theorem State.endOfStream_ihComp (s : State) : s.endOfStream.ihComp = s.ihComp := rfl
@[simp] theorem State.endOfStream_ihFilt (s : State) : s.endOfStream.ihFilt = s.ihFilt := rfl
@[simp] theorem State.endOfStream_ihIlace (s : State) : s.endOfStream.ihIlace = s.ihIlace := rfl
@[simp] theorem State.endOfStream_ibuf (s : State) : s.endOfStream.ibuf = s.ibuf := rfl
@[simp] theorem State.endOfStream_obuf (s : State) : s.endOfStream.obuf = s.obuf := rfl
@[simp] theorem State.endOfStream_ibufDraw (s : State) : s.endOfStream.ibufDraw = s.ibufDraw := rfl
@[simp] theorem State.endOfStream_obufDraw (s : State) : s.endOfStream.obufDraw = s.obufDraw := rfl
@[simp] theorem State.endOfStream_pending (s : State) : s.endOfStream.pending = s.pending := rfl
@[simp] theorem State.endOfStream_replies (s : State) : s.endOfStream.replies = s.replies := rfl

/-! ## `loadIhdr` -/

@[simp] theorem State.loadIhdr_status (s : State) (h : IhdrBody) : (s.loadIhdr h).status = { s.status with ihValid := true } := rfl
@[simp] theorem State.loadIhdr_errInfo (s : State) (h : IhdrBody) : (s.loadIhdr h).errInfo = s.errInfo := rfl
@[simp] theorem State.loadIhdr_ilen (s : State) (h : IhdrBody) : (s.loadIhdr h).ilen = s.ilen := rfl
@[simp] theorem State.loadIhdr_olen (s : State) (h : IhdrBody) : (s.loadIhdr h).olen = s.olen := rfl
@[simp] theorem State.loadIhdr_srcOff (s : State) (h : IhdrBody) : (s.loadIhdr h).srcOff = s.srcOff := rfl
@[simp] theorem State.loadIhdr_srcLen (s : State) (h : IhdrBody) : (s.loadIhdr h).srcLen = s.srcLen := rfl
@[simp] theorem State.loadIhdr_ibufSize (s : State) (h : IhdrBody) : (s.loadIhdr h).ibufSize = s.ibufSize := rfl
@[simp] theorem State.loadIhdr_obufSize (s : State) (h : IhdrBody) : (s.loadIhdr h).obufSize = s.obufSize := rfl
@[simp] theorem State.loadIhdr_crcR (s : State) (h : IhdrBody) : (s.loadIhdr h).crcR = s.crcR := rfl
@[simp] theorem State.loadIhdr_pPos (s : State) (h : IhdrBody) : (s.loadIhdr h).pPos = s.pPos := rfl
@[simp] theorem State.loadIhdr_chLen (s : State) (h : IhdrBody) : (s.loadIhdr h).chLen = s.chLen := rfl
@[simp] theorem State.loadIhdr_chTag (s : State) (h : IhdrBody) : (s.loadIhdr h).chTag = s.chTag := rfl
@[simp] theorem State.loadIhdr_chDoff (s : State) (h : IhdrBody) : (s.loadIhdr h).chDoff = s.chDoff := rfl
@[simp] theorem State.loadIhdr_chCrc (s : State) (h : IhdrBody) : (s.loadIhdr h).chCrc = s.chCrc := rfl
@[simp] theorem State.loadIhdr_chCalc (s : State) (h : IhdrBody) : (s.loadIhdr h).chCalc = s.chCalc := rfl
@[simp] theorem State.loadIhdr_ihWidth (s : State) (h : IhdrBody) : (s.loadIhdr h).ihWidth = h.width := rfl
@[simp] theorem State.loadIhdr_ihHeight (s : State) (h : IhdrBody) : (s.loadIhdr h).ihHeight = h.height := rfl
@[simp] theorem State.loadIhdr_ihDepth (s : State) (h : IhdrBody) : (s.loadIhdr h).ihDepth = h.depth.setWidth 32 := rfl
@[simp] theorem State.loadIhdr_ihCtype (s : State) (h : IhdrBody) : (s.loadIhdr h).ihCtype = h.colorType.setWidth 32 := rfl
@[simp] theorem State.loadIhdr_ihComp (s : State) (h : IhdrBody) : (s.loadIhdr h).ihComp = h.compr.setWidth 32 := rfl
@[simp] theorem State.loadIhdr_ihFilt (s : State) (h : IhdrBody) : (s.loadIhdr h).ihFilt = h.filter.setWidth 32 := rfl
@[simp] theorem State.loadIhdr_ihIlace (s : State) (h : IhdrBody) : (s.loadIhdr h).ihIlace = h.interlace.setWidth 32 := rfl
@[simp] theorem State.loadIhdr_ibuf (s : State) (h : IhdrBody) : (s.loadIhdr h).ibuf = s.ibuf := rfl
@[simp] theorem State.loadIhdr_obuf (s : State) (h : IhdrBody) : (s.loadIhdr h).obuf = s.obuf := rfl
@[simp] theorem State.loadIhdr_ibufDraw (s : State) (h : IhdrBody) : (s.loadIhdr h).ibufDraw = s.ibufDraw := rfl
@[simp] theorem State.loadIhdr_obufDraw (s : State) (h : IhdrBody) : (s.loadIhdr h).obufDraw = s.obufDraw := rfl
@[simp] theorem State.loadIhdr_pending (s : State) (h : IhdrBody) : (s.loadIhdr h).pending = s.pending := rfl
@[simp] theorem State.loadIhdr_replies (s : State) (h : IhdrBody) : (s.loadIhdr h).replies = s.replies := rfl

/-! ## `foldCrc` -/

@[simp] theorem State.foldCrc_status (s : State) (c : Word) (bs : List Byte) : (s.foldCrc c bs).status = s.status := rfl
@[simp] theorem State.foldCrc_errInfo (s : State) (c : Word) (bs : List Byte) : (s.foldCrc c bs).errInfo = s.errInfo := rfl
@[simp] theorem State.foldCrc_ilen (s : State) (c : Word) (bs : List Byte) : (s.foldCrc c bs).ilen = s.ilen := rfl
@[simp] theorem State.foldCrc_olen (s : State) (c : Word) (bs : List Byte) : (s.foldCrc c bs).olen = s.olen := rfl
@[simp] theorem State.foldCrc_srcOff (s : State) (c : Word) (bs : List Byte) : (s.foldCrc c bs).srcOff = s.srcOff := rfl
@[simp] theorem State.foldCrc_srcLen (s : State) (c : Word) (bs : List Byte) : (s.foldCrc c bs).srcLen = s.srcLen := rfl
@[simp] theorem State.foldCrc_ibufSize (s : State) (c : Word) (bs : List Byte) : (s.foldCrc c bs).ibufSize = s.ibufSize := rfl
@[simp] theorem State.foldCrc_obufSize (s : State) (c : Word) (bs : List Byte) : (s.foldCrc c bs).obufSize = s.obufSize := rfl
@[simp] theorem State.foldCrc_crcR (s : State) (c : Word) (bs : List Byte) : (s.foldCrc c bs).crcR = crcFold c bs := rfl
@[simp] theorem State.foldCrc_pPos (s : State) (c : Word) (bs : List Byte) : (s.foldCrc c bs).pPos = s.pPos := rfl
@[simp] theorem State.foldCrc_chLen (s : State) (c : Word) (bs : List Byte) : (s.foldCrc c bs).chLen = s.chLen := rfl
@[simp] theorem State.foldCrc_chTag (s : State) (c : Word) (bs : List Byte) : (s.foldCrc c bs).chTag = s.chTag := rfl
@[simp] theorem State.foldCrc_chDoff (s : State) (c : Word) (bs : List Byte) : (s.foldCrc c bs).chDoff = s.chDoff := rfl
@[simp] theorem State.foldCrc_chCrc (s : State) (c : Word) (bs : List Byte) : (s.foldCrc c bs).chCrc = s.chCrc := rfl
@[simp] theorem State.foldCrc_chCalc (s : State) (c : Word) (bs : List Byte) : (s.foldCrc c bs).chCalc = s.chCalc := rfl
@[simp] theorem State.foldCrc_ihWidth (s : State) (c : Word) (bs : List Byte) : (s.foldCrc c bs).ihWidth = s.ihWidth := rfl
@[simp] theorem State.foldCrc_ihHeight (s : State) (c : Word) (bs : List Byte) : (s.foldCrc c bs).ihHeight = s.ihHeight := rfl
@[simp] theorem State.foldCrc_ihDepth (s : State) (c : Word) (bs : List Byte) : (s.foldCrc c bs).ihDepth = s.ihDepth := rfl
@[simp] theorem State.foldCrc_ihCtype (s : State) (c : Word) (bs : List Byte) : (s.foldCrc c bs).ihCtype = s.ihCtype := rfl
@[simp] theorem State.foldCrc_ihComp (s : State) (c : Word) (bs : List Byte) : (s.foldCrc c bs).ihComp = s.ihComp := rfl
@[simp] theorem State.foldCrc_ihFilt (s : State) (c : Word) (bs : List Byte) : (s.foldCrc c bs).ihFilt = s.ihFilt := rfl
@[simp] theorem State.foldCrc_ihIlace (s : State) (c : Word) (bs : List Byte) : (s.foldCrc c bs).ihIlace = s.ihIlace := rfl
@[simp] theorem State.foldCrc_ibuf (s : State) (c : Word) (bs : List Byte) : (s.foldCrc c bs).ibuf = s.ibuf := rfl
@[simp] theorem State.foldCrc_obuf (s : State) (c : Word) (bs : List Byte) : (s.foldCrc c bs).obuf = s.obuf := rfl
@[simp] theorem State.foldCrc_ibufDraw (s : State) (c : Word) (bs : List Byte) : (s.foldCrc c bs).ibufDraw = s.ibufDraw := rfl
@[simp] theorem State.foldCrc_obufDraw (s : State) (c : Word) (bs : List Byte) : (s.foldCrc c bs).obufDraw = s.obufDraw := rfl
@[simp] theorem State.foldCrc_pending (s : State) (c : Word) (bs : List Byte) : (s.foldCrc c bs).pending = s.pending := rfl
@[simp] theorem State.foldCrc_replies (s : State) (c : Word) (bs : List Byte) : (s.foldCrc c bs).replies = s.replies := rfl

/-! ## `scrambleOutput` -/

@[simp] theorem State.scrambleOutput_status (s : State) : s.scrambleOutput.status = s.status := rfl
@[simp] theorem State.scrambleOutput_errInfo (s : State) : s.scrambleOutput.errInfo = s.errInfo := rfl
@[simp] theorem State.scrambleOutput_ilen (s : State) : s.scrambleOutput.ilen = s.ilen := rfl
@[simp] theorem State.scrambleOutput_olen (s : State) : s.scrambleOutput.olen = Config.freeOlen (s.obufDraw + 1) := rfl
@[simp] theorem State.scrambleOutput_srcOff (s : State) : s.scrambleOutput.srcOff = s.srcOff := rfl
@[simp] theorem State.scrambleOutput_srcLen (s : State) : s.scrambleOutput.srcLen = s.srcLen := rfl
@[simp] theorem State.scrambleOutput_ibufSize (s : State) : s.scrambleOutput.ibufSize = s.ibufSize := rfl
@[simp] theorem State.scrambleOutput_obufSize (s : State) : s.scrambleOutput.obufSize = s.obufSize := rfl
@[simp] theorem State.scrambleOutput_crcR (s : State) : s.scrambleOutput.crcR = s.crcR := rfl
@[simp] theorem State.scrambleOutput_pPos (s : State) : s.scrambleOutput.pPos = s.pPos := rfl
@[simp] theorem State.scrambleOutput_chLen (s : State) : s.scrambleOutput.chLen = s.chLen := rfl
@[simp] theorem State.scrambleOutput_chTag (s : State) : s.scrambleOutput.chTag = s.chTag := rfl
@[simp] theorem State.scrambleOutput_chDoff (s : State) : s.scrambleOutput.chDoff = s.chDoff := rfl
@[simp] theorem State.scrambleOutput_chCrc (s : State) : s.scrambleOutput.chCrc = s.chCrc := rfl
@[simp] theorem State.scrambleOutput_chCalc (s : State) : s.scrambleOutput.chCalc = s.chCalc := rfl
@[simp] theorem State.scrambleOutput_ihWidth (s : State) : s.scrambleOutput.ihWidth = s.ihWidth := rfl
@[simp] theorem State.scrambleOutput_ihHeight (s : State) : s.scrambleOutput.ihHeight = s.ihHeight := rfl
@[simp] theorem State.scrambleOutput_ihDepth (s : State) : s.scrambleOutput.ihDepth = s.ihDepth := rfl
@[simp] theorem State.scrambleOutput_ihCtype (s : State) : s.scrambleOutput.ihCtype = s.ihCtype := rfl
@[simp] theorem State.scrambleOutput_ihComp (s : State) : s.scrambleOutput.ihComp = s.ihComp := rfl
@[simp] theorem State.scrambleOutput_ihFilt (s : State) : s.scrambleOutput.ihFilt = s.ihFilt := rfl
@[simp] theorem State.scrambleOutput_ihIlace (s : State) : s.scrambleOutput.ihIlace = s.ihIlace := rfl
@[simp] theorem State.scrambleOutput_ibuf (s : State) : s.scrambleOutput.ibuf = s.ibuf := rfl
@[simp] theorem State.scrambleOutput_obuf (s : State) : s.scrambleOutput.obuf = [] := rfl
@[simp] theorem State.scrambleOutput_ibufDraw (s : State) : s.scrambleOutput.ibufDraw = s.ibufDraw := rfl
@[simp] theorem State.scrambleOutput_obufDraw (s : State) : s.scrambleOutput.obufDraw = s.obufDraw + 1 := rfl
@[simp] theorem State.scrambleOutput_pending (s : State) : s.scrambleOutput.pending = s.pending := rfl
@[simp] theorem State.scrambleOutput_replies (s : State) : s.scrambleOutput.replies = s.replies := rfl

/-! ## `writeIlen` -/

@[simp] theorem State.writeIlen_status (s : State) (v : Word) : (s.writeIlen v).status = s.status.closed := rfl
@[simp] theorem State.writeIlen_errInfo (s : State) (v : Word) : (s.writeIlen v).errInfo = s.errInfo := rfl
@[simp] theorem State.writeIlen_ilen (s : State) (v : Word) : (s.writeIlen v).ilen = v := rfl
@[simp] theorem State.writeIlen_olen (s : State) (v : Word) : (s.writeIlen v).olen = s.olen := rfl
@[simp] theorem State.writeIlen_srcOff (s : State) (v : Word) : (s.writeIlen v).srcOff = s.srcOff := rfl
@[simp] theorem State.writeIlen_srcLen (s : State) (v : Word) : (s.writeIlen v).srcLen = s.srcLen := rfl
@[simp] theorem State.writeIlen_ibufSize (s : State) (v : Word) : (s.writeIlen v).ibufSize = s.ibufSize := rfl
@[simp] theorem State.writeIlen_obufSize (s : State) (v : Word) : (s.writeIlen v).obufSize = s.obufSize := rfl
@[simp] theorem State.writeIlen_crcR (s : State) (v : Word) : (s.writeIlen v).crcR = s.crcR := rfl
@[simp] theorem State.writeIlen_pPos (s : State) (v : Word) : (s.writeIlen v).pPos = 0 := rfl
@[simp] theorem State.writeIlen_chLen (s : State) (v : Word) : (s.writeIlen v).chLen = s.chLen := rfl
@[simp] theorem State.writeIlen_chTag (s : State) (v : Word) : (s.writeIlen v).chTag = s.chTag := rfl
@[simp] theorem State.writeIlen_chDoff (s : State) (v : Word) : (s.writeIlen v).chDoff = s.chDoff := rfl
@[simp] theorem State.writeIlen_chCrc (s : State) (v : Word) : (s.writeIlen v).chCrc = s.chCrc := rfl
@[simp] theorem State.writeIlen_chCalc (s : State) (v : Word) : (s.writeIlen v).chCalc = s.chCalc := rfl
@[simp] theorem State.writeIlen_ihWidth (s : State) (v : Word) : (s.writeIlen v).ihWidth = s.ihWidth := rfl
@[simp] theorem State.writeIlen_ihHeight (s : State) (v : Word) : (s.writeIlen v).ihHeight = s.ihHeight := rfl
@[simp] theorem State.writeIlen_ihDepth (s : State) (v : Word) : (s.writeIlen v).ihDepth = s.ihDepth := rfl
@[simp] theorem State.writeIlen_ihCtype (s : State) (v : Word) : (s.writeIlen v).ihCtype = s.ihCtype := rfl
@[simp] theorem State.writeIlen_ihComp (s : State) (v : Word) : (s.writeIlen v).ihComp = s.ihComp := rfl
@[simp] theorem State.writeIlen_ihFilt (s : State) (v : Word) : (s.writeIlen v).ihFilt = s.ihFilt := rfl
@[simp] theorem State.writeIlen_ihIlace (s : State) (v : Word) : (s.writeIlen v).ihIlace = s.ihIlace := rfl
@[simp] theorem State.writeIlen_ibuf (s : State) (v : Word) : (s.writeIlen v).ibuf = s.ibuf := rfl
@[simp] theorem State.writeIlen_obuf (s : State) (v : Word) : (s.writeIlen v).obuf = s.obuf := rfl
@[simp] theorem State.writeIlen_ibufDraw (s : State) (v : Word) : (s.writeIlen v).ibufDraw = s.ibufDraw := rfl
@[simp] theorem State.writeIlen_obufDraw (s : State) (v : Word) : (s.writeIlen v).obufDraw = s.obufDraw := rfl
@[simp] theorem State.writeIlen_pending (s : State) (v : Word) : (s.writeIlen v).pending = s.pending := rfl
@[simp] theorem State.writeIlen_replies (s : State) (v : Word) : (s.writeIlen v).replies = s.replies := rfl

/-! ## `writeIbuf` -/

@[simp] theorem State.writeIbuf_status (s : State) (a : Nat) (b : Byte) : (s.writeIbuf a b).status = s.status.closed := rfl
@[simp] theorem State.writeIbuf_errInfo (s : State) (a : Nat) (b : Byte) : (s.writeIbuf a b).errInfo = s.errInfo := rfl
@[simp] theorem State.writeIbuf_ilen (s : State) (a : Nat) (b : Byte) : (s.writeIbuf a b).ilen = s.ilen := rfl
@[simp] theorem State.writeIbuf_olen (s : State) (a : Nat) (b : Byte) : (s.writeIbuf a b).olen = s.olen := rfl
@[simp] theorem State.writeIbuf_srcOff (s : State) (a : Nat) (b : Byte) : (s.writeIbuf a b).srcOff = s.srcOff := rfl
@[simp] theorem State.writeIbuf_srcLen (s : State) (a : Nat) (b : Byte) : (s.writeIbuf a b).srcLen = s.srcLen := rfl
@[simp] theorem State.writeIbuf_ibufSize (s : State) (a : Nat) (b : Byte) : (s.writeIbuf a b).ibufSize = s.ibufSize := rfl
@[simp] theorem State.writeIbuf_obufSize (s : State) (a : Nat) (b : Byte) : (s.writeIbuf a b).obufSize = s.obufSize := rfl
@[simp] theorem State.writeIbuf_crcR (s : State) (a : Nat) (b : Byte) : (s.writeIbuf a b).crcR = s.crcR := rfl
@[simp] theorem State.writeIbuf_pPos (s : State) (a : Nat) (b : Byte) : (s.writeIbuf a b).pPos = 0 := rfl
@[simp] theorem State.writeIbuf_chLen (s : State) (a : Nat) (b : Byte) : (s.writeIbuf a b).chLen = s.chLen := rfl
@[simp] theorem State.writeIbuf_chTag (s : State) (a : Nat) (b : Byte) : (s.writeIbuf a b).chTag = s.chTag := rfl
@[simp] theorem State.writeIbuf_chDoff (s : State) (a : Nat) (b : Byte) : (s.writeIbuf a b).chDoff = s.chDoff := rfl
@[simp] theorem State.writeIbuf_chCrc (s : State) (a : Nat) (b : Byte) : (s.writeIbuf a b).chCrc = s.chCrc := rfl
@[simp] theorem State.writeIbuf_chCalc (s : State) (a : Nat) (b : Byte) : (s.writeIbuf a b).chCalc = s.chCalc := rfl
@[simp] theorem State.writeIbuf_ihWidth (s : State) (a : Nat) (b : Byte) : (s.writeIbuf a b).ihWidth = s.ihWidth := rfl
@[simp] theorem State.writeIbuf_ihHeight (s : State) (a : Nat) (b : Byte) : (s.writeIbuf a b).ihHeight = s.ihHeight := rfl
@[simp] theorem State.writeIbuf_ihDepth (s : State) (a : Nat) (b : Byte) : (s.writeIbuf a b).ihDepth = s.ihDepth := rfl
@[simp] theorem State.writeIbuf_ihCtype (s : State) (a : Nat) (b : Byte) : (s.writeIbuf a b).ihCtype = s.ihCtype := rfl
@[simp] theorem State.writeIbuf_ihComp (s : State) (a : Nat) (b : Byte) : (s.writeIbuf a b).ihComp = s.ihComp := rfl
@[simp] theorem State.writeIbuf_ihFilt (s : State) (a : Nat) (b : Byte) : (s.writeIbuf a b).ihFilt = s.ihFilt := rfl
@[simp] theorem State.writeIbuf_ihIlace (s : State) (a : Nat) (b : Byte) : (s.writeIbuf a b).ihIlace = s.ihIlace := rfl
@[simp] theorem State.writeIbuf_ibuf (s : State) (a : Nat) (b : Byte) : (s.writeIbuf a b).ibuf = Memory.write s.ibuf a b := rfl
@[simp] theorem State.writeIbuf_obuf (s : State) (a : Nat) (b : Byte) : (s.writeIbuf a b).obuf = s.obuf := rfl
@[simp] theorem State.writeIbuf_ibufDraw (s : State) (a : Nat) (b : Byte) : (s.writeIbuf a b).ibufDraw = s.ibufDraw := rfl
@[simp] theorem State.writeIbuf_obufDraw (s : State) (a : Nat) (b : Byte) : (s.writeIbuf a b).obufDraw = s.obufDraw := rfl
@[simp] theorem State.writeIbuf_pending (s : State) (a : Nat) (b : Byte) : (s.writeIbuf a b).pending = s.pending := rfl
@[simp] theorem State.writeIbuf_replies (s : State) (a : Nat) (b : Byte) : (s.writeIbuf a b).replies = s.replies := rfl

/-! ## `softReset` -/

@[simp] theorem State.softReset_status (s : State) : s.softReset.status = Status.reset := rfl
@[simp] theorem State.softReset_errInfo (s : State) : s.softReset.errInfo = 0 := rfl
@[simp] theorem State.softReset_ilen (s : State) : s.softReset.ilen = 0 := rfl
@[simp] theorem State.softReset_olen (s : State) : s.softReset.olen = 0 := rfl
@[simp] theorem State.softReset_srcOff (s : State) : s.softReset.srcOff = 0 := rfl
@[simp] theorem State.softReset_srcLen (s : State) : s.softReset.srcLen = 0 := rfl
@[simp] theorem State.softReset_ibufSize (s : State) : s.softReset.ibufSize = s.ibufSize := rfl
@[simp] theorem State.softReset_obufSize (s : State) : s.softReset.obufSize = s.obufSize := rfl
@[simp] theorem State.softReset_crcR (s : State) : s.softReset.crcR = 0xFFFFFFFF := rfl
@[simp] theorem State.softReset_pPos (s : State) : s.softReset.pPos = 0 := rfl
@[simp] theorem State.softReset_chLen (s : State) : s.softReset.chLen = 0 := rfl
@[simp] theorem State.softReset_chTag (s : State) : s.softReset.chTag = 0 := rfl
@[simp] theorem State.softReset_chDoff (s : State) : s.softReset.chDoff = 0 := rfl
@[simp] theorem State.softReset_chCrc (s : State) : s.softReset.chCrc = 0 := rfl
@[simp] theorem State.softReset_chCalc (s : State) : s.softReset.chCalc = 0 := rfl
@[simp] theorem State.softReset_ihWidth (s : State) : s.softReset.ihWidth = 0 := rfl
@[simp] theorem State.softReset_ihHeight (s : State) : s.softReset.ihHeight = 0 := rfl
@[simp] theorem State.softReset_ihDepth (s : State) : s.softReset.ihDepth = 0 := rfl
@[simp] theorem State.softReset_ihCtype (s : State) : s.softReset.ihCtype = 0 := rfl
@[simp] theorem State.softReset_ihComp (s : State) : s.softReset.ihComp = 0 := rfl
@[simp] theorem State.softReset_ihFilt (s : State) : s.softReset.ihFilt = 0 := rfl
@[simp] theorem State.softReset_ihIlace (s : State) : s.softReset.ihIlace = 0 := rfl
@[simp] theorem State.softReset_ibuf (s : State) : s.softReset.ibuf = s.ibuf := rfl
@[simp] theorem State.softReset_obuf (s : State) : s.softReset.obuf = s.obuf := rfl
@[simp] theorem State.softReset_ibufDraw (s : State) : s.softReset.ibufDraw = s.ibufDraw := rfl
@[simp] theorem State.softReset_obufDraw (s : State) : s.softReset.obufDraw = s.obufDraw := rfl
@[simp] theorem State.softReset_pending (s : State) : s.softReset.pending = s.pending := rfl
@[simp] theorem State.softReset_replies (s : State) : s.softReset.replies = s.replies := rfl

/-! ## `hardReset` -/

@[simp] theorem State.hardReset_status (s : State) : s.hardReset.status = Status.reset := rfl
@[simp] theorem State.hardReset_errInfo (s : State) : s.hardReset.errInfo = 0 := rfl
@[simp] theorem State.hardReset_ilen (s : State) : s.hardReset.ilen = 0 := rfl
@[simp] theorem State.hardReset_olen (s : State) : s.hardReset.olen = 0 := rfl
@[simp] theorem State.hardReset_srcOff (s : State) : s.hardReset.srcOff = 0 := rfl
@[simp] theorem State.hardReset_srcLen (s : State) : s.hardReset.srcLen = 0 := rfl
@[simp] theorem State.hardReset_ibufSize (s : State) : s.hardReset.ibufSize = s.ibufSize := rfl
@[simp] theorem State.hardReset_obufSize (s : State) : s.hardReset.obufSize = s.obufSize := rfl
@[simp] theorem State.hardReset_crcR (s : State) : s.hardReset.crcR = 0xFFFFFFFF := rfl
@[simp] theorem State.hardReset_pPos (s : State) : s.hardReset.pPos = 0 := rfl
@[simp] theorem State.hardReset_chLen (s : State) : s.hardReset.chLen = 0 := rfl
@[simp] theorem State.hardReset_chTag (s : State) : s.hardReset.chTag = 0 := rfl
@[simp] theorem State.hardReset_chDoff (s : State) : s.hardReset.chDoff = 0 := rfl
@[simp] theorem State.hardReset_chCrc (s : State) : s.hardReset.chCrc = 0 := rfl
@[simp] theorem State.hardReset_chCalc (s : State) : s.hardReset.chCalc = 0 := rfl
@[simp] theorem State.hardReset_ihWidth (s : State) : s.hardReset.ihWidth = 0 := rfl
@[simp] theorem State.hardReset_ihHeight (s : State) : s.hardReset.ihHeight = 0 := rfl
@[simp] theorem State.hardReset_ihDepth (s : State) : s.hardReset.ihDepth = 0 := rfl
@[simp] theorem State.hardReset_ihCtype (s : State) : s.hardReset.ihCtype = 0 := rfl
@[simp] theorem State.hardReset_ihComp (s : State) : s.hardReset.ihComp = 0 := rfl
@[simp] theorem State.hardReset_ihFilt (s : State) : s.hardReset.ihFilt = 0 := rfl
@[simp] theorem State.hardReset_ihIlace (s : State) : s.hardReset.ihIlace = 0 := rfl
@[simp] theorem State.hardReset_ibuf (s : State) : s.hardReset.ibuf = [] := rfl
@[simp] theorem State.hardReset_obuf (s : State) : s.hardReset.obuf = [] := rfl
@[simp] theorem State.hardReset_ibufDraw (s : State) : s.hardReset.ibufDraw = s.ibufDraw + 1 := rfl
@[simp] theorem State.hardReset_obufDraw (s : State) : s.hardReset.obufDraw = s.obufDraw + 1 := rfl
@[simp] theorem State.hardReset_pending (s : State) : s.hardReset.pending = s.pending := rfl
@[simp] theorem State.hardReset_replies (s : State) : s.hardReset.replies = s.replies := rfl

end Sys2Proof.Machine
end

