-- ==== Sys2Proof/Laws/Ops.lean ====
section
/-! SUPPORT. One lemma per shared operation and per command body: everything it can do. Provers cite these instead of unfolding
the operation. -/

namespace Sys2Proof.Machine

@[simp] theorem Done.complete_ok (s : State) : (Done.ok s).complete = s.completeOk := rfl

@[simp] theorem Done.complete_err (s : State) (e : Code) (info : Nat) :
    (Done.err s e info).complete = s.completeError e info := rfl

/-! ## The bodies -/

/-- Everything `emit` can do (42_packbits.md R164). -/
theorem State.emit_cases (s : State) (bs : List Byte) :
    (s.olen.toNat + bs.length > s.obufSize.toNat ∧
      s.emit bs = .err s.scrambleOutput .overflow (s.olen.toNat + bs.length)) ∨
    (s.olen.toNat + bs.length ≤ s.obufSize.toNat ∧
      s.emit bs = .ok { s with
        obuf := Memory.writeBytes s.obuf s.olen.toNat bs
        olen := BitVec.ofNat 32 (s.olen.toNat + bs.length) }) := by
  unfold State.emit
  split
  · next h => exact .inl ⟨h, rfl⟩
  · next h => exact .inr ⟨by omega, rfl⟩

/-- Everything the body of `CRC_BUF` can do (40_crc32.md R117). -/
theorem crcBufBody_cases (s : State) :
    (s.ilenOver ∧ crcBufBody s = .err s .range 1) ∨
    (¬ s.ilenOver ∧ s.srcOff.toNat + s.srcLen.toNat > s.ilen.toNat ∧ crcBufBody s = .err s .range 2) ∨
    (¬ s.ilenOver ∧ s.srcOff.toNat + s.srcLen.toNat ≤ s.ilen.toNat ∧
      crcBufBody s = .ok (s.foldCrc s.crcR s.srcWindow)) := by
  unfold crcBufBody
  split
  · next h => exact .inl ⟨h, rfl⟩
  · next h =>
    split
    · next h2 => exact .inr (.inl ⟨h, h2, rfl⟩)
    · next h2 => exact .inr (.inr ⟨h, by omega, rfl⟩)

/-- Everything the body of `CRC_SUM` can do (40_crc32.md R118). -/
theorem crcSumBody_cases (s : State) :
    (s.ilenOver ∧ crcSumBody s = .err s .range 1) ∨
    (¬ s.ilenOver ∧ crcSumBody s = .ok (s.foldCrc crcInitVal s.input)) := by
  unfold crcSumBody
  split
  · next h => exact .inl ⟨h, rfl⟩
  · next h => exact .inr ⟨h, rfl⟩

@[simp] theorem State.closeParse_ibufByte (s : State) (a : Nat) : s.closeParse.ibufByte a = s.ibufByte a := rfl

@[simp] theorem State.closeParse_ibufBytes (s : State) (a n : Nat) : s.closeParse.ibufBytes a n = s.ibufBytes a n :=
  State.ibufBytes_congr fun _ _ _ => rfl

/-- Everything the body of `PNG_OPEN` can do (41_png_chunk.md R133): the parse is closed first, whatever follows. -/
theorem pngOpenBody_cases (s : State) :
    (s.ilenOver ∧ pngOpenBody s = .err s.closeParse .range 1) ∨
    (¬ s.ilenOver ∧ (s.ilen.toNat < 8 ∨ s.ibufBytes 0 8 ≠ pngSignature) ∧
      pngOpenBody s = .err s.closeParse .fmtSignature 0) ∨
    (¬ s.ilenOver ∧ 8 ≤ s.ilen.toNat ∧ s.ibufBytes 0 8 = pngSignature ∧
      pngOpenBody s = .ok s.closeParse.openParse) := by
  unfold pngOpenBody
  simp only [State.closeParse_ibufBytes, State.closeParse_ilen]
  split
  · next h => exact .inl ⟨h, rfl⟩
  · next h =>
    split
    · next h2 => exact .inr (.inl ⟨h, .inl h2, rfl⟩)
    · next h2 =>
      split
      · next h3 => exact .inr (.inl ⟨h, .inr h3, rfl⟩)
      · next h3 => exact .inr (.inr ⟨h, by omega, by simpa using h3, rfl⟩)

/-- Everything the body of `PNG_NEXT` can do (41_png_chunk.md R134). -/
theorem pngNextBody_cases (s : State) :
    (s.status.pOpen = false ∧ pngNextBody s = .err s .sequence 0x21) ∨
    (s.status.pOpen = true ∧ s.pPos.toNat = s.ilen.toNat ∧ pngNextBody s = .ok s.endOfStream) ∨
    (s.status.pOpen = true ∧ s.pPos.toNat ≠ s.ilen.toNat ∧
      (s.ilen.toNat < s.pPos.toNat + 12 ∨ s.ilen.toNat < s.pPos.toNat + 12 + (s.ibufWord s.pPos.toNat).toNat) ∧
      pngNextBody s = .err s .fmtTruncated s.pPos.toNat) ∨
    (s.status.pOpen = true ∧ s.pPos.toNat + 12 + (s.ibufWord s.pPos.toNat).toNat ≤ s.ilen.toNat ∧
      pngNextBody s = .ok (s.takeChunk (s.chunkAt s.pPos.toNat (s.ibufWord s.pPos.toNat).toNat))) := by
  unfold pngNextBody
  dsimp only
  split
  · next h => exact .inl ⟨h, rfl⟩
  · next h =>
    have h : s.status.pOpen = true := by simpa using h
    split
    · next h2 => exact .inr (.inl ⟨h, h2, rfl⟩)
    · next h2 =>
      split
      · next h3 => exact .inr (.inr (.inl ⟨h, h2, .inl (by omega), rfl⟩))
      · next h3 =>
        split
        · next h4 => exact .inr (.inr (.inl ⟨h, h2, .inr (by omega), rfl⟩))
        · next h4 => exact .inr (.inr (.inr ⟨h, by omega, rfl⟩))

/-- Everything the body of `PNG_IHDR` can do (41_png_chunk.md R135). -/
theorem pngIhdrBody_cases (s : State) :
    ((s.status.chValid = false ∨ s.chTag ≠ tagIhdr) ∧ pngIhdrBody s = .err s .sequence 0x22) ∨
    (s.status.chValid = true ∧ s.chTag = tagIhdr ∧ s.chLen ≠ 13 ∧ pngIhdrBody s = .err s .fmtIhdrLen s.chLen.toNat) ∨
    (s.status.chValid = true ∧ s.chTag = tagIhdr ∧ s.chLen = 13 ∧
      pngIhdrBody s = .ok (s.loadIhdr (s.ihdrAt s.chDoff.toNat))) := by
  unfold pngIhdrBody
  split
  · next h => exact .inl ⟨.inl h, rfl⟩
  · next h =>
    split
    · next h2 => exact .inl ⟨.inr h2, rfl⟩
    · next h2 =>
      split
      · next h3 => exact .inr (.inl ⟨by simpa using h, by simpa using h2, h3, rfl⟩)
      · next h3 => exact .inr (.inr ⟨by simpa using h, by simpa using h2, by simpa using h3, rfl⟩)

/-- Everything the body of `PB_ENCODE` can do (42_packbits.md R164). -/
theorem pbEncodeBody_cases (s : State) :
    (s.ilenOver ∧ pbEncodeBody s = .err s .range 1) ∨
    (¬ s.ilenOver ∧ (pbEncode s.input).length > s.obufSize.toNat ∧
      pbEncodeBody s = .err s.scrambleOutput .overflow (pbEncode s.input).length) ∨
    (¬ s.ilenOver ∧ (pbEncode s.input).length ≤ s.obufSize.toNat ∧
      pbEncodeBody s = .ok { s with
        obuf := Memory.writeBytes s.obuf 0 (pbEncode s.input)
        olen := BitVec.ofNat 32 (pbEncode s.input).length }) := by
  unfold pbEncodeBody
  split
  · next h => exact .inl ⟨h, rfl⟩
  · next h =>
    rcases State.emit_cases { s with olen := 0 } (pbEncode s.input) with ⟨h2, he⟩ | ⟨h2, he⟩
    · refine .inr (.inl ⟨h, by simpa using h2, ?_⟩)
      rw [he]; simp [State.scrambleOutput]
    · refine .inr (.inr ⟨h, by simpa using h2, ?_⟩)
      rw [he]; simp

/-! ## The walk of `PNG_PEEK` -/

/-- A chunk taken moves the parse on by at least 12 bytes and not past `ILEN` (41_png_chunk.md R136). -/
theorem State.takeChunk_pPos_toNat {s : State} (h : s.pPos.toNat + 12 + (s.ibufWord s.pPos.toNat).toNat ≤ s.ilen.toNat) :
    (s.takeChunk (s.chunkAt s.pPos.toNat (s.ibufWord s.pPos.toNat).toNat)).pPos.toNat
      = s.pPos.toNat + 12 + (s.ibufWord s.pPos.toNat).toNat := by
  have hl := s.ilen.isLt
  rw [State.takeChunk_pPos, BitVec.toNat_ofNat]
  simp only [State.chunkAt, State.ibufBytes_length]
  exact Nat.mod_eq_of_lt (by omega)

/-- The walk ends if its bound exceeds the bytes that are left. -/
theorem pngPeekWalk_isSome (fuel : Nat) (s : State) (h : s.ilen.toNat < s.pPos.toNat + fuel) (h0 : 0 < fuel) :
    (pngPeekWalk fuel s).isSome := by
  induction fuel generalizing s with
  | zero => omega
  | succ fuel ih =>
    unfold pngPeekWalk
    rcases pngNextBody_cases s with ⟨_, he⟩ | ⟨_, _, he⟩ | ⟨_, _, _, he⟩ | ⟨_, hb, he⟩ <;> rw [he]
    · rfl
    · simp
    · rfl
    · have hp := State.takeChunk_pPos_toNat hb
      dsimp only
      split
      · rfl
      · split
        · rfl
        · apply ih
          · rw [hp, State.takeChunk_ilen]; omega
          · omega

/-- `PNG_PEEK` always comes to its end (41_png_chunk.md R136). -/
theorem pngPeekBody_isSome (s : State) : (pngPeekBody s).isSome := by
  unfold pngPeekBody
  rcases pngOpenBody_cases s with ⟨_, he⟩ | ⟨_, _, he⟩ | ⟨_, _, _, he⟩ <;> rw [he]
  · rfl
  · rfl
  · exact pngPeekWalk_isSome _ _ (by simp; omega) (by omega)

/-- How the walk of `PNG_PEEK` ends, told by the bodies it runs: a property of the state that every `PNG_NEXT` keeps holds
where the walk ends; and the end is an error of `PNG_NEXT`, the end of the stream, or `PNG_IHDR`. -/
theorem pngPeekWalk_cases {P : State → Prop} (keeps : ∀ s s', P s → pngNextBody s = .ok s' → P s')
    {fuel : Nat} {s : State} {d : Done} (hs : P s) (h : pngPeekWalk fuel s = some d) :
    (∃ u e info, P u ∧ pngNextBody u = .err u e info ∧ d = .err u e info) ∨
    (∃ u u', P u ∧ P u' ∧ pngNextBody u = .ok u' ∧ u'.status.eos = true ∧ d = .err u' .fmtMissingIhdr 0) ∨
    (∃ u u', P u ∧ P u' ∧ pngNextBody u = .ok u' ∧ u'.status.eos = false ∧ u'.chTag = tagIhdr ∧ d = pngIhdrBody u') := by
  induction fuel generalizing s with
  | zero => simp [pngPeekWalk] at h
  | succ fuel ih =>
    unfold pngPeekWalk at h
    split at h
    · next u e info he =>
      have hu : u = s := by
        rcases pngNextBody_cases s with ⟨_, h1⟩ | ⟨_, _, h1⟩ | ⟨_, _, _, h1⟩ | ⟨_, _, h1⟩ <;> rw [h1] at he <;>
          simp only [Done.err.injEq, reduceCtorEq] at he <;> exact he.1.symm
      subst hu
      exact .inl ⟨u, e, info, hs, he, by simpa using h.symm⟩
    · next u he =>
      have hu := keeps s u hs he
      split at h
      · next heos => exact .inr (.inl ⟨s, u, hs, hu, he, heos, by simpa using h.symm⟩)
      · next heos =>
        split at h
        · next htag => exact .inr (.inr ⟨s, u, hs, hu, he, by simpa using heos, htag, by simpa using h.symm⟩)
        · exact ih hu h

/-- Everything `PNG_PEEK` can do (41_png_chunk.md R136), with a property that every `PNG_NEXT` keeps. -/
theorem pngPeekBody_cases {P : State → Prop} {s : State} (opened : P s.closeParse.openParse)
    (keeps : ∀ u u', P u → pngNextBody u = .ok u' → P u') {d : Done} (h : pngPeekBody s = some d) :
    (∃ e info, pngOpenBody s = .err s.closeParse e info ∧ d = .err s.closeParse e info) ∨
    (∃ u e info, P u ∧ pngNextBody u = .err u e info ∧ d = .err u e info) ∨
    (∃ u u', P u ∧ P u' ∧ pngNextBody u = .ok u' ∧ u'.status.eos = true ∧ d = .err u' .fmtMissingIhdr 0) ∨
    (∃ u u', P u ∧ P u' ∧ pngNextBody u = .ok u' ∧ u'.status.eos = false ∧ u'.chTag = tagIhdr ∧ d = pngIhdrBody u') := by
  unfold pngPeekBody at h
  rcases pngOpenBody_cases s with ⟨_, he⟩ | ⟨_, _, he⟩ | ⟨_, _, _, he⟩ <;> rw [he] at h
  · exact .inl ⟨_, _, he, by simpa using h.symm⟩
  · exact .inl ⟨_, _, he, by simpa using h.symm⟩
  · exact .inr (pngPeekWalk_cases keeps opened h)

/-- A byte of `OBUF` after an output written from offset 0. -/
theorem State.obufByte_written {s t : State} {bs : List Byte} (h : t.obuf = Memory.writeBytes s.obuf 0 bs)
    (hd : t.obufDraw = s.obufDraw) (a : Nat) : t.obufByte a = (bs[a]?).getD (s.obufByte a) := by
  unfold State.obufByte
  rw [h, hd, Memory.read_writeBytes]
  split
  · next hin => rw [Nat.sub_zero, List.getElem?_eq_getElem (by omega)]; rfl
  · next hin => rw [List.getElem?_eq_none (by omega)]; rfl

/-! ## The operations of the host -/

/-- Everything a write to a register can do (43_control_and_access.md R183). -/
theorem execRegWrite_cases (n v : Word) (s : State) :
    (n = 0x00 ∧ execRegWrite n v s = issueCommand v s) ∨
    (n = 0x03 ∧ execRegWrite n v s = .next (s.writeIlen v)) ∨
    (n = 0x05 ∧ execRegWrite n v s = .next { s with srcOff := v }) ∨
    (n = 0x06 ∧ execRegWrite n v s = .next { s with srcLen := v }) ∨
    (n ≠ 0x00 ∧ n ≠ 0x03 ∧ n ≠ 0x05 ∧ n ≠ 0x06 ∧ execRegWrite n v s = .next s) := by
  unfold execRegWrite
  cases hr : Reg.ofNum n with
  | none =>
    have hne : ∀ r : Reg, n ≠ r.num := fun r h => by rw [h, Reg.ofNum_num] at hr; cases hr
    exact .inr (.inr (.inr (.inr ⟨hne .cmd, hne .ilen, hne .srcOff, hne .srcLen, rfl⟩)))
  | some r =>
    have hn := Reg.ofNum_eq_some hr
    subst hn
    cases r
    case cmd => exact .inl ⟨rfl, rfl⟩
    case ilen => exact .inr (.inl ⟨rfl, rfl⟩)
    case srcOff => exact .inr (.inr (.inl ⟨rfl, rfl⟩))
    case srcLen => exact .inr (.inr (.inr (.inl ⟨rfl, rfl⟩)))
    all_goals exact .inr (.inr (.inr (.inr ⟨by decide, by decide, by decide, by decide, rfl⟩)))

/-! ## Runs (70_reset_and_hazards.md R236) -/

@[simp] theorem nextState_next (s : State) : nextState (.next s) = some s := rfl

theorem nextState_eq_some {a : Answer} {t : State} : nextState a = some t ↔ a = .next t := by
  cases a <;> simp [nextState]

@[simp] theorem performAll_nil (s : State) : performAll [] s = .next s := rfl

/-- A run goes on from where its first operation leaves the machine. -/
theorem performAll_cons_next {op : HostOp} {s t : State} (h : perform op s = .next t) (ops : List HostOp) :
    performAll (op :: ops) s = performAll ops t := by
  rw [performAll, h]

/-- A run in two parts. -/
theorem performAll_append {before : List HostOp} {s u : State} (h : performAll before s = .next u) (after : List HostOp) :
    performAll (before ++ after) s = performAll after u := by
  induction before generalizing s with
  | nil => cases h; rfl
  | cons op ops ih =>
    rw [performAll] at h
    split at h
    · next v hv => rw [List.cons_append, performAll_cons_next hv, ih h]
    · cases h
    · cases h

@[simp] theorem runWentWrong_nil (s : State) : runWentWrong [] s = false := rfl

/-- A run goes wrong at its first operation or after it. -/
theorem runWentWrong_cons_next {op : HostOp} {s t : State} (h : perform op s = .next t) (ops : List HostOp) :
    runWentWrong (op :: ops) s = (commandFails op s || runWentWrong ops t) := by
  rw [runWentWrong, h]; rfl

/-- When `commandFails` is true of an operation that answers. -/
theorem commandFails_iff {op : HostOp} {s t : State} (h : perform op s = .next t) :
    commandFails op s = true ↔ (∃ w, op = .regWrite Reg.cmd.num w) ∧ t.status.err ≠ .ok := by
  cases op <;> simp [commandFails, h]

end Sys2Proof.Machine
end

