-- ==== Sys2Proof/Laws/Invariant.lean ====
section
/-! SUPPORT. What the shared operations do to the invariant of 10_state.md R44. -/

namespace Sys2Proof.Machine

/-- The invariant does not depend on what it does not speak of. -/
theorem State.Inv.congr {s t : State} (h : s.Inv)
    (hs : t = { s with
        status := { s.status with err := t.status.err, sticky := t.status.sticky }
        errInfo := t.errInfo, olen := t.olen, srcOff := t.srcOff, srcLen := t.srcLen, crcR := t.crcR
        obuf := t.obuf, obufDraw := t.obufDraw, pending := t.pending, replies := t.replies })
    (he : t.status.err ≠ .ok → t.status.sticky = true)
    (hw : Memory.wf t.obuf) (hi : ∀ c ∈ t.obuf, c.1 < t.obufSize.toNat) : t.Inv := by
  have e1 : ∀ a, t.ibufByte a = s.ibufByte a := fun a => by apply State.ibufByte_of_ibuf <;> rw [hs]
  have e2 : ∀ a n, t.ibufBytes a n = s.ibufBytes a n := fun a n => by apply State.ibufBytes_of_ibuf <;> rw [hs]
  have e3 : ∀ a, t.ibufWord a = s.ibufWord a := fun a => by apply State.ibufWord_of_ibuf <;> rw [hs]
  have e4 : ∀ a, t.ihdrAt a = s.ihdrAt a := fun a => by simp only [State.ihdrAt, e1, e3]
  have f1 : t.status.pOpen = s.status.pOpen := by rw [hs]
  have f2 : t.status.eos = s.status.eos := by rw [hs]
  have f3 : t.status.chValid = s.status.chValid := by rw [hs]
  have f4 : t.status.crcOk = s.status.crcOk := by rw [hs]
  have f5 : t.status.ihValid = s.status.ihValid := by rw [hs]
  have f6 : t.ilen = s.ilen := by rw [hs]
  have f7 : t.pPos = s.pPos := by rw [hs]
  have f8 : t.ibufSize = s.ibufSize := by rw [hs]
  have f9 : t.chLen = s.chLen := by rw [hs]
  have g1 : t.chTag = s.chTag := by rw [hs]
  have g2 : t.chDoff = s.chDoff := by rw [hs]
  have g3 : t.chCrc = s.chCrc := by rw [hs]
  have g4 : t.chCalc = s.chCalc := by rw [hs]
  have i1 : t.ihWidth = s.ihWidth := by rw [hs]
  have i2 : t.ihHeight = s.ihHeight := by rw [hs]
  have i3 : t.ihDepth = s.ihDepth := by rw [hs]
  have i4 : t.ihCtype = s.ihCtype := by rw [hs]
  have i5 : t.ihComp = s.ihComp := by rw [hs]
  have i6 : t.ihFilt = s.ihFilt := by rw [hs]
  have i7 : t.ihIlace = s.ihIlace := by rw [hs]
  have j1 : t.ibuf = s.ibuf := by rw [hs]
  obtain ⟨a1, a2, a3, a4, a5, a6, a7, a8, a9, a10, a11, a12, a13, a14, a15, a16⟩ := h
  refine ⟨by rwa [j1], hw, by rwa [j1, f8], hi, by rwa [f3, f1], by rwa [f2, f1], by rwa [f5, f1], by rwa [f3, f2],
      by rwa [f4, f3], ?_, ?_, by rwa [f2, f7, f6], ?_, he, by rwa [f1, f7], by rw [i3, i4, i5, i6, i7]; exact a16⟩
  · rw [f1]; intro ho; obtain ⟨b1, b2, b3, b4⟩ := a10 ho
    exact ⟨by rwa [f6, f8], by rwa [f7], by rwa [f7, f6], by rwa [e2]⟩
  · rw [f3]; intro ho; obtain ⟨b1, b2, b3, b4, b5, b6, b7⟩ := a11 ho
    exact ⟨by rwa [g2], by rwa [g2, f9, f7], by rwa [g1, e3, g2], by rwa [f9, e3, g2], by rwa [g3, e3, g2, f9],
        by rwa [g4, e2, g2, f9], by rwa [f4, g4, g3]⟩
  · rw [f5]; intro ho; obtain ⟨d, b1, b2, b3, b4, b5⟩ := a13 ho
    refine ⟨d, b1, f6 ▸ b2, (e3 _).trans b3, (e3 _).trans b4, ?_⟩
    rw [e4]; obtain ⟨c1, c2, c3, c4, c5, c6, c7⟩ := b5
    exact ⟨by rwa [i1], by rwa [i2], by rwa [i3], by rwa [i4], by rwa [i5], by rwa [i6], by rwa [i7]⟩

/-- Normal completion keeps the invariant (60_exceptions.md R212). -/
theorem State.Inv.completeOk {s : State} (h : s.Inv) : s.completeOk.Inv :=
  State.Inv.congr h rfl (fun h => absurd rfl h) h.obuf_wf h.obuf_inside

/-- Error completion keeps the invariant (60_exceptions.md R212). -/
theorem State.Inv.completeError {s : State} (h : s.Inv) (e i) : (s.completeError e i).Inv :=
  State.Inv.congr h rfl (fun _ => rfl) h.obuf_wf h.obuf_inside

/-- With the parse closed (20_memory.md R62) the invariant holds of any canonical `IBUF` and any `ILEN`. -/
theorem State.Inv.of_closed {s t : State} (h : s.Inv) (ho : t.status = s.status.closed) (hp : t.pPos = 0)
    (w : Memory.wf t.ibuf) (wi : ∀ c ∈ t.ibuf, c.1 < t.ibufSize.toNat) (hob : t.obuf = s.obuf)
    (hos : t.obufSize = s.obufSize)
    (hn : t.ihDepth = s.ihDepth ∧ t.ihCtype = s.ihCtype ∧ t.ihComp = s.ihComp ∧ t.ihFilt = s.ihFilt ∧
      t.ihIlace = s.ihIlace) : t.Inv := by
  obtain ⟨n1, n2, n3, n4, n5⟩ := hn
  refine ⟨w, by rw [hob]; exact h.obuf_wf, wi, by rw [hob, hos]; exact h.obuf_inside, ?_, ?_, ?_, ?_, ?_, ?_, ?_, ?_,
      ?_, ?_, ?_, ?_⟩
  all_goals first | (rw [n1, n2, n3, n4, n5]; exact h.narrow) | skip
  all_goals first | (rw [ho]; simp; done) | skip
  · rw [ho]; exact h.err_sticky
  · intro _; exact hp

/-- Closing the parse keeps the invariant. -/
theorem State.Inv.closeParse {s : State} (h : s.Inv) : s.closeParse.Inv :=
  State.Inv.of_closed h rfl rfl h.ibuf_wf h.ibuf_inside rfl rfl ⟨rfl, rfl, rfl, rfl, rfl⟩

/-- An accepted signature keeps the invariant (41_png_chunk.md R133). -/
theorem State.Inv.openParse {s : State} (h : s.Inv) (hl : ¬ s.ilenOver) (h8 : 8 ≤ s.ilen.toNat)
    (hs : s.ibufBytes 0 8 = pngSignature) : s.closeParse.openParse.Inv := by
  have hc := State.Inv.closeParse h
  refine ⟨hc.ibuf_wf, hc.obuf_wf, hc.ibuf_inside, hc.obuf_inside, by simp, by simp, by simp, by simp, by simp,
      fun _ => ?_, by simp, by simp, by simp, hc.err_sticky, by simp, hc.narrow⟩
  exact ⟨by simpa [State.ilenOver] using hl, by simp, by simpa using h8, hs⟩

/-- A chunk taken, and the end of the stream, keep the invariant (41_png_chunk.md R134). -/
theorem State.Inv.pngNext {s s' : State} (h : s.Inv) (hn : pngNextBody s = .ok s') : s'.Inv := by
  rcases pngNextBody_cases s with ⟨_, e⟩ | ⟨ho, h2, e⟩ | ⟨_, h2, h3, e⟩ | ⟨ho, hb, e⟩ <;> rw [e] at hn <;> cases hn
  · refine ⟨h.ibuf_wf, h.obuf_wf, h.ibuf_inside, h.obuf_inside, by simp, by simpa using ho,
        by simpa using h.ihValid_open, by simp, by simp, fun h' => ?_, by simp, fun _ => BitVec.eq_of_toNat_eq h2,
        fun h' => ?_, h.err_sticky, h.closed_pos, h.narrow⟩
    · have := h.open_parse ho
      exact ⟨this.1, this.2, this.3, this.4⟩
    · obtain ⟨d, b1, b2, b3, b4, b5⟩ := h.decoded_ihdr h'
      exact ⟨d, b1, b2, b3, b4, ⟨b5.1, b5.2, b5.3, b5.4, b5.5, b5.6, b5.7⟩⟩
  · have hp := h.open_parse ho
    have hpos := State.takeChunk_pPos_toNat hb
    have hlt := s.ilen.isLt
    have hw : ∀ (c : Chunk) a, (s.takeChunk c).ibufWord a = s.ibufWord a := fun _ _ => rfl
    have hby : ∀ (c : Chunk) a n, (s.takeChunk c).ibufBytes a n = s.ibufBytes a n := fun _ _ _ => by
      apply State.ibufBytes_of_ibuf <;> rfl
    have hL : (BitVec.ofNat 32 (s.ibufWord s.pPos.toNat).toNat) = s.ibufWord s.pPos.toNat := by simp
    have hD : (BitVec.ofNat 32 (s.pPos.toNat + 8)).toNat = s.pPos.toNat + 8 := by
      rw [BitVec.toNat_ofNat]; exact Nat.mod_eq_of_lt (by omega)
    refine ⟨h.ibuf_wf, h.obuf_wf, h.ibuf_inside, h.obuf_inside, fun _ => ho, h.eos_open, h.ihValid_open, ?_, by simp,
        fun h' => ?_, fun _ => ?_, ?_, fun h' => ?_, h.err_sticky, fun h' => ?_, h.narrow⟩
    · rintro ⟨_, h'⟩
      have : s.status.eos = true := h'
      have := h.eos_pos this
      rw [this] at hb; omega
    · exact ⟨hp.1, by rw [hpos]; have := hp.2; omega, by rw [hpos]; exact hb, by rw [hby]; exact hp.4⟩
    · refine ⟨?_, ?_, ?_, ?_, ?_, ?_, ?_⟩
      · simp only [State.takeChunk_chDoff, hD]; have := hp.2; omega
      · rw [hpos]; simp only [State.takeChunk_chDoff, State.takeChunk_chLen, State.chunkAt, State.ibufBytes_length,
            hD, hL]; omega
      · simp only [State.takeChunk_chDoff, hD, hw]; rfl
      · simp only [State.takeChunk_chDoff, hD, hw, State.takeChunk_chLen, State.chunkAt, State.ibufBytes_length, hL]; rfl
      · simp only [State.takeChunk_chDoff, hD, hw, State.takeChunk_chLen, State.chunkAt, State.ibufBytes_length, hL]; rfl
      · simp only [State.takeChunk_chDoff, hD, hby, State.takeChunk_chLen, State.chunkAt, State.ibufBytes_length, hL,
          State.takeChunk_chCalc, chunkCalc, State.be32Bytes_ibufWord]
        rw [show s.pPos.toNat + 8 - 4 = s.pPos.toNat + 4 by omega,
          show (s.ibufWord s.pPos.toNat).toNat + 4 = 4 + (s.ibufWord s.pPos.toNat).toNat by omega, State.ibufBytes_append]
      · simp [chunkCrcOk, State.takeChunk, Status.withChunk]
    · intro h'
      have : s.status.eos = true := h'
      have := h.eos_pos this
      rw [this] at hb; omega
    · obtain ⟨d, b1, b2, b3, b4, b5⟩ := h.decoded_ihdr h'
      exact ⟨d, b1, b2, b3, b4, ⟨b5.1, b5.2, b5.3, b5.4, b5.5, b5.6, b5.7⟩⟩
    · have : s.status.pOpen = false := h'
      simp_all

/-- `PNG_IHDR` keeps the invariant (41_png_chunk.md R135). -/
theorem State.Inv.pngIhdr {s : State} (h : s.Inv) : (pngIhdrBody s).complete.Inv := by
  rcases pngIhdrBody_cases s with ⟨h', e⟩ | ⟨h', h2, h3, e⟩ | ⟨hv, h2, h3, e⟩ <;> rw [e]
  · exact State.Inv.completeError h _ _
  · exact State.Inv.completeError h _ _
  · have ho := h.chValid_open hv
    have hp := h.open_parse ho
    have hc := h.current_chunk hv
    refine State.Inv.completeOk ⟨h.ibuf_wf, h.obuf_wf, h.ibuf_inside, h.obuf_inside, h.chValid_open, h.eos_open,
        fun _ => ho, h.not_both, h.crcOk_chValid, fun _ => ?_, fun _ => ?_, h.eos_pos, fun _ => ?_, h.err_sticky,
        h.closed_pos, ?_⟩
    · exact ⟨hp.1, hp.2, hp.3, hp.4⟩
    · refine ⟨hc.1, hc.2, hc.3, hc.4, hc.5, ?_, hc.7⟩
      refine hc.6.trans ?_
      congr 1; apply State.ibufBytes_of_ibuf <;> rfl
    · refine ⟨s.chDoff.toNat, hc.1, ?_, ?_, ?_, ⟨rfl, rfl, rfl, rfl, rfl, rfl, rfl⟩⟩
      · have := hc.2; have := hp.3; rw [h3] at *; simp at *; omega
      · exact hc.3.symm.trans h2
      · exact hc.4.symm.trans h3
    · simp only [State.loadIhdr, BitVec.toNat_setWidth]
      refine ⟨?_, ?_, ?_, ?_, ?_⟩ <;> exact Nat.lt_of_le_of_lt (Nat.mod_le _ _) (BitVec.isLt _)

end Sys2Proof.Machine
end

