-- ==== Sys2Proof/Laws/PerInstr.lean ====
section
/-! SUPPORT. The families of LAWS.json: statements made instruction by instruction. -/

namespace Sys2Proof.Laws.Width

/-- How many bytes an instruction's encoding takes: a command word 4 (30_encoding.md R80), and a record what its format
says (30_encoding.md R83 to R87, R90). -/
def bytes : Instr → Nat
  | .pbLit data        => data.length + 1
  | .pbRun _ _         => 2
  | .pngSig            => 8
  | .pngChunk _ data _ => 12 + data.length
  | .pngIhdrBody _     => 13
  | .pngSrgbBody _     => 1
  | .nop | .sreset | .crcInit | .crcByte _ | .crcBuf | .crcSum => 4
  | .pngOpen | .pngNext | .pngIhdr | .pngPeek | .pbEncode => 4

/-- The encoder writes that many bytes. -/
def Statement (i : Instr) : Prop := i.wellFormed = true → (encode i).length = bytes i

theorem nop : Statement .nop := fun _ => rfl
theorem sreset : Statement .sreset := fun _ => rfl
theorem crcInit : Statement .crcInit := fun _ => rfl
theorem crcByte (imm8 : Byte) : Statement (.crcByte imm8) := fun _ => rfl
theorem crcBuf : Statement .crcBuf := fun _ => rfl
theorem crcSum : Statement .crcSum := fun _ => rfl
theorem pngOpen : Statement .pngOpen := fun _ => rfl
theorem pngNext : Statement .pngNext := fun _ => rfl
theorem pngIhdr : Statement .pngIhdr := fun _ => rfl
theorem pngPeek : Statement .pngPeek := fun _ => rfl
theorem pbEncode : Statement .pbEncode := fun _ => rfl
theorem pbLit (data : List Byte) : Statement (.pbLit data) := fun _ => rfl
theorem pbRun (count : Nat) (value : Byte) : Statement (.pbRun count value) := fun _ => rfl
theorem pngSig : Statement .pngSig := fun _ => rfl
theorem pngChunk (tag : Word) (data : List Byte) (crc : Word) : Statement (.pngChunk tag data crc) :=
  fun _ => chunkBytes_length tag data crc
theorem pngIhdrBody (body : IhdrBody) : Statement (.pngIhdrBody body) := fun _ => rfl
theorem pngSrgbBody (intent : Byte) : Statement (.pngSrgbBody intent) := fun _ => rfl

end Sys2Proof.Laws.Width
end

