-- ==== Sys2Proof/Machine/Assembler.lean ====
section
/-! DEFINITION. The text of a program (30_encoding.md R88): one operation per line, `;` starting a comment, numbers in C notation
(log entry 20). -/

namespace Sys2Proof.Machine

/-! ## Words of a line -/

/-- What separates words. -/
def isBlank (c : Char) : Bool := c = ' ' || c = '\t' || c = '\r'

/-- The words of a line; a comma is a word of its own. The first argument is the word being read. -/
def wordsOf : List Char → List Char → List (List Char)
  | cur, []      => if cur.isEmpty then [] else [cur]
  | cur, c :: cs =>
    let before := if cur.isEmpty then [] else [cur]
    if isBlank c then before ++ wordsOf [] cs
    else if c = ',' then before ++ [','] :: wordsOf [] cs
    else wordsOf (cur ++ [c]) cs

/-- A line without its comment. -/
def withoutComment (line : List Char) : List Char := line.takeWhile (· ≠ ';')

/-! ## Numbers in C notation -/

/-- The value of a digit, whatever the base. -/
def digitValue (c : Char) : Option Nat :=
  let n := c.toNat
  if 48 ≤ n ∧ n ≤ 57 then some (n - 48)
  else if 65 ≤ n ∧ n ≤ 70 then some (n - 55)
  else if 97 ≤ n ∧ n ≤ 102 then some (n - 87)
  else none

/-- Digits in a base, after a value read so far. -/
def digitsFrom (base : Nat) : Nat → List Char → Option Nat
  | v, []      => some v
  | v, c :: cs => (digitValue c).bind fun d => if d < base then digitsFrom base (v * base + d) cs else none

/-- A number in C notation: `0x` and hexadecimal digits, `0` and octal digits, or decimal digits. -/
def number : List Char → Option Nat
  | '0' :: 'x' :: c :: cs => digitsFrom 16 0 (c :: cs)
  | '0' :: 'X' :: c :: cs => digitsFrom 16 0 (c :: cs)
  | '0' :: cs             => digitsFrom 8 0 cs
  | c :: cs               => digitsFrom 10 0 (c :: cs)
  | []                    => none

/-- A number that fits a `u32`. -/
def number32 (w : List Char) : Option Word :=
  (number w).bind fun n => if n < 4294967296 then some (BitVec.ofNat 32 n) else none

/-- A number that fits a `u8`. -/
def number8 (w : List Char) : Option Byte :=
  (number w).bind fun n => if n < 256 then some (BitVec.ofNat 8 n) else none

/-! ## Names -/

/-- The ten commands without an immediate, by name (30_encoding.md R88). -/
def commandNames : List (String × Instr) :=
  [("NOP", .nop), ("SRESET", .sreset), ("CRC_INIT", .crcInit), ("CRC_BUF", .crcBuf), ("CRC_SUM", .crcSum),
   ("PNG_OPEN", .pngOpen), ("PNG_NEXT", .pngNext), ("PNG_IHDR", .pngIhdr), ("PNG_PEEK", .pngPeek), ("PB_ENCODE", .pbEncode)]

/-- The registers by name (10_state.md R24). -/
def registerNames : List (String × Reg) :=
  [("CMD", .cmd), ("STATUS", .status), ("ERRINFO", .errInfo), ("ILEN", .ilen), ("OLEN", .olen), ("SRC_OFF", .srcOff),
   ("SRC_LEN", .srcLen), ("IBUF_SIZE", .ibufSize), ("OBUF_SIZE", .obufSize)] ++
  [("CRC_R", .crcR), ("CRC_OUT", .crcOut), ("CRC_POLY", .crcPoly)] ++
  [("P_POS", .pPos), ("CH_LEN", .chLen), ("CH_TAG", .chTag), ("CH_DOFF", .chDoff), ("CH_CRC", .chCrc), ("CH_CALC", .chCalc)] ++
  [("IH_WIDTH", .ihWidth), ("IH_HEIGHT", .ihHeight), ("IH_DEPTH", .ihDepth), ("IH_CTYPE", .ihCtype), ("IH_COMP", .ihComp),
   ("IH_FILT", .ihFilt), ("IH_ILACE", .ihIlace)]

/-- What a word names in a table. -/
def named {α : Type} : List (String × α) → List Char → Option α
  | [], _ => none
  | (name, x) :: rest, w => if name.toList = w then some x else named rest w

/-! ## Lines -/

/-- The line the words stand for (30_encoding.md R88), none where they are no line of the syntax. -/
def lineOf (ws : List (List Char)) : Option Line :=
  match ws with
  | [w] => (named commandNames w).map .command
  | [m, v] =>
    if m = "CRC_BYTE".toList then (number8 v).map fun b => .command (.crcByte b)
    else if m = "CMD".toList then (number32 v).map .cmd
    else if m = "RD".toList then (named registerNames v).map .rd
    else if m = "OB".toList then (number32 v).map .ob
    else none
  | [m, x, comma, v] =>
    if comma ≠ [','] then none
    else if m = "WR".toList then (named registerNames x).bind fun r => (number32 v).map (.wr r)
    else if m = "IB".toList then (number32 x).bind fun a => (number8 v).map (.ib a)
    else none
  | _ => none

/-- One line of text: no line where it holds a comment or nothing; none where it is no line of the syntax. -/
def parseLine (text : List Char) : Option (List Line) :=
  match wordsOf [] (withoutComment text) with
  | [] => some []
  | ws => (lineOf ws).map fun l => [l]

/-- The lines of a text, at line feeds. The first argument is the line being read. -/
def splitLines : List Char → List Char → List (List Char)
  | cur, []      => [cur]
  | cur, c :: cs => if c = '\n' then cur :: splitLines [] cs else splitLines (cur ++ [c]) cs

/-- A program (30_encoding.md R88), none where a line is no line of the syntax. -/
def parseProgram (text : String) : Option (List Line) :=
  ((splitLines [] text.toList).mapM parseLine).map List.flatten

end Sys2Proof.Machine
end

