-- ==== Sys2Proof/Tests/Slice0.lean ====
section
/-! SUPPORT. Tests on small states: well-formedness, the encodings of 30_encoding.md bit by bit, the vectors of
95_test_vectors.md (named V-… below), and for every obligation with hypotheses a witness that meets them. -/

namespace Sys2Proof.Tests

-- One theorem after the other: each kernel evaluation below would otherwise hold a thread.
set_option Elab.async false

open Sys2Proof.Machine

/-! ## Well-formedness: an ill-formed term for each check -/

theorem test_wf_lit_empty : (Instr.pbLit []).wellFormed = false := by decide
theorem test_wf_lit_long : (Instr.pbLit (List.replicate 129 0)).wellFormed = false := by decide +kernel
theorem test_wf_lit_bounds : (Instr.pbLit [7]).wellFormed = true ∧ (Instr.pbLit (List.replicate 128 0)).wellFormed = true := by
  decide +kernel
theorem test_wf_run_short : (Instr.pbRun 2 5).wellFormed = false := by decide
theorem test_wf_run_long : (Instr.pbRun 131 5).wellFormed = false := by decide
theorem test_wf_run_bounds : (Instr.pbRun 3 5).wellFormed = true ∧ (Instr.pbRun 130 5).wellFormed = true := by decide
theorem test_wf_chunk_long (tag crc : Word) (data : List Byte) (h : data.length = 4294967296) :
    (Instr.pngChunk tag data crc).wellFormed = false := by
  simp [Instr.wellFormed, h]
theorem test_wf_chunk_long_exists : ∃ data : List Byte, data.length = 4294967296 :=
  ⟨List.replicate 4294967296 0, List.length_replicate⟩
theorem test_wf_chunk : (Instr.pngChunk 0x49454E44 [] 0xAE426082).wellFormed = true := by decide

/-! ## Decoding: words and bytes written out from 30_encoding.md R81, R83 to R86, R90 -/

theorem test_decode_nop : decodeCommand 0b00000000000000000000000000000000 = .ok .nop := rfl
theorem test_decode_sreset : decodeCommand 0b00000000000000000000000000000001 = .ok .sreset := rfl
theorem test_decode_crcInit : decodeCommand 0b00000000000000000000000000010000 = .ok .crcInit := rfl
theorem test_decode_crcByte : decodeCommand 0b00000000000000001010010100010001 = .ok (.crcByte 0xA5) := rfl
theorem test_decode_crcBuf : decodeCommand 0b00000000000000000000000000010010 = .ok .crcBuf := rfl
theorem test_decode_crcSum : decodeCommand 0b00000000000000000000000000010011 = .ok .crcSum := rfl
theorem test_decode_pngOpen : decodeCommand 0b00000000000000000000000000100000 = .ok .pngOpen := rfl
theorem test_decode_pngNext : decodeCommand 0b00000000000000000000000000100001 = .ok .pngNext := rfl
theorem test_decode_pngIhdr : decodeCommand 0b00000000000000000000000000100010 = .ok .pngIhdr := rfl
theorem test_decode_pngPeek : decodeCommand 0b00000000000000000000000000100011 = .ok .pngPeek := rfl
theorem test_decode_pbEncode : decodeCommand 0b00000000000000000000000000110000 = .ok .pbEncode := rfl
theorem test_decode_pbLit : decode .pbToken [0b00000010, 0x41, 0x42, 0x43, 0x99] = .ok (.pbLit [0x41, 0x42, 0x43], [0x99]) := rfl
theorem test_decode_pbRun : decode .pbToken [0b10000000, 0x41, 0x99] = .ok (.pbRun 3 0x41, [0x99]) := rfl
theorem test_decode_pngSig :
    decode .pngSig [137, 80, 78, 71, 13, 10, 26, 10, 0x99] = .ok (.pngSig, [0x99]) := rfl
theorem test_decode_pngChunk :
    decode .pngChunk [0, 0, 0, 1, 0x73, 0x52, 0x47, 0x42, 0, 0xAE, 0xCE, 0x1C, 0xE9, 0x99] =
      .ok (.pngChunk 0x73524742 [0] 0xAECE1CE9, [0x99]) := rfl
theorem test_decode_pngIhdrBody :
    decode .ihdrBody [1, 2, 3, 4, 5, 6, 7, 8, 9, 10, 11, 12, 13, 0x99] =
      .ok (.pngIhdrBody ⟨0x01020304, 0x05060708, 9, 10, 11, 12, 13⟩, [0x99]) := rfl
theorem test_decode_pngSrgbBody : decode .srgbBody [2, 0x99] = .ok (.pngSrgbBody 2, [0x99]) := rfl

/-- V-X11 and 30_encoding.md R82: the three ways a word is illegal, each by its name. -/
theorem test_decode_illegal :
    decodeCommand 0x00010000 = .error .reservedBits ∧ decodeCommand 0x80000011 = .error .reservedBits ∧
    decodeCommand 0x00000002 = .error .unassignedOpcode ∧ decodeCommand 0x00000110 = .error .strayImmediate :=
  ⟨rfl, rfl, rfl, rfl⟩

theorem test_decode_truncated :
    decode .pbToken [] = .error .truncatedRecord ∧ decode .pbToken [0x01, 0x41] = .error .truncatedRecord ∧
    decode .pbToken [0x80] = .error .truncatedRecord ∧ decode .srgbBody [] = .error .truncatedRecord ∧
    decode .pngChunk [0, 0, 0, 1, 1, 2, 3, 4, 5, 6, 7, 8] = .error .truncatedRecord ∧
    decode .ihdrBody [1, 2, 3, 4, 5, 6, 7, 8, 9, 10, 11, 12] = .error .truncatedRecord ∧
    decode .pngSig [137, 80, 78, 71] = .error .wrongSignature :=
  ⟨rfl, rfl, rfl, rfl, rfl, rfl, rfl⟩

/-- The encodings the other way, written out from the same rules. -/
theorem test_encode :
    encode (.crcByte 0x31) = [0x00, 0x00, 0x31, 0x11] ∧ encode .pngPeek = [0x00, 0x00, 0x00, 0x23] ∧
    encode (.pbLit [0x41, 0x42]) = [0x01, 0x41, 0x42] ∧ encode (.pbRun 130 0x05) = [0xFF, 0x05] ∧
    encode (.pngChunk 0x49454E44 [] 0xAE426082) = [0, 0, 0, 0, 0x49, 0x45, 0x4E, 0x44, 0xAE, 0x42, 0x60, 0x82] := by
  decide

/-- Row words of spec/opcode_table.json as the host numbers them. -/
theorem test_decodeTableWord :
    decodeTableWord 32 0x00003111 = some (.crcByte 0x31) ∧ decodeTableWord 32 0x00010000 = none ∧
    decodeTableWord 64 0x89504E470D0A1A0A = some .pngSig ∧
    decodeTableWord 64 0x0000000149454E44 = some (.pngChunk 0x49454E44 [0] 0) ∧
    decodeTableWord 8 0x01 = some (.pbLit [0, 0]) ∧ decodeTableWord 8 0x80 = some (.pbRun 3 0) := by
  decide +kernel

/-! ## The CRC table (40_crc32.md R120, all 256 values) -/

/-- `T`, transcribed from R120. -/
def tableR120 : List Word :=
  [0x00000000, 0x77073096, 0xEE0E612C, 0x990951BA, 0x076DC419, 0x706AF48F, 0xE963A535, 0x9E6495A3,
   0x0EDB8832, 0x79DCB8A4, 0xE0D5E91E, 0x97D2D988, 0x09B64C2B, 0x7EB17CBD, 0xE7B82D07, 0x90BF1D91,
   0x1DB71064, 0x6AB020F2, 0xF3B97148, 0x84BE41DE, 0x1ADAD47D, 0x6DDDE4EB, 0xF4D4B551, 0x83D385C7,
   0x136C9856, 0x646BA8C0, 0xFD62F97A, 0x8A65C9EC, 0x14015C4F, 0x63066CD9, 0xFA0F3D63, 0x8D080DF5] ++
  [0x3B6E20C8, 0x4C69105E, 0xD56041E4, 0xA2677172, 0x3C03E4D1, 0x4B04D447, 0xD20D85FD, 0xA50AB56B,
   0x35B5A8FA, 0x42B2986C, 0xDBBBC9D6, 0xACBCF940, 0x32D86CE3, 0x45DF5C75, 0xDCD60DCF, 0xABD13D59,
   0x26D930AC, 0x51DE003A, 0xC8D75180, 0xBFD06116, 0x21B4F4B5, 0x56B3C423, 0xCFBA9599, 0xB8BDA50F,
   0x2802B89E, 0x5F058808, 0xC60CD9B2, 0xB10BE924, 0x2F6F7C87, 0x58684C11, 0xC1611DAB, 0xB6662D3D] ++
  [0x76DC4190, 0x01DB7106, 0x98D220BC, 0xEFD5102A, 0x71B18589, 0x06B6B51F, 0x9FBFE4A5, 0xE8B8D433,
   0x7807C9A2, 0x0F00F934, 0x9609A88E, 0xE10E9818, 0x7F6A0DBB, 0x086D3D2D, 0x91646C97, 0xE6635C01,
   0x6B6B51F4, 0x1C6C6162, 0x856530D8, 0xF262004E, 0x6C0695ED, 0x1B01A57B, 0x8208F4C1, 0xF50FC457,
   0x65B0D9C6, 0x12B7E950, 0x8BBEB8EA, 0xFCB9887C, 0x62DD1DDF, 0x15DA2D49, 0x8CD37CF3, 0xFBD44C65] ++
  [0x4DB26158, 0x3AB551CE, 0xA3BC0074, 0xD4BB30E2, 0x4ADFA541, 0x3DD895D7, 0xA4D1C46D, 0xD3D6F4FB,
   0x4369E96A, 0x346ED9FC, 0xAD678846, 0xDA60B8D0, 0x44042D73, 0x33031DE5, 0xAA0A4C5F, 0xDD0D7CC9,
   0x5005713C, 0x270241AA, 0xBE0B1010, 0xC90C2086, 0x5768B525, 0x206F85B3, 0xB966D409, 0xCE61E49F,
   0x5EDEF90E, 0x29D9C998, 0xB0D09822, 0xC7D7A8B4, 0x59B33D17, 0x2EB40D81, 0xB7BD5C3B, 0xC0BA6CAD] ++
  [0xEDB88320, 0x9ABFB3B6, 0x03B6E20C, 0x74B1D29A, 0xEAD54739, 0x9DD277AF, 0x04DB2615, 0x73DC1683,
   0xE3630B12, 0x94643B84, 0x0D6D6A3E, 0x7A6A5AA8, 0xE40ECF0B, 0x9309FF9D, 0x0A00AE27, 0x7D079EB1,
   0xF00F9344, 0x8708A3D2, 0x1E01F268, 0x6906C2FE, 0xF762575D, 0x806567CB, 0x196C3671, 0x6E6B06E7,
   0xFED41B76, 0x89D32BE0, 0x10DA7A5A, 0x67DD4ACC, 0xF9B9DF6F, 0x8EBEEFF9, 0x17B7BE43, 0x60B08ED5] ++
  [0xD6D6A3E8, 0xA1D1937E, 0x38D8C2C4, 0x4FDFF252, 0xD1BB67F1, 0xA6BC5767, 0x3FB506DD, 0x48B2364B,
   0xD80D2BDA, 0xAF0A1B4C, 0x36034AF6, 0x41047A60, 0xDF60EFC3, 0xA867DF55, 0x316E8EEF, 0x4669BE79,
   0xCB61B38C, 0xBC66831A, 0x256FD2A0, 0x5268E236, 0xCC0C7795, 0xBB0B4703, 0x220216B9, 0x5505262F,
   0xC5BA3BBE, 0xB2BD0B28, 0x2BB45A92, 0x5CB36A04, 0xC2D7FFA7, 0xB5D0CF31, 0x2CD99E8B, 0x5BDEAE1D] ++
  [0x9B64C2B0, 0xEC63F226, 0x756AA39C, 0x026D930A, 0x9C0906A9, 0xEB0E363F, 0x72076785, 0x05005713,
   0x95BF4A82, 0xE2B87A14, 0x7BB12BAE, 0x0CB61B38, 0x92D28E9B, 0xE5D5BE0D, 0x7CDCEFB7, 0x0BDBDF21,
   0x86D3D2D4, 0xF1D4E242, 0x68DDB3F8, 0x1FDA836E, 0x81BE16CD, 0xF6B9265B, 0x6FB077E1, 0x18B74777,
   0x88085AE6, 0xFF0F6A70, 0x66063BCA, 0x11010B5C, 0x8F659EFF, 0xF862AE69, 0x616BFFD3, 0x166CCF45] ++
  [0xA00AE278, 0xD70DD2EE, 0x4E048354, 0x3903B3C2, 0xA7672661, 0xD06016F7, 0x4969474D, 0x3E6E77DB,
   0xAED16A4A, 0xD9D65ADC, 0x40DF0B66, 0x37D83BF0, 0xA9BCAE53, 0xDEBB9EC5, 0x47B2CF7F, 0x30B5FFE9,
   0xBDBDF21C, 0xCABAC28A, 0x53B39330, 0x24B4A3A6, 0xBAD03605, 0xCDD70693, 0x54DE5729, 0x23D967BF,
   0xB3667A2E, 0xC4614AB8, 0x5D681B02, 0x2A6F2B94, 0xB40BBE37, 0xC30C8EA1, 0x5A05DF1B, 0x2D02EF8D]

theorem test_crcTable : (List.range 256).map (fun n => crcTable (BitVec.ofNat 8 n)) = tableR120 := by decide +kernel

/-- The `crc_step` values of 95_test_vectors.md 2.1. -/
theorem test_crcStep :
    crcStep 0 0 = 0 ∧ crcStep 0 1 = 0x77073096 ∧ crcStep 0xFFFFFFFF 0 = 0x2DFD1072 ∧
    crcStep 0xFFFFFFFF 0xFF = 0x00FFFFFF ∧ crcStep 0xFFFFFFFF 0x31 = 0x7C231048 := by decide +kernel

/-- V-C5, V-C6, V-C8, V-C11. -/
theorem test_crc32 :
    crc32 [0x61] = 0xE8B7BE43 ∧ crc32 [0x61, 0x62, 0x63] = 0x352441C2 ∧ crc32 [0xFF, 0xFF, 0xFF, 0xFF] = 0xFFFFFFFF ∧
    crc32 [0x73, 0x52, 0x47, 0x42, 0x00] = 0xAECE1CE9 := by decide +kernel

/-! ## Commands, one step each -/

/-- A machine after `LOAD bs`, with small buffers. -/
def loaded (bs : List Byte) (obufSize : Word) : State :=
  { State.reset with
    ibufSize := 64, obufSize := obufSize, ilen := BitVec.ofNat 32 bs.length, ibuf := Memory.writeBytes [] 0 bs }

/-- The same with an open parse at a position. -/
def openAt (bs : List Byte) (pos : Word) : State :=
  let s := loaded bs 16
  { s with status := { s.status with pOpen := true }, pPos := pos }

/-- The same with a current chunk. -/
def chunkAt (bs : List Byte) (pos len tag doff crc sum : Word) : State :=
  let s := openAt bs pos
  { s with
    status := { s.status with chValid := true, crcOk := crc == sum }
    chLen := len, chTag := tag, chDoff := doff, chCrc := crc, chCalc := sum }

/-- The chunk record `IEND` (95_test_vectors.md, P4). -/
def iend : List Byte := [0, 0, 0, 0, 0x49, 0x45, 0x4E, 0x44, 0xAE, 0x42, 0x60, 0x82]

/-- The first 33 bytes of stream S1: the signature and the IHDR chunk. -/
def s1Head : List Byte :=
  [0x89, 0x50, 0x4E, 0x47, 0x0D, 0x0A, 0x1A, 0x0A, 0, 0, 0, 0x0D, 0x49, 0x48, 0x44, 0x52, 0, 0, 0, 1, 0, 0, 0, 1, 8, 6, 0, 0,
   0, 0x1F, 0x15, 0xC4, 0x89]

/-- S1's IHDR chunk, taken. -/
def s1Chunk : State := chunkAt s1Head 33 13 0x49484452 16 0x1F15C489 0x1F15C489

/-- What a test looks at after one instruction: `STATUS`, `ERRINFO`, and one more thing. -/
def look {α : Type} (i : Instr) (s : State) (f : State → α) : Option (Word × Word × α) :=
  (nextState (exec i s)).map fun t => (t.status.toWord, t.errInfo, f t)

/-- V-X1. -/
theorem test_nop : look .nop { State.reset with status := ⟨.fmtSignature, true, false, false, false, false, false⟩ } State.crcR =
    some (0x00000100, 0, 0xFFFFFFFF) := by decide +kernel
/-- V-X2. -/
theorem test_sreset :
    look .sreset { openAt (pngSignature ++ iend) 20 with crcR := 0x340BC6D9 }
      (fun t => (t.crcR, t.ilen, t.pPos, t.ibufByte 1)) = some (0, 0, 0xFFFFFFFF, 0, 0, 0x50) := by decide +kernel
theorem test_crcInit : look .crcInit { State.reset with crcR := 5 } State.crcR = some (0, 0, 0xFFFFFFFF) := by decide +kernel
/-- V-C4. -/
theorem test_crcByte : look (.crcByte 0xFF) State.reset State.crcR = some (0, 0, 0x00FFFFFF) := by decide +kernel
/-- 95_test_vectors.md 2.1: resuming V-C2 with `35`. -/
theorem test_crcBuf :
    look .crcBuf { loaded [0x34, 0x35] 0 with crcR := 0x641C1F5C, srcOff := 1, srcLen := 1 } State.crcR =
      some (0, 0, 0x340AC5E3) := by decide +kernel
/-- V-C27: the sum does not wrap. -/
theorem test_crcBuf_range :
    look .crcBuf { loaded [0x34, 0x35] 0 with srcOff := 0xFFFFFFFF, srcLen := 1 } State.crcR =
      some (0x102, 2, 0xFFFFFFFF) := by decide +kernel
/-- V-C9. -/
theorem test_crcSum : look .crcSum { loaded [0x49, 0x45, 0x4E, 0x44] 0 with crcR := 7 } (State.regRead · 0x11) =
    some (0, 0, 0xAE426082) := by decide +kernel
theorem test_crcSum_range : look .crcSum { loaded [] 0 with ilen := 65 } State.crcR = some (0x102, 1, 0xFFFFFFFF) := by
  decide +kernel
/-- V-P6, first command. -/
theorem test_pngOpen : look .pngOpen (loaded pngSignature 0) State.pPos = some (0x200, 0, 8) := by decide +kernel
/-- V-P4. -/
theorem test_pngOpen_signature :
    look .pngOpen (loaded [0x89, 0x51, 0x4E, 0x47, 0x0D, 0x0A, 0x1A, 0x0A] 0) State.pPos = some (0x110, 0, 0) := by decide +kernel
/-- V-P1, step 1. -/
theorem test_pngNext :
    look .pngNext (openAt s1Head 8) (fun t => (t.chLen, t.chTag, t.chDoff, t.chCrc, t.chCalc, t.pPos)) =
      some (0x1A00, 0, 13, 0x49484452, 16, 0x1F15C489, 0x1F15C489, 33) := by decide +kernel
/-- V-P13: a length field of all ones does not wrap. -/
theorem test_pngNext_truncated :
    look .pngNext (openAt (pngSignature ++ [0xFF, 0xFF, 0xFF, 0xFF, 0x49, 0x48, 0x44, 0x52] ++ List.replicate 8 0) 8) State.pPos =
      some (0x311, 8, 8) := by decide +kernel
/-- V-P1, `PNG_IHDR` after step 1. -/
theorem test_pngIhdr :
    look .pngIhdr s1Chunk (fun t => (t.ihWidth, t.ihHeight, t.ihDepth, t.ihCtype, t.ihIlace, t.pPos)) =
      some (0x3A00, 0, 1, 1, 8, 6, 0, 33) := by decide +kernel
/-- V-P16. -/
theorem test_pngIhdr_sequence : look .pngIhdr State.reset State.ihWidth = some (0x103, 0x22, 0) := by decide +kernel
/-- V-P9, first command. -/
theorem test_pngPeek : look .pngPeek (loaded s1Head 0) (fun t => (t.ihWidth, t.ihCtype, t.pPos)) =
    some (0x3A00, 0, 1, 6, 33) := by decide +kernel
/-- V-P11. -/
theorem test_pngPeek_missing : look .pngPeek (loaded (pngSignature ++ iend) 0) State.pPos = some (0x712, 0, 20) := by
  decide +kernel
/-- V-B9. -/
theorem test_pbEncode : look .pbEncode (loaded [0x41, 0x42, 0x42, 0x42] 4) (fun t => (t.olen, t.obufBytes 0 4)) =
    some (0, 0, 4, [0x00, 0x41, 0x80, 0x42]) := by decide +kernel
/-- 95_test_vectors.md 2.3, the `PB_ENCODE` command with a small `OBUF`. -/
theorem test_pbEncode_overflow : look .pbEncode (loaded [0x41, 0x42, 0x43, 0x44] 4) State.ilen = some (0x104, 5, 4) := by
  decide +kernel

/-- V-B12 and the boundary V-B42 (reading A). -/
theorem test_pbEncode_ref :
    pbEncode [0xAA, 0xAA, 0xAA, 0xBB, 0xBB, 0xCC, 0xCC, 0xCC, 0xCC] = [0x80, 0xAA, 0x01, 0xBB, 0xBB, 0x81, 0xCC] ∧
    (pbEncode ((List.range 127).map (BitVec.ofNat 8) ++ [0xEE, 0xEE, 0xEE])).drop 126 = [0x7D, 0x7E, 0x80, 0xEE] := by
  decide +kernel

/-! ## Records, one step each (log entries 7 to 9; values from 30_encoding.md and the vectors above) -/

theorem test_pbLit : look (.pbLit [0x41, 0x42]) { loaded [] 16 with olen := 3 } (fun t => (t.olen, t.obufBytes 3 3)) =
    some (0, 0, 6, [0x01, 0x41, 0x42]) := by decide +kernel
theorem test_pbRun : look (.pbRun 130 5) (loaded [] 2) (fun t => (t.olen, t.obufBytes 0 2)) = some (0, 0, 2, [0xFF, 0x05]) := by
  decide +kernel
theorem test_pbRun_overflow : look (.pbRun 130 5) (loaded [] 1) State.ilen = some (0x104, 2, 0) := by decide +kernel
theorem test_pngSig : look .pngSig (loaded [] 0) State.pPos = some (0x200, 0, 8) := by decide +kernel
theorem test_pngChunk : look (.pngChunk 0x49454E44 [] 0xAE426082) (openAt [] 8) (fun t => (t.chDoff, t.chCalc, t.pPos)) =
    some (0x1A00, 0, 16, 0xAE426082, 20) := by decide +kernel
/-- V-P2: a mismatch clears `CRC_OK` and is no error. -/
theorem test_pngChunk_mismatch : look (.pngChunk 0x49454E44 [] 0) (openAt [] 8) State.chCrc = some (0xA00, 0, 0) := by
  decide +kernel
theorem test_pngIhdrBody : look (.pngIhdrBody ⟨1, 2, 8, 6, 0, 0, 1⟩) State.reset (fun t => (t.ihWidth, t.ihHeight, t.ihIlace)) =
    some (0x2000, 0, 1, 2, 1) := by decide +kernel
theorem test_pngSrgbBody (s : State) : exec (.pngSrgbBody 3) s = .next s := rfl

/-! ## Accesses -/

/-- V-X3, V-X4, V-X5. -/
theorem test_regRead :
    [0x09, 0x13, 0x26, 0x2F, 0xFFFFFFFF, 0x00].map State.reset.regRead = [0, 0, 0, 0, 0, 0] ∧
    [0x10, 0x11, 0x12].map State.reset.regRead = [0xFFFFFFFF, 0, 0xEDB88320] := by decide +kernel
/-- V-X6. -/
theorem test_regWrite_readonly : nextState (perform (.regWrite 0x10 0) s1Chunk) = some s1Chunk ∧
    nextState (perform (.regWrite 0x01 0xFFFFFFFF) s1Chunk) = some s1Chunk := by decide +kernel
/-- V-X7: invalidation by a write of the same value. -/
theorem test_regWrite_ilen :
    (nextState (perform (.regWrite 0x03 33) s1Chunk)).map (fun t => (t.status.toWord, t.pPos, t.chTag)) =
      some (0, 0, 0x49484452) := by decide +kernel
/-- V-X8 and program P2, line 9. -/
theorem test_ibufWrite :
    nextState (perform (.ibufWrite 64 1) s1Chunk) = some s1Chunk ∧
    (nextState (perform (.ibufWrite 23 0) s1Chunk)).map (fun t => (t.status.toWord, t.pPos, t.ibufByte 23, t.ibufByte 24)) =
      some (0, 0, 0, 8) := by decide +kernel
/-- V-X10. -/
theorem test_obufRead_outside :
    (nextState (perform (.obufRead 16) (loaded [] 16))).map State.replies = some [.obuf 16 0] := by decide +kernel
/-- V-X11. -/
theorem test_illegal : (nextState (perform (.regWrite 0 0x00010000) State.reset)).map
    (fun t => (t.status.toWord, t.errInfo, t.crcR)) = some (0x101, 0x00010000, 0xFFFFFFFF) := by decide +kernel

/-! ## Program text (30_encoding.md R88) -/

/-- R88's own example of an encoding, and a line of each kind. -/
theorem test_parse :
    parseProgram "CRC_BYTE 0x31 ; one byte\n\nWR SRC_OFF, 37\nRD CRC_OUT\nIB 010, 0xFF\nOB 9\nCMD 0x00010000" =
      some [.command (.crcByte 0x31), .wr .srcOff 37, .rd .crcOut, .ib 8 0xFF, .ob 9, .cmd 0x00010000] ∧
    (Line.command (.crcByte 0x31)).op = some (.regWrite 0x00 0x00003111) := by decide +kernel
theorem test_parse_refused :
    parseProgram "CRC_BYTE 256" = none ∧ parseProgram "WR SRC_OFF 37" = none ∧ parseProgram "HALT" = none ∧
    parseProgram "IB 0, 0x1FF" = none := by decide +kernel

/-! ## Witnesses: for each obligation with hypotheses, states and operands that meet them, each clause at a boundary -/

/-- `exec` answers a next state here. -/
def answers (i : Instr) (s : State) : Prop := ∃ t, exec i s = .next t

theorem witness_EncodeThenDecode :
    (Instr.pbLit (List.replicate 128 7)).wellFormed = true ∧ (Instr.pbRun 130 7).wellFormed = true ∧
    (Instr.pngChunk 0x49454E44 [] 0xAE426082).wellFormed = true ∧ Instr.nop.wellFormed = true := by decide +kernel

theorem not_legal {w : Word} {e : DecodeError} (h : decodeCommand w = .error e) : ∀ i, decodeCommand w ≠ .ok i :=
  fun i hi => by rw [h] at hi; cases hi

theorem witness_IllegalWordsExecuteNothing :
    (∀ i, decodeCommand 0x00010000 ≠ .ok i) ∧ (∀ i, decodeCommand 0x000000FF ≠ .ok i) ∧
    (∀ i, decodeCommand 0x00000100 ≠ .ok i) :=
  ⟨not_legal (e := .reservedBits) rfl, not_legal (e := .unassignedOpcode) rfl, not_legal (e := .strayImmediate) rfl⟩

theorem witness_DecodedWordReencodes : decodeCommand 0x0000FF11 = .ok (.crcByte 0xFF) := rfl

theorem witness_StepRunsDecodedCommand :
    State.reset.pending = [] ∧
    { State.reset with pending := [.regRead 1] }.pending = HostOp.regRead 1 :: [] ∧
    { State.reset with pending := [.regWrite 0 0x10, .regRead 1] }.pending = HostOp.regWrite 0x00 0x10 :: [.regRead 1] ∧
    decodeCommand 0x10 = .ok .crcInit := ⟨rfl, rfl, rfl, rfl⟩

theorem witness_EveryCommandCompletes :
    Instr.format .pngPeek = .cw ∧ (∀ w, HostOp.ibufWrite 0 1 ≠ .regWrite 0x00 w) ∧ HostOp.ibufWrite 0 1 ≠ .hardwareReset := by
  exact ⟨rfl, by simp, by simp⟩

/-- `ILEN` one above the capacity; a window one byte too long; a window that ends at `ILEN`. -/
theorem witness_CrcBufFoldsWindow :
    (let s := { loaded [] 0 with ilen := 65 }; s.ilen.toNat > s.ibufSize.toNat) ∧
    (let s := { loaded [1, 2] 0 with srcOff := 1, srcLen := 2 }
     s.ilen.toNat ≤ s.ibufSize.toNat ∧ s.srcOff.toNat + s.srcLen.toNat > s.ilen.toNat) ∧
    (let s := { loaded [1, 2] 0 with srcOff := 1, srcLen := 1 }
     s.ilen.toNat ≤ s.ibufSize.toNat ∧ s.srcOff.toNat + s.srcLen.toNat ≤ s.ilen.toNat) := by decide +kernel

theorem witness_CrcSumFoldsInput :
    (let s := { loaded [] 0 with ilen := 65 }; s.ilen.toNat > s.ibufSize.toNat) ∧
    (let s := { loaded [] 0 with ilen := 64 }; s.ilen.toNat ≤ s.ibufSize.toNat) := by decide +kernel

/-- Too long; seven bytes; eight bytes that are no signature; the signature alone. -/
theorem witness_PngOpenTestsSignature :
    (let s := { loaded [] 0 with ilen := 65 }; s.ilen.toNat > s.ibufSize.toNat) ∧
    (let s := loaded (pngSignature.take 7) 0; s.ilen.toNat ≤ s.ibufSize.toNat ∧ s.ilen.toNat < 8) ∧
    (let s := loaded [137, 80, 78, 71, 13, 10, 26, 11] 0
     s.ilen.toNat ≤ s.ibufSize.toNat ∧ 8 ≤ s.ilen.toNat ∧ s.ibufBytes 0 8 ≠ [137, 80, 78, 71, 13, 10, 26, 10]) ∧
    (let s := loaded pngSignature 0
     s.ilen.toNat ≤ s.ibufSize.toNat ∧ 8 ≤ s.ilen.toNat ∧ s.ibufBytes 0 8 = [137, 80, 78, 71, 13, 10, 26, 10]) := by
  decide +kernel

/-- No parse; at the end; 11 bytes left; 12 left and a length of 1; a chunk that ends at `ILEN`. -/
theorem witness_PngNextYieldsChunk :
    (let s := loaded [] 0; s.status.pOpen = false) ∧
    (let s := openAt pngSignature 8; s.status.pOpen = true ∧ s.pPos.toNat = s.ilen.toNat) ∧
    (let s := openAt (pngSignature ++ iend.take 11) 8
     s.status.pOpen = true ∧ s.pPos.toNat < s.ilen.toNat ∧ s.ilen.toNat - s.pPos.toNat < 12) ∧
    (let s := openAt (pngSignature ++ [0, 0, 0, 1, 2, 2, 2, 2, 3, 3, 3, 3]) 8
     s.status.pOpen = true ∧ s.pPos.toNat + 12 ≤ s.ilen.toNat ∧
     s.pPos.toNat + 12 + (s.ibufWord s.pPos.toNat).toNat > s.ilen.toNat) ∧
    (let s := openAt (pngSignature ++ iend) 8
     s.status.pOpen = true ∧ s.pPos.toNat + 12 + (s.ibufWord s.pPos.toNat).toNat ≤ s.ilen.toNat) := by decide +kernel

theorem witness_PngIhdrDecodesBody :
    (loaded [] 0).status.chValid = false ∧ { s1Chunk with chTag := 0x49444154 }.chTag ≠ 0x49484452 ∧
    (let s := { s1Chunk with chLen := 12 }; s.status.chValid = true ∧ s.chTag = 0x49484452 ∧ s.chLen ≠ 13) ∧
    (let s := s1Chunk; s.status.chValid = true ∧ s.chTag = 0x49484452 ∧ s.chLen = 13) := by decide +kernel

theorem witness_PngPeekIssuesOpenNextIhdr :
    (nextState (exec .pngOpen (loaded [] 0))).map (·.status.err) = some .fmtSignature ∧
    (nextState (exec .pngOpen (loaded s1Head 0))).map (·.status.err) = some .ok := by decide +kernel

/-- Streams for each answer of `peek_ihdr`. -/
theorem witness_PngPeekIsPeekIhdr :
    (loaded s1Head 0).ilen.toNat ≤ (loaded s1Head 0).ibufSize.toNat ∧
    peekIhdr (loaded s1Head 0).input = .ok ⟨1, 1, 8, 6, 0, 0, 0⟩ ∧
    peekIhdr (loaded (pngSignature.take 7) 0).input = .error .signature ∧
    peekIhdr (loaded (pngSignature ++ [0]) 0).input = .error .truncated ∧
    peekIhdr (loaded (pngSignature ++ iend) 0).input = .error .missingIhdr ∧
    peekIhdr (loaded (pngSignature ++ [0, 0, 0, 0, 0x49, 0x48, 0x44, 0x52, 0, 0, 0, 0]) 0).input = .error .ihdrLength := by
  decide +kernel

theorem witness_CommandsAgreeWithPngRead :
    (loaded (pngSignature ++ iend) 0).ilen.toNat ≤ (loaded (pngSignature ++ iend) 0).ibufSize.toNat ∧
    pngRead (loaded (pngSignature ++ iend) 0).input = .ok ([⟨0x49454E44, [], 0xAE426082⟩], .atEnd) ∧
    pngRead (loaded (pngSignature ++ iend ++ [9]) 0).input = .ok ([⟨0x49454E44, [], 0xAE426082⟩], .trunc 20) ∧
    pngRead (loaded [] 0).input = .error .signature := by
  decide +kernel

/-- Too long an input; an output one byte too long; an output that just fits. -/
theorem witness_PbEncodeWritesOutput :
    (let s := { loaded [] 0 with ilen := 65 }; s.ilen.toNat > s.ibufSize.toNat) ∧
    (let s := loaded [1, 2, 3] 3
     s.ilen.toNat ≤ s.ibufSize.toNat ∧ (pbEncode (s.ibufBytes 0 s.ilen.toNat)).length > s.obufSize.toNat) ∧
    (let s := loaded [1, 2, 3] 4
     s.ilen.toNat ≤ s.ibufSize.toNat ∧ (pbEncode (s.ibufBytes 0 s.ilen.toNat)).length ≤ s.obufSize.toNat) := by decide +kernel

theorem witness_TokenEffects :
    (Instr.pbLit [0x41]).wellFormed = true ∧ (Instr.pbRun 3 0x41).wellFormed = true ∧
    (let s := { loaded [] 4 with olen := 3 }; s.olen.toNat + [0x00, 0x41].length > s.obufSize.toNat) ∧
    (let s := { loaded [] 4 with olen := 2 }; s.olen.toNat + [0x80, 0x41].length ≤ s.obufSize.toNat) := by decide +kernel

theorem witness_CommandsRunTheRecordsTheyMeet :
    (let s := loaded (pngSignature ++ [9]) 0
     s.ilen.toNat ≤ s.ibufSize.toNat ∧ decode .pngSig s.input = .ok (.pngSig, [9])) ∧
    (let s := openAt (pngSignature ++ iend) 8
     s.status.pOpen = true ∧ s.pPos.toNat ≤ s.ilen.toNat ∧
     decode .pngChunk (s.ibufBytes s.pPos.toNat (s.ilen.toNat - s.pPos.toNat)) =
       .ok (.pngChunk 0x49454E44 [] 0xAE426082, [])) ∧
    (let s := s1Chunk
     s.status.chValid = true ∧ s.chTag = 0x49484452 ∧ s.chLen = 13 ∧
     decode .ihdrBody (s.ibufBytes s.chDoff.toNat s.chLen.toNat) = .ok (.pngIhdrBody ⟨1, 1, 8, 6, 0, 0, 0⟩, [])) := by
  decide +kernel

theorem witness_PbEncodeRunsItsTokens :
    let s := loaded [1] 2
    0 < s.ilen.toNat ∧ s.ilen.toNat ≤ s.ibufSize.toNat ∧ (pbEncode s.input).length ≤ s.obufSize.toNat := by decide +kernel

theorem witness_CrcGroupFrame : answers .nop State.reset ∧ answers .crcInit State.reset ∧ answers (.crcByte 1) State.reset ∧
    answers .crcBuf (loaded [1] 0) ∧ answers .crcSum (loaded [1] 0) :=
  ⟨⟨_, rfl⟩, ⟨_, rfl⟩, ⟨_, rfl⟩, ⟨_, rfl⟩, ⟨_, rfl⟩⟩

theorem witness_PcpFrame : answers .pngOpen (loaded pngSignature 0) ∧ answers .pngNext (openAt (pngSignature ++ iend) 8) ∧
    answers .pngIhdr s1Chunk ∧ (nextState (exec .pngPeek (loaded s1Head 0))).isSome = true :=
  ⟨⟨_, rfl⟩, ⟨_, rfl⟩, ⟨_, rfl⟩, by decide +kernel⟩

theorem witness_PbEncodeFrame :
    (nextState (exec .pbEncode (loaded [1] 2))).map (·.status.err) = some .ok ∧
    (nextState (exec .pbEncode { loaded [] 2 with ilen := 65 })).map (·.status.err) = some .range := by decide +kernel

theorem witness_CompletionCodes : Instr.format .sreset = .cw ∧ answers .sreset State.reset ∧
    Instr.format .pngNext = .cw ∧ answers .pngNext State.reset :=
  ⟨rfl, ⟨_, rfl⟩, rfl, ⟨_, rfl⟩⟩

/-- Each command of the statement with an error of its own. -/
theorem witness_ErrorsArePrecise :
    (nextState (exec .crcBuf { loaded [] 0 with srcLen := 1 })).map (·.status.err) = some .range ∧
    (nextState (exec .crcSum { loaded [] 0 with ilen := 65 })).map (·.status.err) = some .range ∧
    (nextState (exec .pngNext State.reset)).map (·.status.err) = some .sequence ∧
    (nextState (exec .pngIhdr State.reset)).map (·.status.err) = some .sequence ∧
    (nextState (exec .pbEncode { loaded [] 0 with ilen := 65 })).map (·.status.err) = some .range ∧
    (nextState (exec .pngOpen (loaded [] 0))).map (·.status.err) = some .fmtSignature ∧
    (nextState (exec .pbEncode (loaded [1] 1))).map (·.status.err) = some .overflow := by decide +kernel

/-- `SRESET` and hardware reset are the only resets. -/
theorem test_isReset : HostOp.hardwareReset.isReset ∧ (HostOp.regWrite 0x00 0x00000001).isReset ∧
    ¬ (HostOp.regWrite 0x00 0x00000020).isReset ∧ ¬ (HostOp.regRead 0x01).isReset := by
  simp [HostOp.isReset]

/-- A failing `PNG_NEXT`, then a read of `STATUS`; and what the two resets leave of it (70_reset_and_hazards.md R236). -/
theorem witness_StickyLatches :
    let fails := HostOp.regWrite 0x00 0x00000021
    (nextState (performAll [.regRead 0x07] State.reset)).isSome = true ∧ commandFails fails State.reset = true ∧
    (nextState (performAll [.regRead 0x07, fails, .regRead 0x01] State.reset)).map (·.status.sticky) = some true ∧
    runWentWrong [.regRead 0x07, fails, .regRead 0x01] State.reset = true ∧ State.reset.status.sticky = false ∧
    (∃ t, perform fails State.reset = .next t) := by
  refine ⟨rfl, rfl, rfl, rfl, rfl, ⟨_, rfl⟩⟩
theorem test_wentWrong_after_resets :
    [HostOp.regWrite 0x00 0x00000001, .hardwareReset].map (fun reset =>
      let ops := [.regWrite 0x00 0x00000021, reset]
      (runWentWrong ops State.reset, (nextState (performAll ops State.reset)).map (·.status.sticky))) =
      [(true, some false), (true, some false)] ∧
    runWentWrong [.regWrite 0x00 0x00000010, .regWrite 0x03 65, .regRead 0x01] State.reset = false := by decide +kernel
/-- The results of a run are what the host has read in it, and the final state. -/
theorem test_runResults : (runResults [.regRead 0x12, .regWrite 0x00 0x00000021, .regRead 0x01]
      { State.reset with replies := [.reg 0x10 0] }).map Prod.fst =
    some [.reg 0x12 0xEDB88320, .reg 0x01 0x103] := by decide +kernel

theorem witness_OldCompletionIsNotRead : Instr.format .crcBuf = .cw := rfl

theorem witness_CrcMismatchIsNoError :
    let s := openAt (pngSignature ++ [0, 0, 0, 0, 0x49, 0x45, 0x4E, 0x44, 0, 0, 0, 0]) 8
    s.status.pOpen = true ∧ s.pPos.toNat + 12 + (s.ibufWord s.pPos.toNat).toNat ≤ s.ilen.toNat ∧
    crc32 (s.ibufBytes (s.pPos.toNat + 4) (4 + (s.ibufWord s.pPos.toNat).toNat)) ≠
      s.ibufWord (s.pPos.toNat + 8 + (s.ibufWord s.pPos.toNat).toNat) := by decide +kernel

theorem witness_VerdictIsNotRead : answers .pngIhdr s1Chunk := ⟨_, rfl⟩

theorem witness_RegReadValues : ((0x2E : Word), State.reset.ihIlace) ∈ State.reset.registerTable ∧
    (0x2F : Word) ∉ State.reset.registerTable.map Prod.fst ∧ (0x27 : Word) ∉ State.reset.registerTable.map Prod.fst :=
  ⟨by simp [State.registerTable], by simp [State.registerTable], by simp [State.registerTable]⟩

theorem witness_RegWriteEffects : decodeCommand 0x00000013 = .ok .crcSum ∧ (∀ i, decodeCommand 0x00000014 ≠ .ok i) ∧
    (0x04 : Word) ≠ 0x00 ∧ (0x04 : Word) ≠ 0x03 ∧ (0x04 : Word) ≠ 0x05 ∧ (0x04 : Word) ≠ 0x06 :=
  ⟨rfl, not_legal (e := .unassignedOpcode) rfl, by decide, by decide, by decide, by decide⟩

/-- The first address outside each buffer, and the last inside. -/
theorem witness_IbufWriteEffects :
    (loaded [] 0).ibufSize.toNat ≤ (64 : Word).toNat ∧ (63 : Word).toNat < (loaded [] 0).ibufSize.toNat := by
  decide +kernel
theorem witness_ObufReadValues :
    (15 : Word).toNat < (loaded [] 16).obufSize.toNat ∧ (loaded [] 16).obufSize.toNat ≤ (16 : Word).toNat := by
  decide +kernel

theorem witness_ResetStateValues :
    Reg.errInfo ≠ .ibufSize ∧ Reg.errInfo ≠ .obufSize ∧ Reg.errInfo ≠ .crcR ∧ Reg.errInfo ≠ .crcPoly := by decide

theorem witness_SizesNeverChange : ∃ t, step { s1Chunk with pending := [.hardwareReset] } = .next t := ⟨_, rfl⟩

/-- A state that meets the invariant with an open parse and a current chunk: S1's IHDR chunk, taken. -/
theorem s1Chunk_inv : s1Chunk.Inv where
  ibuf_wf := by decide +kernel
  obuf_wf := by decide +kernel
  ibuf_inside := by decide +kernel
  obuf_inside := by decide +kernel
  chValid_open := by decide +kernel
  eos_open := by decide +kernel
  ihValid_open := by decide +kernel
  not_both := by decide +kernel
  crcOk_chValid := by decide +kernel
  open_parse := fun _ => ⟨by decide +kernel, by decide +kernel, by decide +kernel, by decide +kernel⟩
  current_chunk := fun _ => ⟨by decide +kernel, by decide +kernel, by decide +kernel, by decide +kernel, by decide +kernel,
    by decide +kernel, by decide +kernel⟩
  eos_pos := by decide +kernel
  decoded_ihdr := fun h => absurd h (by decide +kernel)
  err_sticky := by decide +kernel
  closed_pos := by decide +kernel
  narrow := by decide +kernel

theorem witness_StepKeepsInvariant :
    let s := { s1Chunk with pending := [.regWrite 0x00 0x00000022] }
    s.pending ≠ [] ∧ (nextState (step s)).map (·.status.ihValid) = some true := by decide +kernel

theorem witness_StepKeepsInvariant_inv : s1Chunk.Inv ∧ ∃ t, step s1Chunk = .next t := ⟨s1Chunk_inv, ⟨_, rfl⟩⟩

/-- A byte just above `ILEN` differs. -/
theorem witness_CommandsReadOnlyValidInput :
    let t := { s1Chunk with ibuf := Memory.write s1Chunk.ibuf 33 7 }
    Instr.format .pngIhdr = .cw ∧ s1Chunk.Inv ∧ s1Chunk.SameValidInput t ∧ t.ibufByte 33 = 7 ∧ answers .pngIhdr s1Chunk :=
  ⟨rfl, s1Chunk_inv, ⟨rfl, by decide +kernel⟩, by decide +kernel, ⟨_, rfl⟩⟩

theorem witness_RunAndLiteralLengths :
    runStart [5, 5, 5] = true ∧ runStart (List.replicate 131 5) = true ∧ ([5] : List Byte) ≠ [] := by
  decide +kernel

theorem witness_TokensAreWellFormed :
    Token.run 130 5 ∈ pbTokens 131 (List.replicate 131 5) ∧ Token.lit [5] ∈ pbTokens 131 (List.replicate 131 5) := by
  decide +kernel

theorem witness_SourcePropertiesOfEncode :
    3 ≤ 130 ∧ 130 ≤ 130 ∧ 1 ≤ ([1, 1] : List Byte).length ∧ ([1, 1] : List Byte).length ≤ 128 ∧
    ∀ j, runStart (([1, 1] : List Byte).drop j) = false :=
  ⟨by decide, by decide, by decide, by decide, fun j => match j with | 0 => rfl | 1 => rfl | n + 2 => by simp [runStart]⟩

theorem witness_LargeOutputNeverOverflows :
    let s := loaded [1] 65
    s.ibufSize.toNat + s.ibufSize.toNat / 128 + 1 ≤ s.obufSize.toNat ∧ s.ilen.toNat ≤ s.ibufSize.toNat := by decide +kernel

theorem witness_WriteThenRead : ∀ x ∈ ([(0x49444154, [1, 2]), (0x49454E44, [])] : List (Word × List Byte)),
    x.2.length < 4294967296 := by decide

theorem witness_PeekOfWrittenStream : ([1, 2, 3] : List Byte).length < 4294967296 := by decide

/-- 44_pseudo_ops.md R195 and log entry 24: no bytes for data that its length field cannot hold. -/
theorem test_pngWrite_long (tag : Word) (data : List Byte) (h : data.length = 4294967296) : pngWrite [(tag, data)] = none := by
  simp [pngWrite, writable, h]

/-- S1 without its IDAT chunk: a stream `minimize` has bytes for. -/
theorem witness_MinimizeIsIdempotent : ∃ y, minimize (s1Head ++ iend) (some 0) = .bytes y := by
  refine ⟨pngSignature ++ writtenChunks
    [(0x49484452, (s1Head.drop 16).take 13), (0x73524742, [0]), (0x49444154, []), (0x49454E44, [])], ?_⟩
  decide +kernel

/-- 64 bytes fit a capacity of 64; 65 do not. -/
theorem witness_LoadAndCrc32 :
    (List.replicate 64 (1 : Byte)).length ≤ (loaded [] 0).ibufSize.toNat ∧
    (List.replicate 65 (1 : Byte)).length > (loaded [] 0).ibufSize.toNat := by decide +kernel
/-- V-C2's string through a buffer that holds it, and through one that does not (44_pseudo_ops.md R197, R198, R201). -/
theorem test_loadLines : loadLines 1 [7] = some [.ib 0 7, .wr .ilen 1] ∧ loadLines 1 [7, 8] = none ∧
    loadLines 0 [] = some [.wr .ilen 0] ∧ crc32ByBuffer 1 [7, 8] = none ∧ crcLines 0 [7] = none ∧
    (crcLines 4 [0x31, 0x32, 0x33, 0x34, 0x35, 0x36, 0x37, 0x38, 0x39]).bind (fun ls =>
      (nextState (runLines ls { loaded [] 0 with ibufSize := 4 })).map State.replies) =
        some [.reg 0x11 0xCBF43926] := by decide +kernel

theorem witness_ChunkVerifyRecomputes : s1Chunk.Inv ∧ s1Chunk.status.chValid = true := ⟨s1Chunk_inv, rfl⟩
/-- Log entry 25: no lines without a valid chunk. -/
theorem test_chunkVerify_invalid : chunkVerify State.reset = none ∧ (chunkVerify s1Chunk).isSome = true := by decide +kernel

theorem witness_PngReadAllIsPngRead :
    (let s := { loaded [] 0 with ilen := 65 }; s.ilen.toNat > s.ibufSize.toNat) ∧
    (let s := loaded [] 0; s.ilen.toNat ≤ s.ibufSize.toNat ∧ pngRead s.input = .error .signature) ∧
    (let s := loaded (pngSignature ++ iend) 0
     s.ilen.toNat ≤ s.ibufSize.toNat ∧ pngRead s.input = .ok ([⟨0x49454E44, [], 0xAE426082⟩], .atEnd)) ∧
    (let s := loaded (pngSignature ++ iend ++ [9]) 0
     s.ilen.toNat ≤ s.ibufSize.toNat ∧ pngRead s.input = .ok ([⟨0x49454E44, [], 0xAE426082⟩], .trunc 20)) := by decide +kernel
/-- The three ends of `PNG_READ_ALL` (44_pseudo_ops.md R199): a clean end, `FMT_TRUNCATED` with the chunk before it read, and
`FMT_SIGNATURE`. -/
theorem test_pngReadAll :
    [pngSignature ++ iend, pngSignature ++ iend ++ [9], []].map
      (fun bs => (pngReadAll (loaded bs 0)).map fun (views, e, _) => (views.map ChunkView.tag, e)) =
    [some ([0x49454E44], .complete), some ([0x49454E44], .failed 0x11), some ([], .failed 0x10)] := by decide +kernel

theorem witness_PngWriteHostIsPngWrite : { loaded [] 0 with ibufSize := 1 }.ibufSize ≠ 0 ∧
    ∀ x ∈ ([(0x49444154, [1, 2]), (0x49454E44, [])] : List (Word × List Byte)), x.2.length < 4294967296 :=
  ⟨by decide +kernel, by decide⟩

theorem witness_PngMinimizeHostIsMinimize : (s1Head ++ iend).length ≤ (loaded [] 0).ibufSize.toNat := by decide +kernel

theorem witness_SresetRestoresRegisters :
    let s := { State.reset with status := ⟨.ok, true, false, false, false, false, false⟩ }
    s.status.sticky = true ∧ (nextState (exec .sreset s)).map (·.status.sticky) = some false := by decide +kernel

end Sys2Proof.Tests
end

/-! # The size bound of PackBits-ICNS

42_packbits.md R168 and its use in 00_scope.md R7. The bound is proved by induction over the tokens: a full literal of 128 bytes
is paid for by the quotient `n / 128`, a shorter one by the run that follows it. -/

namespace Sys2Proof.Machine

/-! ## Runs and literals -/

theorem three_le_length_of_runStart {d : List Byte} (h : runStart d = true) : 3 ≤ d.length := by
  match d with
  | _ :: _ :: _ :: _ => simp
  | [] | [_] | [_, _] => simp [runStart] at h

theorem equalCount_le_length (b : Byte) (d : List Byte) : equalCount b d ≤ d.length := by
  induction d with
  | nil => simp [equalCount]
  | cons x xs ih =>
    simp only [equalCount, List.length_cons]
    split <;> omega

theorem runLen_le_length (d : List Byte) : runLen d ≤ d.length := by
  cases d with
  | nil => simp [runLen]
  | cons b bs =>
    have := equalCount_le_length b bs
    simp only [runLen, List.length_cons]
    omega

/-- 42_packbits.md R160: a run start makes the count at least 3. -/
theorem three_le_runLen {d : List Byte} (h : runStart d = true) : 3 ≤ runLen d := by
  match d with
  | a :: b :: c :: rest =>
    obtain ⟨rfl, rfl⟩ : a = b ∧ b = c := by simpa [runStart] using h
    simp only [runLen, equalCount, if_true, pbMaxRun]
    omega
  | [] | [_] | [_, _] => simp [runStart] at h

theorem beforeRunStart_le_length (d : List Byte) : beforeRunStart d ≤ d.length := by
  induction d with
  | nil => simp [beforeRunStart]
  | cons b bs ih =>
    simp only [beforeRunStart, List.length_cons]
    split <;> omega

/-- Behind the bytes before the first run start stands that run, or the end. -/
theorem runStart_drop_beforeRunStart (d : List Byte) :
    d.drop (beforeRunStart d) = [] ∨ runStart (d.drop (beforeRunStart d)) = true := by
  induction d with
  | nil => exact .inl rfl
  | cons b bs ih =>
    by_cases h : runStart (b :: bs) = true
    · exact .inr (by simp [beforeRunStart, h])
    · simpa [beforeRunStart, h] using ih

theorem litLen_le_length (d : List Byte) : litLen d ≤ d.length := by
  cases d with
  | nil => simp [litLen]
  | cons b bs =>
    have := beforeRunStart_le_length bs
    simp only [litLen, List.length_cons]
    omega

/-- 42_packbits.md R161: a literal is full, or a run or the end follows it. -/
theorem litLen_eq_max_or_runStart_drop (d : List Byte) :
    litLen d = 128 ∨ d.drop (litLen d) = [] ∨ runStart (d.drop (litLen d)) = true := by
  cases d with
  | nil => exact .inr (.inl rfl)
  | cons b bs =>
    rcases Nat.lt_or_ge (beforeRunStart bs + 1) 128 with h | h
    · have hl : litLen (b :: bs) = beforeRunStart bs + 1 := Nat.min_eq_left h.le
      rw [hl, List.drop_succ_cons]
      exact .inr (runStart_drop_beforeRunStart bs)
    · exact .inl (Nat.min_eq_right h)

/-! ## The tokens -/

@[simp] theorem pbTokens_nil (fuel : Nat) : pbTokens fuel [] = [] := by cases fuel <;> rfl

theorem pbTokens_of_runStart {b : Byte} {bs : List Byte} (fuel : Nat) (h : runStart (b :: bs) = true) :
    pbTokens (fuel + 1) (b :: bs) = .run (runLen (b :: bs)) b :: pbTokens fuel ((b :: bs).drop (runLen (b :: bs))) := by
  match bs with
  | _ :: _ :: _ => simp only [pbTokens, h, if_true]
  | [] | [_] => simp [runStart] at h

/-- Where no run starts `pb_encode` emits a literal; the tail of one or two bytes is no exception, its `litLen` being its
length. -/
theorem pbTokens_of_not_runStart {b : Byte} {bs : List Byte} (fuel : Nat) (h : runStart (b :: bs) = false) :
    pbTokens (fuel + 1) (b :: bs)
      = .lit ((b :: bs).take (litLen (b :: bs))) :: pbTokens fuel ((b :: bs).drop (litLen (b :: bs))) := by
  match bs with
  | _ :: _ :: _ => simp [pbTokens, h]
  | [] | [_] => simp [pbTokens, litLen, beforeRunStart, runStart, pbMaxLit]

@[simp] theorem Token.bytes_lit_length (data : List Byte) : (Token.lit data).bytes.length = data.length + 1 := rfl

@[simp] theorem Token.bytes_run_length (count : Nat) (value : Byte) : (Token.run count value).bytes.length = 2 := rfl

/-! ## The bound -/

/-- 42_packbits.md R168, strengthened for the induction: where a run starts, or nothing is left, the bound's last byte is not
needed. -/
theorem pbTokens_bytes_length_le (fuel : Nat) (d : List Byte) :
    ((pbTokens fuel d).flatMap Token.bytes).length ≤ d.length + d.length / 128 + 1 ∧
    (d = [] ∨ runStart d = true → ((pbTokens fuel d).flatMap Token.bytes).length ≤ d.length + d.length / 128) := by
  induction fuel generalizing d with
  | zero => simp [pbTokens]
  | succ fuel ih =>
    match d with
    | [] => simp
    | b :: bs =>
      cases h : runStart (b :: bs) with
      | true =>
        have hlow := three_le_runLen h
        have hhigh := runLen_le_length (b :: bs)
        obtain ⟨hrest, -⟩ := ih ((b :: bs).drop (runLen (b :: bs)))
        rw [pbTokens_of_runStart fuel h, List.flatMap_cons, List.length_append, Token.bytes_run_length]
        rw [List.length_drop] at hrest
        omega
      | false =>
        have hhigh := litLen_le_length (b :: bs)
        obtain ⟨hrest, hrun⟩ := ih ((b :: bs).drop (litLen (b :: bs)))
        rw [pbTokens_of_not_runStart fuel h, List.flatMap_cons, List.length_append, Token.bytes_lit_length,
          List.length_take_of_le hhigh]
        rw [List.length_drop] at hrest hrun
        refine ⟨?_, by simp⟩
        rcases litLen_eq_max_or_runStart_drop (b :: bs) with hfull | hnext
        · omega
        · have := hrun hnext
          omega

/-- 42_packbits.md R168: the size bound. -/
theorem pbEncode_length_le (d : List Byte) : (pbEncode d).length ≤ d.length + d.length / 128 + 1 :=
  (pbTokens_bytes_length_le d.length d).1

/-- The output of an `ILEN` in range fits an `OBUF` sized as 00_scope.md R7 says. -/
theorem pbEncode_input_length_le {s : State} (hsize : s.ibufSize.toNat + s.ibufSize.toNat / 128 + 1 ≤ s.obufSize.toNat)
    (hilen : ¬ s.ilenOver) : (pbEncode s.input).length ≤ s.obufSize.toNat := by
  have hlen : s.input.length = s.ilen.toNat := s.ibufBytes_length 0 _
  have hbound := pbEncode_length_le s.input
  rw [hlen] at hbound
  omega

/-- Settles O52: of the three ends of `PB_ENCODE`, the size bound excludes `OVERFLOW`, and `RANGE` needs an `ILEN` above
`IBUF_SIZE`. -/
theorem largeOutputNeverOverflows : Obligations.LargeOutputNeverOverflows := by
  intro s hsize
  refine ⟨(pbEncodeBody s).complete, rfl, ?_⟩
  rcases pbEncodeBody_cases s with ⟨hover, he⟩ | ⟨hin, hlong, -⟩ | ⟨-, -, he⟩
  · rw [he]
    exact ⟨by simp, fun hle => absurd hle (Nat.not_le_of_gt hover)⟩
  · exact absurd (pbEncode_input_length_le hsize hin) (Nat.not_le_of_gt hlong)
  · rw [he]
    simp

end Sys2Proof.Machine

/-! # The state

10_state.md R44, R31, R24, R26: the invariant, the capacities, the frames of the commands, `STICKY` and the bits of `STATUS`. -/

namespace Sys2Proof

/-! ## The word of a command -/

/-- 30_encoding.md R80: with the reserved bits 0, a word is its opcode and its immediate. -/
theorem toNat_of_reserved_zero {w : Word} (h : w.extractLsb' 16 16 = 0) :
    w.toNat = (w.extractLsb' 0 8).toNat + (w.extractLsb' 8 8).toNat * 0x100 := by
  have hw := w.isLt
  have hhigh := congrArg BitVec.toNat h
  simp only [BitVec.extractLsb'_toNat, Nat.shiftRight_eq_div_pow, BitVec.toNat_zero, BitVec.ofNat_eq_ofNat] at hhigh ⊢
  omega

/-- 30_encoding.md R81: the command word of a command without an immediate is its opcode. -/
theorem encodeWord_of_fixedCommand {op : Byte} {i : Instr} (h : fixedCommand op = some i) :
    encodeWord i = some (BitVec.ofNat 32 op.toNat) := by
  unfold fixedCommand at h
  split at h <;> cases h
  all_goals next hop => rw [hop]; rfl

/-- 30_encoding.md R81: a word decodes only to the command whose word it is. -/
theorem encodeWord_of_decodeCommand {w : Word} {i : Instr} (h : decodeCommand w = .ok i) : encodeWord i = some w := by
  unfold decodeCommand at h
  dsimp only at h
  split at h
  · cases h
  · next hres =>
    have hw : BitVec.ofNat 32 ((w.extractLsb' 0 8).toNat + (w.extractLsb' 8 8).toNat * 0x100) = w := by
      rw [← toNat_of_reserved_zero (not_not.1 hres), BitVec.ofNat_toNat, BitVec.setWidth_eq]
    split at h
    · next hop =>
      cases h
      rw [hop] at hw
      exact congrArg some hw
    · split at h
      · cases h
      · next hfix =>
        split at h
        · next himm =>
          cases h
          rw [himm] at hw
          exact (encodeWord_of_fixedCommand hfix).trans (congrArg some hw)
        · cases h

/-- A word decodes to commands only, never to a record. -/
theorem format_of_decodeCommand {w : Word} {i : Instr} (h : decodeCommand w = .ok i) : i.format = .cw := by
  have hword := encodeWord_of_decodeCommand h
  cases i <;> simp [encodeWord, Instr.format] at hword ⊢

end Sys2Proof

namespace Sys2Proof.Machine

/-! ## What an operation and a step can do -/

/-- Everything an operation of the host, or hardware reset, can do to the state (43_control_and_access.md R182 to R185,
70_reset_and_hazards.md R230); the accesses that change no flag and no byte are one case. -/
inductive Performed (s : State) : HostOp → State → Prop
  /-- A write of a legal word to `CMD`. -/
  | command {w : Word} {i : Instr} {t : State} (hdecode : decodeCommand w = .ok i) (hexec : exec i s = .next t) :
      Performed s (.regWrite 0x00 w) t
  /-- A write of an illegal word to `CMD`. -/
  | illegal (w : Word) : Performed s (.regWrite 0x00 w) (s.completeError .illegalCmd w.toNat)
  /-- A write to `ILEN`. -/
  | ilen (v : Word) : Performed s (.regWrite 0x03 v) (s.writeIlen v)
  /-- A write inside `IBUF`. -/
  | ibuf {a : Word} (b : Byte) (ha : a.toNat < s.ibufSize.toNat) : Performed s (.ibufWrite a b) (s.writeIbuf a.toNat b)
  /-- Hardware reset. -/
  | reset : Performed s .hardwareReset s.hardReset
  /-- A read, a write to an operand of `CRC_BUF`, or a write that is ignored. -/
  | access {op : HostOp} (hop : ∀ w, op ≠ .regWrite 0x00 w) (srcOff srcLen : Word) (replies : List Reply) :
      Performed s op { s with srcOff := srcOff, srcLen := srcLen, replies := replies }

theorem performed_of_issueCommand {w : Word} {s t : State} (h : issueCommand w s = .next t) :
    Performed s (.regWrite 0x00 w) t := by
  unfold issueCommand at h
  split at h
  · next i hi => exact .command hi h
  · cases h
    exact .illegal w

theorem performed_of_execRegWrite {n v : Word} {s t : State} (h : execRegWrite n v s = .next t) :
    Performed s (.regWrite n v) t := by
  rcases execRegWrite_cases n v s with ⟨rfl, e⟩ | ⟨rfl, e⟩ | ⟨rfl, e⟩ | ⟨rfl, e⟩ | ⟨hn, -, -, -, e⟩ <;> rw [e] at h
  · exact performed_of_issueCommand h
  · cases h
    exact .ilen v
  · cases h
    exact .access (by simp) v s.srcLen s.replies
  · cases h
    exact .access (by simp) s.srcOff v s.replies
  · cases h
    exact .access (fun _ hcmd => hn (HostOp.regWrite.inj hcmd).1) s.srcOff s.srcLen s.replies

theorem performed_of_perform {op : HostOp} {s t : State} (h : perform op s = .next t) : Performed s op t := by
  cases op with
  | regWrite n v => exact performed_of_execRegWrite h
  | ibufWrite a b =>
    rw [perform, execIbufWrite] at h
    split at h <;> cases h
    · next ha => exact .ibuf b ha
    · exact .access (by simp) s.srcOff s.srcLen s.replies
  | regRead _ | obufRead _ =>
    cases h
    exact .access (by simp) s.srcOff s.srcLen _
  | hardwareReset =>
    cases h
    exact .reset

/-- What a step is (20_memory.md R70): idle, or the head of the queue performed. -/
theorem step_cases {s t : State} (h : step s = .next t) :
    t = s ∨ ∃ op ops, s.pending = op :: ops ∧ perform op { s with pending := ops } = .next t := by
  unfold step stepPending at h
  split at h
  · cases h
    exact .inl rfl
  · next op ops hpending => exact .inr ⟨op, ops, hpending, h⟩

/-! ## How `PNG_NEXT` and `PNG_PEEK` end -/

/-- An error of `PNG_NEXT` is raised in the state the command began in (60_exceptions.md R212), with a non-zero code. -/
theorem pngNextBody_err {s u : State} {e : Code} {info : Nat} (h : pngNextBody s = .err u e info) : u = s ∧ e ≠ .ok := by
  rcases pngNextBody_cases s with ⟨-, h'⟩ | ⟨-, -, h'⟩ | ⟨-, -, -, h'⟩ | ⟨-, -, h'⟩ <;> cases h'.symm.trans h <;> simp

/-- What `PNG_NEXT` leaves where it ends normally: the end of the stream or a chunk taken (41_png_chunk.md R134). -/
theorem pngNextBody_ok {s u : State} (h : pngNextBody s = .ok u) :
    u = s.endOfStream ∨ ∃ c, u = s.takeChunk c := by
  rcases pngNextBody_cases s with ⟨-, h'⟩ | ⟨-, -, h'⟩ | ⟨-, -, -, h'⟩ | ⟨-, -, h'⟩ <;> cases h'.symm.trans h
  · exact .inl rfl
  · exact .inr ⟨_, rfl⟩

/-- `PNG_PEEK` ends as its opening where that raises (41_png_chunk.md R136). -/
theorem pngPeekBody_of_open_err {s u : State} {e : Code} {info : Nat} (h : pngOpenBody s = .err u e info) :
    pngPeekBody s = some (.err u e info) := by
  rw [pngPeekBody, h]

/-- How `PNG_PEEK` completes (41_png_chunk.md R136). -/
theorem exec_pngPeek {s t : State} (h : exec .pngPeek s = .next t) : ∃ d, pngPeekBody s = some d ∧ t = d.complete := by
  obtain ⟨d, hd⟩ := Option.isSome_iff_exists.1 (pngPeekBody_isSome s)
  have he : exec .pngPeek s = .next d.complete := by
    show execPngPeek s = _
    rw [execPngPeek, hd]
  exact ⟨d, hd, by simpa using h.symm.trans he⟩

/-! ## The invariant, command by command -/

/-- The invariant constrains none of these registers, nor what is the host's. -/
theorem State.Inv.set_unconstrained {s : State} (h : s.Inv) {srcOff srcLen crcR : Word} {pending : List HostOp}
    {replies : List Reply} :
    { s with srcOff := srcOff, srcLen := srcLen, crcR := crcR, pending := pending, replies := replies }.Inv :=
  State.Inv.congr h rfl h.err_sticky h.obuf_wf h.obuf_inside

theorem State.Inv.foldCrc {s : State} (h : s.Inv) (start : Word) (bs : List Byte) : (s.foldCrc start bs).Inv :=
  h.set_unconstrained

theorem State.Inv.scrambleOutput {s : State} (h : s.Inv) : s.scrambleOutput.Inv :=
  State.Inv.congr h rfl h.err_sticky Memory.wf_nil (by simp)

/-- An output that fits keeps `OBUF` canonical and inside its capacity (10_state.md R39). -/
theorem State.Inv.writeOutput {s : State} (h : s.Inv) {bs : List Byte} (hfit : bs.length ≤ s.obufSize.toNat) :
    { s with obuf := Memory.writeBytes s.obuf 0 bs, olen := BitVec.ofNat 32 bs.length }.Inv := by
  refine State.Inv.congr h rfl h.err_sticky (Memory.wf_writeBytes 0 bs h.obuf_wf) fun c hc => ?_
  rcases Memory.mem_writeBytes hc with ⟨-, hnew⟩ | hold
  · dsimp only
    omega
  · exact h.obuf_inside c hold

theorem State.Inv.crcBuf {s : State} (h : s.Inv) : (crcBufBody s).complete.Inv := by
  rcases crcBufBody_cases s with ⟨-, e⟩ | ⟨-, -, e⟩ | ⟨-, -, e⟩ <;> rw [e]
  · exact h.completeError _ _
  · exact h.completeError _ _
  · exact (h.foldCrc _ _).completeOk

theorem State.Inv.crcSum {s : State} (h : s.Inv) : (crcSumBody s).complete.Inv := by
  rcases crcSumBody_cases s with ⟨-, e⟩ | ⟨-, e⟩ <;> rw [e]
  · exact h.completeError _ _
  · exact (h.foldCrc _ _).completeOk

theorem State.Inv.pbEncode {s : State} (h : s.Inv) : (pbEncodeBody s).complete.Inv := by
  rcases pbEncodeBody_cases s with ⟨-, e⟩ | ⟨-, -, e⟩ | ⟨-, hfit, e⟩ <;> rw [e]
  · exact h.completeError _ _
  · exact h.scrambleOutput.completeError _ _
  · exact (h.writeOutput hfit).completeOk

theorem State.Inv.pngOpen {s : State} (h : s.Inv) : (pngOpenBody s).complete.Inv := by
  rcases pngOpenBody_cases s with ⟨-, e⟩ | ⟨-, -, e⟩ | ⟨hin, h8, hsig, e⟩ <;> rw [e]
  · exact h.closeParse.completeError _ _
  · exact h.closeParse.completeError _ _
  · exact (h.openParse hin h8 hsig).completeOk

theorem State.Inv.pngNext_complete {s : State} (h : s.Inv) : (pngNextBody s).complete.Inv := by
  cases hd : pngNextBody s with
  | ok u => exact (h.pngNext hd).completeOk
  | err u e info =>
    obtain ⟨rfl, -⟩ := pngNextBody_err hd
    exact h.completeError e info

/-- `PNG_PEEK` keeps the invariant: its opening does, and so does every turn of its loop (41_png_chunk.md R136). -/
theorem State.Inv.pngPeek {s : State} (h : s.Inv) {d : Done} (hd : pngPeekBody s = some d) : d.complete.Inv := by
  have hopen := h.pngOpen
  rcases pngOpenBody_cases s with ⟨-, e⟩ | ⟨-, -, e⟩ | ⟨hin, h8, hsig, -⟩
  · cases hd.symm.trans (pngPeekBody_of_open_err e)
    exact e ▸ hopen
  · cases hd.symm.trans (pngPeekBody_of_open_err e)
    exact e ▸ hopen
  · rcases pngPeekBody_cases (h.openParse hin h8 hsig) (fun _ _ hu => hu.pngNext) hd with
      ⟨e, info, -, rfl⟩ | ⟨u, e, info, hu, he, rfl⟩ | ⟨-, u, -, hu, -, -, rfl⟩ | ⟨-, u, -, hu, -, -, -, rfl⟩
    · exact h.closeParse.completeError e info
    · exact (pngNextBody_err he).1 ▸ hu.completeError e info
    · exact hu.completeError _ _
    · exact hu.pngIhdr

/-- After a reset of the registers (10_state.md R43) the invariant holds of any canonical buffers. -/
theorem State.Inv.of_reset_registers {t : State} (hstatus : t.status = Status.reset) (hpos : t.pPos = 0)
    (hih : t.ihDepth = 0 ∧ t.ihCtype = 0 ∧ t.ihComp = 0 ∧ t.ihFilt = 0 ∧ t.ihIlace = 0)
    (hiw : Memory.wf t.ibuf) (how : Memory.wf t.obuf) (hi : ∀ c ∈ t.ibuf, c.1 < t.ibufSize.toNat)
    (ho : ∀ c ∈ t.obuf, c.1 < t.obufSize.toNat) : t.Inv := by
  obtain ⟨h1, h2, h3, h4, h5⟩ := hih
  constructor
  case ibuf_inside => exact hi
  case obuf_inside => exact ho
  all_goals simp [*]

theorem State.Inv.softReset {s : State} (h : s.Inv) : s.softReset.Inv :=
  State.Inv.of_reset_registers rfl rfl ⟨rfl, rfl, rfl, rfl, rfl⟩ h.ibuf_wf h.obuf_wf h.ibuf_inside h.obuf_inside

theorem State.hardReset_inv (s : State) : s.hardReset.Inv :=
  State.Inv.of_reset_registers rfl rfl ⟨rfl, rfl, rfl, rfl, rfl⟩ Memory.wf_nil Memory.wf_nil (by simp) (by simp)

/-- Settles O41: no flag is set and no byte is listed. -/
theorem invariantAtReset : Obligations.InvariantAtReset :=
  State.Inv.of_reset_registers rfl rfl ⟨rfl, rfl, rfl, rfl, rfl⟩ Memory.wf_nil Memory.wf_nil nofun nofun

/-- Every command keeps the invariant; a record alone need not (`PNG.SIG` opens a parse over any `IBUF`). -/
theorem State.Inv.exec {i : Instr} {s t : State} (h : s.Inv) (hi : i.format = .cw) (he : exec i s = .next t) : t.Inv := by
  cases i
  case nop => cases he; exact h.completeOk
  case sreset => cases he; exact h.softReset.completeOk
  case crcInit => cases he; exact (h.foldCrc _ _).completeOk
  case crcByte => cases he; exact (h.foldCrc _ _).completeOk
  case crcBuf => cases he; exact h.crcBuf
  case crcSum => cases he; exact h.crcSum
  case pngOpen => cases he; exact h.pngOpen
  case pngNext => cases he; exact h.pngNext_complete
  case pngIhdr => cases he; exact h.pngIhdr
  case pngPeek =>
    obtain ⟨d, hd, rfl⟩ := exec_pngPeek he
    exact h.pngPeek hd
  case pbEncode => cases he; exact h.pbEncode
  all_goals cases hi

/-! ## The invariant, operation by operation -/

theorem State.Inv.writeIlen {s : State} (h : s.Inv) (v : Word) : (s.writeIlen v).Inv :=
  State.Inv.of_closed h rfl rfl h.ibuf_wf h.ibuf_inside rfl rfl ⟨rfl, rfl, rfl, rfl, rfl⟩

theorem State.Inv.writeIbuf {s : State} (h : s.Inv) {a : Nat} (ha : a < s.ibufSize.toNat) (b : Byte) :
    (s.writeIbuf a b).Inv := by
  refine State.Inv.of_closed h rfl rfl (Memory.wf_write a b h.ibuf_wf) (fun c hc => ?_) rfl rfl ⟨rfl, rfl, rfl, rfl, rfl⟩
  rcases Memory.mem_write hc with rfl | hold
  · exact ha
  · exact h.ibuf_inside c hold

theorem State.Inv.perform {op : HostOp} {s t : State} (h : s.Inv) (he : perform op s = .next t) : t.Inv := by
  cases performed_of_perform he with
  | command hi hx => exact h.exec (format_of_decodeCommand hi) hx
  | illegal w => exact h.completeError _ _
  | ilen v => exact h.writeIlen v
  | ibuf b ha => exact h.writeIbuf ha b
  | reset => exact s.hardReset_inv
  | access => exact h.set_unconstrained

/-- Settles O42: an idle step changes nothing, and every operation keeps the invariant, which does not speak of the queue. -/
theorem stepKeepsInvariant : Obligations.StepKeepsInvariant := by
  intro s t h hstep
  rcases step_cases hstep with rfl | ⟨op, ops, -, hop⟩
  · exact h
  · exact State.Inv.perform (s := { s with pending := ops }) h.set_unconstrained hop

/-! ## Frames of the commands (10_state.md R24) -/

/-- The states differ at most in what `NOP` and the CRC commands write. -/
def State.CrcFrame (s t : State) : Prop :=
  t = { s with
    crcR := t.crcR, errInfo := t.errInfo
    status := { s.status with err := t.status.err, sticky := t.status.sticky } }

theorem crcBufBody_frame (s : State) : s.CrcFrame (crcBufBody s).complete := by
  rcases crcBufBody_cases s with ⟨-, e⟩ | ⟨-, -, e⟩ | ⟨-, -, e⟩ <;> rw [e] <;> rfl

theorem crcSumBody_frame (s : State) : s.CrcFrame (crcSumBody s).complete := by
  rcases crcSumBody_cases s with ⟨-, e⟩ | ⟨-, e⟩ <;> rw [e] <;> rfl

theorem State.CrcFrame.ibufByte {s t : State} (h : s.CrcFrame t) (a : Nat) : t.ibufByte a = s.ibufByte a := by
  apply State.ibufByte_of_ibuf <;> rw [h]

theorem State.CrcFrame.obufByte {s t : State} (h : s.CrcFrame t) (a : Nat) : t.obufByte a = s.obufByte a := by
  apply State.obufByte_of_obuf <;> rw [h]

/-- Settles O24, by what each of the five commands writes. -/
theorem crcGroupFrame : Obligations.CrcGroupFrame := by
  intro i s t hi he
  have hframe : s.CrcFrame t ∧ (i = .nop → t.crcR = s.crcR) := by
    rcases hi with rfl | rfl | ⟨b, rfl⟩ | rfl | rfl <;> cases he
    · exact ⟨rfl, fun _ => rfl⟩
    · exact ⟨rfl, nofun⟩
    · exact ⟨rfl, nofun⟩
    · exact ⟨crcBufBody_frame s, nofun⟩
    · exact ⟨crcSumBody_frame s, nofun⟩
  obtain ⟨hf, hnop⟩ := hframe
  exact ⟨hf, hnop, hf.ibufByte, hf.obufByte⟩

/-- The states differ at most in what the PCP commands write (10_state.md R32: `CRC_R` is not among it). -/
def State.PcpFrame (s t : State) : Prop :=
  t = { s with
    status := t.status, errInfo := t.errInfo, pPos := t.pPos
    chLen := t.chLen, chTag := t.chTag, chDoff := t.chDoff, chCrc := t.chCrc, chCalc := t.chCalc
    ihWidth := t.ihWidth, ihHeight := t.ihHeight, ihDepth := t.ihDepth, ihCtype := t.ihCtype
    ihComp := t.ihComp, ihFilt := t.ihFilt, ihIlace := t.ihIlace }

theorem State.PcpFrame.trans {s u t : State} (h : s.PcpFrame u) (h' : u.PcpFrame t) : s.PcpFrame t := by
  unfold State.PcpFrame at *
  rw [h', h]

theorem State.PcpFrame.ibufByte {s t : State} (h : s.PcpFrame t) (a : Nat) : t.ibufByte a = s.ibufByte a := by
  apply State.ibufByte_of_ibuf <;> rw [h]

theorem State.PcpFrame.obufByte {s t : State} (h : s.PcpFrame t) (a : Nat) : t.obufByte a = s.obufByte a := by
  apply State.obufByte_of_obuf <;> rw [h]

/-- The states differ at most in what `PNG_OPEN` writes (41_png_chunk.md R133). -/
def State.OpenFrame (s t : State) : Prop := t = { s with status := t.status, errInfo := t.errInfo, pPos := t.pPos }

/-- The states differ at most in what `PNG_NEXT` writes (41_png_chunk.md R134). -/
def State.NextFrame (s t : State) : Prop :=
  t.status.pOpen = s.status.pOpen ∧ t.status.ihValid = s.status.ihValid ∧
  t = { s with
    status := t.status, errInfo := t.errInfo, pPos := t.pPos
    chLen := t.chLen, chTag := t.chTag, chDoff := t.chDoff, chCrc := t.chCrc, chCalc := t.chCalc }

/-- What `PNG_IHDR` leaves of the parse and the chunk (41_png_chunk.md R135). -/
def State.SameChunk (s t : State) : Prop :=
  t.status.pOpen = s.status.pOpen ∧ t.status.eos = s.status.eos ∧
  t.status.chValid = s.status.chValid ∧ t.status.crcOk = s.status.crcOk ∧ t.pPos = s.pPos ∧ t.chLen = s.chLen ∧
  t.chTag = s.chTag ∧ t.chDoff = s.chDoff ∧ t.chCrc = s.chCrc ∧ t.chCalc = s.chCalc

theorem State.OpenFrame.pcpFrame {s t : State} (h : s.OpenFrame t) : s.PcpFrame t := by
  unfold State.PcpFrame
  rw [h]

theorem State.NextFrame.pcpFrame {s t : State} (h : s.NextFrame t) : s.PcpFrame t := by
  unfold State.PcpFrame
  rw [h.2.2]

theorem pngOpenBody_frame (s : State) : s.OpenFrame (pngOpenBody s).complete := by
  rcases pngOpenBody_cases s with ⟨-, e⟩ | ⟨-, -, e⟩ | ⟨-, -, -, e⟩ <;> rw [e] <;> rfl

theorem pngNextBody_frame (s : State) : s.NextFrame (pngNextBody s).complete := by
  rcases pngNextBody_cases s with ⟨-, e⟩ | ⟨-, -, e⟩ | ⟨-, -, -, e⟩ | ⟨-, -, e⟩ <;> rw [e] <;> exact ⟨rfl, rfl, rfl⟩

theorem pngIhdrBody_frame (s : State) : s.PcpFrame (pngIhdrBody s).complete := by
  rcases pngIhdrBody_cases s with ⟨-, e⟩ | ⟨-, -, -, e⟩ | ⟨-, -, -, e⟩ <;> rw [e] <;> rfl

theorem pngIhdrBody_sameChunk (s : State) : s.SameChunk (pngIhdrBody s).complete := by
  rcases pngIhdrBody_cases s with ⟨-, e⟩ | ⟨-, -, -, e⟩ | ⟨-, -, -, e⟩ <;> rw [e] <;>
    exact ⟨rfl, rfl, rfl, rfl, rfl, rfl, rfl, rfl, rfl, rfl⟩

/-- Every turn of `PNG_PEEK`'s loop stays in the frame of PCP (41_png_chunk.md R136). -/
theorem pngPeekBody_frame {s : State} {d : Done} (hd : pngPeekBody s = some d) : s.PcpFrame d.complete := by
  have keeps : ∀ u u', s.PcpFrame u → pngNextBody u = .ok u' → s.PcpFrame u' := by
    intro u u' hu hn
    rcases pngNextBody_ok hn with rfl | ⟨c, rfl⟩ <;> exact hu.trans rfl
  rcases pngPeekBody_cases (P := s.PcpFrame) rfl keeps hd with
    ⟨e, info, -, rfl⟩ | ⟨u, e, info, hu, -, rfl⟩ | ⟨-, u, -, hu, -, -, rfl⟩ | ⟨-, u, -, hu, -, -, -, rfl⟩
  · rfl
  · exact hu.trans rfl
  · exact hu.trans rfl
  · exact hu.trans (pngIhdrBody_frame u)

/-- Settles O25; for `PNG_PEEK` along its loop. -/
theorem pcpFrame : Obligations.PcpFrame := by
  intro i s t hi he
  have hframe : s.PcpFrame t ∧ (i = .pngOpen → s.OpenFrame t) ∧ (i = .pngNext → s.NextFrame t) ∧
      (i = .pngIhdr → s.SameChunk t) := by
    rcases hi with rfl | rfl | rfl | rfl
    · cases he
      exact ⟨(pngOpenBody_frame s).pcpFrame, fun _ => pngOpenBody_frame s, nofun, nofun⟩
    · cases he
      exact ⟨(pngNextBody_frame s).pcpFrame, nofun, fun _ => pngNextBody_frame s, nofun⟩
    · cases he
      exact ⟨pngIhdrBody_frame s, nofun, nofun, fun _ => pngIhdrBody_sameChunk s⟩
    · obtain ⟨d, hd, rfl⟩ := exec_pngPeek he
      exact ⟨pngPeekBody_frame hd, nofun, nofun, nofun⟩
  obtain ⟨hf, hrest⟩ := hframe
  exact ⟨hf, hf.ibufByte, hf.obufByte, hrest⟩

/-- Settles O26: the three ends of 42_packbits.md R164. -/
theorem pbEncodeFrame : Obligations.PbEncodeFrame := by
  intro s t he
  cases he
  rcases pbEncodeBody_cases s with ⟨-, e⟩ | ⟨-, -, e⟩ | ⟨-, -, e⟩ <;> rw [e]
  · exact ⟨rfl, fun _ => rfl, nofun, fun _ => ⟨rfl, fun _ => rfl⟩⟩
  · exact ⟨rfl, fun _ => rfl, nofun, nofun⟩
  · refine ⟨rfl, fun _ => rfl, fun _ a ha => ?_, nofun⟩
    refine (State.obufByte_written (s := s) (bs := pbEncode s.input) ?_ ?_ a).trans ?_
    · rfl
    · rfl
    · rw [List.getElem?_eq_none ha, Option.getD_none]

/-! ## The sizes (10_state.md R31) -/

/-- The eleven commands by what they may write (10_state.md R24). -/
theorem command_groups {i : Instr} (hi : i.format = .cw) :
    i = .sreset ∨ i = .pbEncode ∨ (i = .nop ∨ i = .crcInit ∨ (∃ b, i = .crcByte b) ∨ i = .crcBuf ∨ i = .crcSum) ∨
    (i = .pngOpen ∨ i = .pngNext ∨ i = .pngIhdr ∨ i = .pngPeek) := by
  cases i <;> simp [Instr.format] at hi ⊢

/-- The machines have the same capacities. -/
def State.SameSizes (s t : State) : Prop := t.ibufSize = s.ibufSize ∧ t.obufSize = s.obufSize

theorem exec_sameSizes {i : Instr} {s t : State} (hi : i.format = .cw) (he : exec i s = .next t) : s.SameSizes t := by
  rcases command_groups hi with rfl | rfl | hcrc | hpcp
  · cases he
    exact ⟨rfl, rfl⟩
  · obtain ⟨hf, -⟩ := pbEncodeFrame s t he
    rw [hf]
    exact ⟨rfl, rfl⟩
  · obtain ⟨hf, -⟩ := crcGroupFrame i s t hcrc he
    rw [hf]
    exact ⟨rfl, rfl⟩
  · obtain ⟨hf, -⟩ := pcpFrame i s t hpcp he
    rw [hf]
    exact ⟨rfl, rfl⟩

theorem perform_sameSizes {op : HostOp} {s t : State} (he : perform op s = .next t) : s.SameSizes t := by
  cases performed_of_perform he with
  | command hi hx => exact exec_sameSizes (format_of_decodeCommand hi) hx
  | illegal | ilen | ibuf | reset | access => exact ⟨rfl, rfl⟩

/-- Settles O40: an idle step changes nothing, and no operation writes a size. -/
theorem sizesNeverChange : Obligations.SizesNeverChange := by
  intro s t hstep
  rcases step_cases hstep with rfl | ⟨op, ops, -, hop⟩
  · exact ⟨rfl, rfl⟩
  · exact perform_sameSizes (s := { s with pending := ops }) hop

/-! ## `STICKY` (10_state.md R26) -/

/-- A pseudocode that ends normally has left `STICKY` as it was in `s`; one that raises does so with a non-zero code. -/
def Done.LeavesSticky (s : State) : Done → Prop
  | .ok u      => u.status.sticky = s.status.sticky
  | .err _ e _ => e ≠ .ok

/-- 60_exceptions.md R212: what a completion makes of `ERR` and `STICKY`. -/
def Status.CompletedFrom (st st' : Status) : Prop :=
  (st'.err = .ok ∧ st'.sticky = st.sticky) ∨ (st'.err ≠ .ok ∧ st'.sticky = true)

theorem Done.LeavesSticky.completed {s : State} {d : Done} (h : d.LeavesSticky s) :
    s.status.CompletedFrom d.complete.status := by
  cases d with
  | ok u => exact .inl ⟨rfl, h⟩
  | err u e info => exact .inr ⟨h, rfl⟩

theorem crcBufBody_leavesSticky (s : State) : (crcBufBody s).LeavesSticky s := by
  rcases crcBufBody_cases s with ⟨-, e⟩ | ⟨-, -, e⟩ | ⟨-, -, e⟩ <;> rw [e] <;> simp [Done.LeavesSticky]

theorem crcSumBody_leavesSticky (s : State) : (crcSumBody s).LeavesSticky s := by
  rcases crcSumBody_cases s with ⟨-, e⟩ | ⟨-, e⟩ <;> rw [e] <;> simp [Done.LeavesSticky]

theorem pngOpenBody_leavesSticky (s : State) : (pngOpenBody s).LeavesSticky s := by
  rcases pngOpenBody_cases s with ⟨-, e⟩ | ⟨-, -, e⟩ | ⟨-, -, -, e⟩ <;> rw [e] <;> simp [Done.LeavesSticky]

theorem pngNextBody_leavesSticky (s : State) : (pngNextBody s).LeavesSticky s := by
  rcases pngNextBody_cases s with ⟨-, e⟩ | ⟨-, -, e⟩ | ⟨-, -, -, e⟩ | ⟨-, -, e⟩ <;> rw [e] <;> simp [Done.LeavesSticky]

theorem pngIhdrBody_leavesSticky (s : State) : (pngIhdrBody s).LeavesSticky s := by
  rcases pngIhdrBody_cases s with ⟨-, e⟩ | ⟨-, -, -, e⟩ | ⟨-, -, -, e⟩ <;> rw [e] <;> simp [Done.LeavesSticky]

theorem pbEncodeBody_leavesSticky (s : State) : (pbEncodeBody s).LeavesSticky s := by
  rcases pbEncodeBody_cases s with ⟨-, e⟩ | ⟨-, -, e⟩ | ⟨-, -, e⟩ <;> rw [e] <;> simp [Done.LeavesSticky]

theorem Done.LeavesSticky.of_eq {s u : State} {d : Done} (h : d.LeavesSticky u) (hu : u.status.sticky = s.status.sticky) :
    d.LeavesSticky s := by
  cases d with
  | ok _ => exact Eq.trans h hu
  | err _ _ _ => exact h

theorem pngPeekBody_leavesSticky {s : State} {d : Done} (hd : pngPeekBody s = some d) : d.LeavesSticky s := by
  have keeps : ∀ u u', u.status.sticky = s.status.sticky → pngNextBody u = .ok u' →
      u'.status.sticky = s.status.sticky := by
    intro u u' hu hn
    have hnext := pngNextBody_leavesSticky u
    rw [hn] at hnext
    exact Eq.trans hnext hu
  rcases pngPeekBody_cases (P := fun u => u.status.sticky = s.status.sticky) rfl keeps hd with
    ⟨e, info, he, rfl⟩ | ⟨u, e, info, -, he, rfl⟩ | ⟨-, u, -, -, -, -, rfl⟩ | ⟨-, u, -, hu, -, -, -, rfl⟩
  · exact he ▸ pngOpenBody_leavesSticky s
  · exact (pngNextBody_err he).2
  · exact Code.noConfusion
  · exact (pngIhdrBody_leavesSticky u).of_eq hu

/-- 60_exceptions.md R212: every command but `SRESET` leaves `STICKY` where it completes normally and sets it where it
raises. -/
theorem exec_completed {i : Instr} {s t : State} (hi : i.format = .cw) (hne : i ≠ .sreset) (he : exec i s = .next t) :
    s.status.CompletedFrom t.status := by
  cases i
  case nop | crcInit | crcByte => cases he; exact .inl ⟨rfl, rfl⟩
  case sreset => exact absurd rfl hne
  case crcBuf => cases he; exact (crcBufBody_leavesSticky s).completed
  case crcSum => cases he; exact (crcSumBody_leavesSticky s).completed
  case pngOpen => cases he; exact (pngOpenBody_leavesSticky s).completed
  case pngNext => cases he; exact (pngNextBody_leavesSticky s).completed
  case pngIhdr => cases he; exact (pngIhdrBody_leavesSticky s).completed
  case pngPeek =>
    obtain ⟨d, hd, rfl⟩ := exec_pngPeek he
    exact (pngPeekBody_leavesSticky hd).completed
  case pbEncode => cases he; exact (pbEncodeBody_leavesSticky s).completed
  all_goals cases hi

/-- The only word of `SRESET` (30_encoding.md R81). -/
theorem eq_one_of_decodeCommand_sreset {w : Word} (h : decodeCommand w = .ok .sreset) : w = 0x00000001 :=
  (Option.some.inj (encodeWord_of_decodeCommand h)).symm

theorem commandFails_of_not_command {op : HostOp} (s : State) (h : ∀ w, op ≠ .regWrite 0x00 w) :
    commandFails op s = false := by
  cases op with
  | regWrite n v =>
    have hn : n ≠ Reg.cmd.num := by
      rintro rfl
      exact h v rfl
    simp [commandFails, hn]
  | regRead | ibufWrite | obufRead | hardwareReset => rfl

/-- What an operation does to `STICKY` (10_state.md R26): a command that completes with a non-zero code sets it, a reset clears
it, and everything else leaves it. -/
theorem perform_sticky {op : HostOp} {s t : State} (h : perform op s = .next t) :
    (commandFails op s = true ∧ t.status.sticky = true) ∨
    (commandFails op s = false ∧ t.status.sticky = s.status.sticky) ∨
    (commandFails op s = false ∧ op.isReset ∧ t.status.sticky = false) := by
  have hfails := commandFails_iff h
  cases performed_of_perform h with
  | @command w i _ hi hx =>
    have herr : commandFails (.regWrite 0x00 w) s = true ↔ t.status.err ≠ .ok :=
      hfails.trans (and_iff_right ⟨w, rfl⟩)
    by_cases hs : i = .sreset
    · subst hs
      cases hx
      exact .inr (.inr ⟨by simpa using herr, .inr (by rw [eq_one_of_decodeCommand_sreset hi]), rfl⟩)
    · rcases exec_completed (format_of_decodeCommand hi) hs hx with ⟨hok, hkept⟩ | ⟨hne, hset⟩
      · exact .inr (.inl ⟨by simpa [hok] using herr, hkept⟩)
      · exact .inl ⟨herr.2 hne, hset⟩
  | illegal w => exact .inl ⟨hfails.2 ⟨⟨w, rfl⟩, Code.noConfusion⟩, rfl⟩
  | ilen v => exact .inr (.inl ⟨commandFails_of_not_command s (by simp), rfl⟩)
  | ibuf b ha => exact .inr (.inl ⟨commandFails_of_not_command s (by simp), rfl⟩)
  | reset => exact .inr (.inr ⟨rfl, .inl rfl, rfl⟩)
  | access hop => exact .inr (.inl ⟨commandFails_of_not_command s hop, rfl⟩)

/-- No operation but a reset clears `STICKY` (10_state.md R26). -/
theorem perform_keeps_sticky {op : HostOp} {s t : State} (h : perform op s = .next t) (hs : s.status.sticky = true)
    (hop : ¬ op.isReset) : t.status.sticky = true := by
  rcases perform_sticky h with ⟨-, hset⟩ | ⟨-, hkept⟩ | ⟨-, hreset, -⟩
  · exact hset
  · exact hkept.trans hs
  · exact absurd hreset hop

/-- A command that completes with a non-zero code sets `STICKY` (60_exceptions.md R212). -/
theorem sticky_of_commandFails {op : HostOp} {s t : State} (h : perform op s = .next t) (hf : commandFails op s = true) :
    t.status.sticky = true := by
  rcases perform_sticky h with ⟨-, hset⟩ | ⟨hnot, -⟩ | ⟨hnot, -⟩
  · exact hset
  · simp [hf] at hnot
  · simp [hf] at hnot

/-- Only a command that completes with a non-zero code sets `STICKY`. -/
theorem commandFails_of_sticky {op : HostOp} {s t : State} (h : perform op s = .next t) (hs : s.status.sticky = false)
    (ht : t.status.sticky = true) : commandFails op s = true := by
  rcases perform_sticky h with ⟨hf, -⟩ | ⟨-, hkept⟩ | ⟨-, -, hclear⟩
  · exact hf
  · simp [hs, ht] at hkept
  · simp [ht] at hclear

/-! ## Runs -/

/-- The first operation of a run that has a result. -/
theorem performAll_cons_eq_next {op : HostOp} {ops : List HostOp} {s t : State}
    (h : performAll (op :: ops) s = .next t) : ∃ u, perform op s = .next u ∧ performAll ops u = .next t := by
  rw [performAll] at h
  split at h
  · next u hu => exact ⟨u, hu, h⟩
  · cases h
  · cases h

/-- A run without a reset keeps `STICKY` set. -/
theorem performAll_keeps_sticky {ops : List HostOp} {s t : State} (h : performAll ops s = .next t)
    (hs : s.status.sticky = true) (hops : ∀ o ∈ ops, ¬ o.isReset) : t.status.sticky = true := by
  induction ops generalizing s with
  | nil =>
    cases h
    exact hs
  | cons op ops ih =>
    obtain ⟨u, hu, ht⟩ := performAll_cons_eq_next h
    obtain ⟨hop, hrest⟩ := List.forall_mem_cons.1 hops
    exact ih ht (perform_keeps_sticky hu hs hop) hrest

/-- A run in two parts goes wrong in one of them (70_reset_and_hazards.md R236). -/
theorem runWentWrong_append {before : List HostOp} {s u : State} (h : performAll before s = .next u)
    (after : List HostOp) : runWentWrong (before ++ after) s = (runWentWrong before s || runWentWrong after u) := by
  induction before generalizing s with
  | nil =>
    cases h
    rfl
  | cons op ops ih =>
    obtain ⟨v, hv, hu⟩ := performAll_cons_eq_next h
    rw [List.cons_append, runWentWrong_cons_next hv, runWentWrong_cons_next hv, ih hu, Bool.or_assoc]

/-- A run that went wrong has a command that completed with a non-zero code. -/
theorem exists_commandFails_of_runWentWrong {ops : List HostOp} {s : State} (h : runWentWrong ops s = true) :
    ∃ before op after u, ops = before ++ op :: after ∧ performAll before s = .next u ∧ commandFails op u = true := by
  induction ops generalizing s with
  | nil => simp at h
  | cons op ops ih =>
    rw [runWentWrong, Bool.or_eq_true, Option.any_eq_true] at h
    rcases h with hf | ⟨v, hv, hrest⟩
    · exact ⟨[], op, ops, s, rfl, rfl, hf⟩
    · rw [nextState_eq_some] at hv
      obtain ⟨before, o, after, u, rfl, hu, hf⟩ := ih hrest
      exact ⟨op :: before, o, after, u, rfl, (performAll_cons_next hv before).trans hu, hf⟩

/-- A run that sets `STICKY` went wrong. -/
theorem runWentWrong_of_sticky {ops : List HostOp} {s t : State} (h : performAll ops s = .next t)
    (hs : s.status.sticky = false) (ht : t.status.sticky = true) : runWentWrong ops s = true := by
  induction ops generalizing s with
  | nil =>
    cases h
    simp [hs] at ht
  | cons op ops ih =>
    obtain ⟨u, hu, hrest⟩ := performAll_cons_eq_next h
    rw [runWentWrong_cons_next hu, Bool.or_eq_true]
    cases hmid : u.status.sticky with
    | true => exact .inl (commandFails_of_sticky hu hs hmid)
    | false => exact .inr (ih hrest hmid)

/-- Settles O29, by induction over the runs, from what one operation does to `STICKY`. -/
theorem stickyLatches : Obligations.StickyLatches := by
  refine ⟨fun s t op h hs hop => perform_keeps_sticky h hs hop, ?_,
    fun ops s h => exists_commandFails_of_runWentWrong h, fun ops s t h hs ht => runWentWrong_of_sticky h hs ht,
    fun op s t h => commandFails_iff h⟩
  intro before after op s u t hu hf ht
  rw [performAll_append hu] at ht
  obtain ⟨v, hv, hrest⟩ := performAll_cons_eq_next ht
  refine ⟨?_, fun hafter => performAll_keeps_sticky hrest (sticky_of_commandFails hv hf) hafter⟩
  rw [runWentWrong_append hu, runWentWrong_cons_next hv, hf, Bool.true_or, Bool.or_true]

/-! ## The bits of `STATUS` (10_state.md R26) -/

theorem flagBit_getLsbD {bit : Nat} (hbit : bit < 32) (f : Bool) (k : Nat) :
    (flagBit bit f).getLsbD k = (f && decide (bit = k)) := by
  cases f with
  | false => simp [flagBit]
  | true =>
    simp only [flagBit, if_true, BitVec.getLsbD_ofNat, Nat.testBit_two_pow, Bool.true_and]
    by_cases hk : bit = k
    · simp [← hk, hbit]
    · simp [hk]

theorem Status.toWord_getLsbD (st : Status) (k : Nat) : st.toWord.getLsbD k =
    (st.err.toByte.getLsbD k || (st.sticky && decide (8 = k)) || (st.pOpen && decide (9 = k)) ||
      (st.eos && decide (10 = k)) || (st.chValid && decide (11 = k)) || (st.crcOk && decide (12 = k)) ||
      (st.ihValid && decide (13 = k))) := by
  have herr : (st.err.toByte.setWidth 32).getLsbD k = st.err.toByte.getLsbD k := by
    rw [BitVec.getLsbD_setWidth]
    by_cases hk : k < 32
    · simp [hk]
    · simp [hk, BitVec.getLsbD_of_ge _ _ (show 8 ≤ k by omega)]
  simp [Status.toWord, BitVec.getLsbD_or, flagBit_getLsbD, herr]

/-- Settles O34, from the register's value bit by bit. -/
theorem statusLayout : Obligations.StatusLayout := by
  refine ⟨fun st => ⟨?err, ?_, ?_, ?_, ?_, ?_, ?_, ?reserved⟩, rfl, rfl, rfl, rfl, rfl, rfl, rfl, rfl, rfl⟩
  case err =>
    ext k hk
    have h : 8 ≠ k ∧ 9 ≠ k ∧ 10 ≠ k ∧ 11 ≠ k ∧ 12 ≠ k ∧ 13 ≠ k := by omega
    simp [Status.toWord_getLsbD, h, hk]
  case reserved =>
    ext k hk
    have h : 8 ≠ 14 + k ∧ 9 ≠ 14 + k ∧ 10 ≠ 14 + k ∧ 11 ≠ 14 + k ∧ 12 ≠ 14 + k ∧ 13 ≠ 14 + k := by omega
    simp [Status.toWord_getLsbD, h, BitVec.getLsbD_of_ge _ _ (show 8 ≤ 14 + k by omega)]
  all_goals
    rw [Status.toWord_getLsbD, BitVec.getLsbD_of_ge _ _ (by decide)]
    simp

end Sys2Proof.Machine

/-! # The step and the valid input

20_memory.md R70 and R73: a step performs the next operation of the host, and no command reads `IBUF` at or above
`ILEN`. -/

namespace Sys2Proof.Machine

/-! ## The step -/

theorem step_of_pending_nil {s : State} (h : s.pending = []) : step s = .next s := by
  rw [step, stepPending, h]

theorem step_of_pending_cons {s : State} {op : HostOp} {ops : List HostOp} (h : s.pending = op :: ops) :
    step s = perform op { s with pending := ops } := by
  rw [step, stepPending, h]

/-- A legal word written to `CMD` runs its command (10_state.md R25). -/
theorem perform_command {w : Word} {i : Instr} (h : decodeCommand w = .ok i) (s : State) :
    perform (.regWrite 0x00 w) s = exec i s := by
  show issueCommand w s = exec i s
  rw [issueCommand, h]

/-- Settles O5, from what the queue holds. -/
theorem stepRunsDecodedCommand : Obligations.StepRunsDecodedCommand :=
  ⟨fun _ h => step_of_pending_nil h, fun _ _ _ h => step_of_pending_cons h,
    fun _ _ _ _ h hdecode => (step_of_pending_cons h).trans (perform_command hdecode _)⟩

/-! ## The same machine with another `IBUF` -/

/-- The machine with other bytes in `IBUF`. -/
def State.withIbuf (s : State) (m : Memory) (draw : Nat) : State := { s with ibuf := m, ibufDraw := draw }

@[simp] theorem State.withIbuf_pPos (s : State) (m : Memory) (draw : Nat) : (s.withIbuf m draw).pPos = s.pPos := rfl
@[simp] theorem State.withIbuf_chDoff (s : State) (m : Memory) (draw : Nat) :
    (s.withIbuf m draw).chDoff = s.chDoff := rfl

/-- The same end of a command's pseudocode with other bytes in `IBUF`. -/
def Done.withIbuf (m : Memory) (draw : Nat) : Done → Done
  | .ok s         => .ok (s.withIbuf m draw)
  | .err s e info => .err (s.withIbuf m draw) e info

theorem Done.complete_withIbuf (m : Memory) (draw : Nat) (d : Done) :
    (d.withIbuf m draw).complete = d.complete.withIbuf m draw := by
  cases d <;> rfl

/-- Ends that differ in `IBUF` only complete in answers that differ there only. -/
theorem next_complete_withIbuf {d d' : Done} {s' : State} {m : Memory} {draw : Nat} (hd : d' = d.withIbuf m draw)
    (he : (.next d.complete : Answer) = .next s') : (.next d'.complete : Answer) = .next (s'.withIbuf m draw) := by
  cases he
  rw [hd, Done.complete_withIbuf]

section
variable {s : State} {m : Memory} {draw : Nat} (h : s.SameValidInput (s.withIbuf m draw))
include h

/-! ## Reads of the valid input -/

theorem State.SameValidInput.ibufBytes_eq {a n : Nat} (hin : a + n ≤ s.ilen.toNat) :
    (s.withIbuf m draw).ibufBytes a n = s.ibufBytes a n :=
  State.ibufBytes_congr fun k _ hk => h.bytes k (by omega)

theorem State.SameValidInput.ibufWord_eq {a : Nat} (hin : a + 4 ≤ s.ilen.toNat) :
    (s.withIbuf m draw).ibufWord a = s.ibufWord a :=
  State.ibufWord_congr fun k _ hk => h.bytes k (by omega)

theorem State.SameValidInput.input_eq : (s.withIbuf m draw).input = s.input :=
  h.ibufBytes_eq (Nat.zero_add _).le

theorem State.SameValidInput.chunkAt_eq {p len : Nat} (hin : p + 12 + len ≤ s.ilen.toNat) :
    (s.withIbuf m draw).chunkAt p len = s.chunkAt p len := by
  rw [State.chunkAt, State.chunkAt, h.ibufWord_eq (by omega), h.ibufBytes_eq (by omega), h.ibufWord_eq (by omega)]

theorem State.SameValidInput.ihdrAt_eq {a : Nat} (hin : a + 13 ≤ s.ilen.toNat) :
    (s.withIbuf m draw).ihdrAt a = s.ihdrAt a := by
  rw [State.ihdrAt, State.ihdrAt, h.ibufWord_eq (by omega), h.ibufWord_eq (by omega), h.bytes _ (by omega),
    h.bytes _ (by omega), h.bytes _ (by omega), h.bytes _ (by omega), h.bytes _ (by omega)]

/-! ## The bodies: the tests before a read bound its address by `ILEN` -/

theorem crcBufBody_withIbuf : crcBufBody (s.withIbuf m draw) = (crcBufBody s).withIbuf m draw := by
  simp only [crcBufBody, apply_ite (Done.withIbuf m draw)]
  refine ite_congr rfl (fun _ => rfl) fun _ => ite_congr rfl (fun _ => rfl) fun hwindow => ?_
  have hsrc : (s.withIbuf m draw).srcWindow = s.srcWindow := h.ibufBytes_eq (Nat.le_of_not_gt hwindow)
  rw [hsrc]
  rfl

theorem crcSumBody_withIbuf : crcSumBody (s.withIbuf m draw) = (crcSumBody s).withIbuf m draw := by
  simp only [crcSumBody, apply_ite (Done.withIbuf m draw), h.input_eq]
  rfl

theorem pngOpenBody_withIbuf : pngOpenBody (s.withIbuf m draw) = (pngOpenBody s).withIbuf m draw := by
  simp only [pngOpenBody, apply_ite (Done.withIbuf m draw), State.closeParse_ibufBytes]
  refine ite_congr rfl (fun _ => rfl) fun _ => ite_congr rfl (fun _ => rfl) fun hlen => ?_
  rw [h.ibufBytes_eq (Nat.le_of_not_gt hlen)]
  rfl

theorem pngNextBody_withIbuf : pngNextBody (s.withIbuf m draw) = (pngNextBody s).withIbuf m draw := by
  simp only [pngNextBody, apply_ite (Done.withIbuf m draw), State.withIbuf_pPos]
  refine ite_congr rfl (fun _ => rfl) fun _ => ite_congr rfl (fun _ => rfl) fun _ =>
    ite_congr rfl (fun _ => rfl) fun hhead => ?_
  have hlen : (s.withIbuf m draw).ibufWord s.pPos.toNat = s.ibufWord s.pPos.toNat := h.ibufWord_eq (by omega)
  simp only [hlen]
  refine ite_congr rfl (fun _ => rfl) fun hfit => ?_
  rw [h.chunkAt_eq (Nat.le_of_not_gt hfit)]
  rfl

theorem pbEncodeBody_withIbuf : pbEncodeBody (s.withIbuf m draw) = (pbEncodeBody s).withIbuf m draw := by
  simp only [pbEncodeBody, State.emit, apply_ite (Done.withIbuf m draw), h.input_eq]
  rfl

/-- The 13 bytes `PNG_IHDR` reads lie in the current chunk, which the invariant puts below `P_POS` (10_state.md R44). -/
theorem pngIhdrBody_withIbuf (hinv : s.Inv) : pngIhdrBody (s.withIbuf m draw) = (pngIhdrBody s).withIbuf m draw := by
  simp only [pngIhdrBody, apply_ite (Done.withIbuf m draw), State.withIbuf_chDoff]
  refine ite_congr rfl (fun _ => rfl) fun hvalid => ite_congr rfl (fun _ => rfl) fun _ =>
    ite_congr rfl (fun _ => rfl) fun hlen => ?_
  have hv : s.status.chValid = true := by simpa using hvalid
  have hl : s.chLen.toNat = 13 := by rw [not_not.1 hlen]; rfl
  have hpos := (hinv.current_chunk hv).pos_eq
  have hle := (hinv.open_parse (hinv.chValid_open hv)).pos_le
  rw [h.ihdrAt_eq (by omega)]
  rfl

/-! ## The walk of `PNG_PEEK` -/

/-- `PNG_NEXT` moves neither `ILEN` nor a byte of `IBUF`. -/
theorem State.SameValidInput.pngNext {u : State} (hn : pngNextBody s = .ok u) :
    u.SameValidInput (u.withIbuf m draw) := by
  rcases pngNextBody_ok hn with rfl | ⟨c, rfl⟩ <;> exact ⟨rfl, h.bytes⟩

theorem State.SameValidInput.openParse :
    s.closeParse.openParse.SameValidInput (s.closeParse.openParse.withIbuf m draw) :=
  ⟨rfl, h.bytes⟩

end

theorem pngPeekWalk_withIbuf {m : Memory} {draw : Nat} (fuel : Nat) {s : State} (hinv : s.Inv)
    (h : s.SameValidInput (s.withIbuf m draw)) :
    pngPeekWalk fuel (s.withIbuf m draw) = (pngPeekWalk fuel s).map (Done.withIbuf m draw) := by
  induction fuel generalizing s with
  | zero => rfl
  | succ fuel ih =>
    rw [pngPeekWalk, pngPeekWalk, pngNextBody_withIbuf h]
    cases hn : pngNextBody s with
    | err u e info => rfl
    | ok u =>
      have hu := h.pngNext hn
      have huinv := hinv.pngNext hn
      simp only [Done.withIbuf, apply_ite (Option.map (Done.withIbuf m draw))]
      exact ite_congr rfl (fun _ => rfl) fun _ =>
        ite_congr rfl (fun _ => congrArg some (pngIhdrBody_withIbuf hu huinv)) fun _ => ih huinv hu

section
variable {s : State} {m : Memory} {draw : Nat} (h : s.SameValidInput (s.withIbuf m draw)) (hinv : s.Inv)
include h hinv

theorem pngPeekBody_withIbuf : pngPeekBody (s.withIbuf m draw) = (pngPeekBody s).map (Done.withIbuf m draw) := by
  rw [pngPeekBody, pngPeekBody, pngOpenBody_withIbuf h]
  rcases pngOpenBody_cases s with ⟨-, e⟩ | ⟨-, -, e⟩ | ⟨hilen, hlen, hsig, e⟩ <;> rw [e]
  · rfl
  · rfl
  · exact pngPeekWalk_withIbuf _ (hinv.openParse hilen hlen hsig) h.openParse

/-! ## The commands -/

/-- The step on two machines (20_memory.md R73): the command answers alike but for the other machine's `IBUF`. -/
theorem exec_withIbuf {i : Instr} (hi : i.format = .cw) {s' : State} (he : exec i s = .next s') :
    exec i (s.withIbuf m draw) = .next (s'.withIbuf m draw) := by
  cases i with
  | nop | sreset | crcInit | crcByte =>
    cases he
    rfl
  | crcBuf => exact next_complete_withIbuf (crcBufBody_withIbuf h) he
  | crcSum => exact next_complete_withIbuf (crcSumBody_withIbuf h) he
  | pngOpen => exact next_complete_withIbuf (pngOpenBody_withIbuf h) he
  | pngNext => exact next_complete_withIbuf (pngNextBody_withIbuf h) he
  | pngIhdr => exact next_complete_withIbuf (pngIhdrBody_withIbuf h hinv) he
  | pbEncode => exact next_complete_withIbuf (pbEncodeBody_withIbuf h) he
  | pngPeek =>
    obtain ⟨d, hd, rfl⟩ := exec_pngPeek he
    show execPngPeek _ = _
    rw [execPngPeek, pngPeekBody_withIbuf h hinv, hd]
    exact next_complete_withIbuf rfl rfl
  | pbLit | pbRun | pngSig | pngChunk | pngIhdrBody | pngSrgbBody => simp [Instr.format] at hi

end

/-- Settles O43, command by command: the second machine is the first with another `IBUF`. -/
theorem commandsReadOnlyValidInput : Obligations.CommandsReadOnlyValidInput := by
  intro i s t s' hi hinv h he
  have ht : t = s.withIbuf t.ibuf t.ibufDraw := h.rest
  show exec i t = .next (s'.withIbuf t.ibuf t.ibufDraw)
  generalize t.ibuf = m, t.ibufDraw = draw at ht
  subst ht
  exact exec_withIbuf h hinv hi he

end Sys2Proof.Machine

/-! # The encodings

30_encoding.md R80 to R87, R90: the decoder undoes the encoder, the legal command words are the words of the commands, and what
the machine does with a record of a data format. -/

namespace Sys2Proof

/-! ## Command words -/

/-- 30_encoding.md R80: the three fields of the word with this opcode, this immediate and the reserved bits 0. -/
theorem commandWord_fields (op imm : Byte) :
    (BitVec.ofNat 32 (op.toNat + imm.toNat * 0x100)).extractLsb' 16 16 = 0 ∧
    (BitVec.ofNat 32 (op.toNat + imm.toNat * 0x100)).extractLsb' 0 8 = op ∧
    (BitVec.ofNat 32 (op.toNat + imm.toNat * 0x100)).extractLsb' 8 8 = imm := by
  have hop := op.isLt
  have himm := imm.isLt
  refine ⟨?_, ?_, ?_⟩ <;>
  · apply BitVec.eq_of_toNat_eq
    simp only [BitVec.extractLsb'_toNat, BitVec.toNat_ofNat, Nat.shiftRight_eq_div_pow, BitVec.ofNat_eq_ofNat]
    omega

theorem decodeCommand_crcByte (b : Byte) : decodeCommand (BitVec.ofNat 32 (0x11 + b.toNat * 0x100)) = .ok (.crcByte b) := by
  obtain ⟨hres, hop, himm⟩ := commandWord_fields 0x11 b
  simp only [BitVec.reduceToNat] at hres hop himm
  simp [decodeCommand, hres, hop, himm]

/-- 30_encoding.md R81: the word of a command decodes to the command. -/
theorem decodeCommand_encodeWord {i : Instr} {w : Word} (h : encodeWord i = some w) : decodeCommand w = .ok i := by
  cases i with
  | crcByte b =>
    cases h
    exact decodeCommand_crcByte b
  | nop | sreset | crcInit | crcBuf | crcSum | pngOpen | pngNext | pngIhdr | pngPeek | pbEncode =>
    cases h
    rfl
  | pbLit | pbRun | pngSig | pngChunk | pngIhdrBody | pngSrgbBody => cases h

/-- The decoder and the encoder of command words are inverse to each other. -/
theorem decodeCommand_eq_ok_iff {w : Word} {i : Instr} : decodeCommand w = .ok i ↔ encodeWord i = some w :=
  ⟨encodeWord_of_decodeCommand, decodeCommand_encodeWord⟩

/-- Settles O4: the word of the command a word decodes to is that word. -/
theorem decodedWordReencodes : Obligations.DecodedWordReencodes :=
  fun _ _ h => ⟨encodeWord_of_decodeCommand h, format_of_decodeCommand h⟩

/-! ## Decode after encode -/

theorem decode_encode_of_word {i : Instr} {w : Word} (h : encodeWord i = some w) (rest : List Byte) :
    decode .cw (encode i ++ rest) = .ok (i, rest) := by
  rw [encode_of_word h, decode_cw, takeWord_be32Bytes]
  simp only [decodeCommand_encodeWord h]

/-- Settles O2, format by format: each `take` function gives back the record at the head and the bytes after it. -/
theorem encodeThenDecode : Obligations.EncodeThenDecode := by
  intro i rest hwf
  cases i with
  | nop | sreset | crcInit | crcByte | crcBuf | crcSum | pngOpen | pngNext | pngIhdr | pngPeek | pbEncode =>
    exact decode_encode_of_word rfl rest
  | pbLit data =>
    have hlen : 1 ≤ data.length ∧ data.length ≤ 128 := of_decide_eq_true hwf
    simp only [Instr.format, decode_pbToken, encode_pbLit, takeToken_literalBytes hlen]
  | pbRun count value =>
    have hcount : 3 ≤ count ∧ count ≤ 130 := of_decide_eq_true hwf
    simp only [Instr.format, decode_pbToken, encode_pbRun, takeToken_runBytes hcount]
  | pngSig => rfl
  | pngChunk tag data crc =>
    have hlen : data.length < 4294967296 := of_decide_eq_true hwf
    simp only [Instr.format, decode_pngChunk, encode_pngChunk, takeChunkRecord_chunkBytes tag data crc rest hlen]
  | pngIhdrBody body => simp only [Instr.format, decode_ihdrBody, encode_pngIhdrBody, takeIhdrBody_ihdrBytes]
  | pngSrgbBody intent => rfl

/-- Settles O1: the decoder evaluated on words and bytes written out from 30_encoding.md R81, R83 to R86, R90. -/
theorem specWordsDecode : Obligations.SpecWordsDecode :=
  ⟨rfl, rfl, rfl, rfl, rfl, rfl, rfl, rfl, rfl, rfl, rfl, rfl, rfl, rfl, rfl, rfl, rfl⟩

/-! ## The legal words -/

/-- The opcodes of 30_encoding.md R81. -/
def assignedOpcodes : List Byte := [0x00, 0x01, 0x10, 0x11, 0x12, 0x13, 0x20, 0x21, 0x22, 0x23, 0x30]

/-- An assigned opcode is that of `CRC_BYTE` or of a command without an immediate: checked on all 256 bytes. -/
theorem mem_assignedOpcodes_iff : ∀ op : Byte, op ∈ assignedOpcodes ↔ op = 0x11 ∨ (fixedCommand op).isSome := by
  decide

/-- 30_encoding.md R82, the other way round: which words are legal. -/
theorem exists_decodeCommand_iff (w : Word) : (∃ i, decodeCommand w = .ok i) ↔
    w.extractLsb' 16 16 = 0 ∧
      (w.extractLsb' 0 8 = 0x11 ∨ (fixedCommand (w.extractLsb' 0 8)).isSome ∧ w.extractLsb' 8 8 = 0) := by
  unfold decodeCommand
  dsimp only
  split
  · next hres => exact iff_of_false (by simp) fun h => hres h.1
  · next hres =>
    split
    · next hop => exact iff_of_true ⟨_, rfl⟩ ⟨not_not.1 hres, .inl hop⟩
    · next hop =>
      cases fixedCommand (w.extractLsb' 0 8) with
      | none => exact iff_of_false (by simp) fun h => by simpa using h.2.resolve_left hop
      | some i =>
        dsimp only
        split
        · next himm => exact iff_of_true ⟨_, rfl⟩ ⟨not_not.1 hres, .inr ⟨rfl, himm⟩⟩
        · next himm => exact iff_of_false (by simp) fun h => himm (h.2.resolve_left hop).2

/-- Every command once: the ten without an immediate, and `CRC_BYTE` with each of its 256 immediates. -/
def allCommands : List Instr :=
  [.nop, .sreset, .crcInit, .crcBuf, .crcSum, .pngOpen, .pngNext, .pngIhdr, .pngPeek, .pbEncode] ++
    (List.finRange 256).map fun n => .crcByte (BitVec.ofFin n)

theorem mem_allCommands {i : Instr} (h : i.format = .cw) : i ∈ allCommands := by
  cases i with
  | crcByte b => exact List.mem_append_right _ (List.mem_map.2 ⟨b.toFin, List.mem_finRange _, rfl⟩)
  | nop | sreset | crcInit | crcBuf | crcSum | pngOpen | pngNext | pngIhdr | pngPeek | pbEncode => simp [allCommands]
  | pbLit | pbRun | pngSig | pngChunk | pngIhdrBody | pngSrgbBody => cases h

theorem allCommands_nodup : allCommands.Nodup := by
  refine List.nodup_append.2 ⟨by decide, (List.nodup_finRange 256).map fun m n h => ?_, ?_⟩
  · simpa using h
  · simp

/-- The words of the commands: the 266 legal words of 30_encoding.md R82. -/
def legalWords : List Word := allCommands.filterMap encodeWord

theorem legalWords_nodup : legalWords.Nodup := by
  refine allCommands_nodup.filterMap fun i j w hi hj => ?_
  have hw := decodeCommand_encodeWord hi
  rw [decodeCommand_encodeWord hj] at hw
  exact (Except.ok.inj hw).symm

theorem legalWords_length : legalWords.length = 266 := by
  simp [legalWords, allCommands, encodeWord, List.filterMap_map, Function.comp_def]

theorem mem_legalWords_iff {w : Word} : w ∈ legalWords ↔ ∃ i, decodeCommand w = .ok i := by
  simp only [legalWords, List.mem_filterMap, decodeCommand_eq_ok_iff]
  exact ⟨fun ⟨i, _, h⟩ => ⟨i, h⟩, fun ⟨i, h⟩ => ⟨i, mem_allCommands (format_of_decodeCommand (decodeCommand_encodeWord h)), h⟩⟩

end Sys2Proof

namespace Sys2Proof.Machine

/-- 30_encoding.md R82: an illegal word executes nothing. -/
theorem perform_illegal {w : Word} (h : ∀ i, decodeCommand w ≠ .ok i) (s : State) :
    perform (.regWrite 0x00 w) s = .next (s.completeError .illegalCmd w.toNat) := by
  show issueCommand w s = _
  unfold issueCommand
  split
  · next i hi => exact absurd hi (h i)
  · rfl

/-- Settles O3: which words decode, the list of them, and the completion `ILLEGAL_CMD` of every other. -/
theorem illegalWordsExecuteNothing : Obligations.IllegalWordsExecuteNothing := by
  refine ⟨fun w => ?_, ⟨legalWords, legalWords_nodup, legalWords_length, fun w => mem_legalWords_iff⟩, fun w s h => ?_⟩
  · have hop := mem_assignedOpcodes_iff (w.extractLsb' 0 8)
    rw [assignedOpcodes] at hop
    rw [exists_decodeCommand_iff, hop]
    tauto
  · rw [perform_illegal h, State.completeError, BitVec.ofNat_toNat, BitVec.setWidth_eq]
    rfl

/-! ## Tokens -/

section
variable {s : State} {bs : List Byte} (hfit : s.olen.toNat + bs.length ≤ s.obufSize.toNat)
include hfit

/-- 42_packbits.md R164: an output that fits `OBUF` is stored at the old `OLEN`, and `OLEN` is moved on. -/
theorem State.emit_of_fits : s.emit bs = .ok { s with
    obuf := Memory.writeBytes s.obuf s.olen.toNat bs
    olen := BitVec.ofNat 32 (s.olen.toNat + bs.length) } :=
  if_neg (Nat.not_lt.2 hfit)

theorem State.emit_complete_olen : (s.emit bs).complete.olen.toNat = s.olen.toNat + bs.length := by
  rw [State.emit_of_fits hfit]
  exact Nat.mod_eq_of_lt (Nat.lt_of_le_of_lt hfit s.obufSize.isLt)

theorem State.emit_complete_obufByte (a : Nat) : (s.emit bs).complete.obufByte a =
    if s.olen.toNat ≤ a ∧ a < s.olen.toNat + bs.length then (bs[a - s.olen.toNat]?).getD (s.obufByte a)
    else s.obufByte a := by
  rw [State.emit_of_fits hfit]
  simp only [State.obufByte, Done.complete_ok, State.completeOk_obuf, State.completeOk_obufDraw, Memory.read_writeBytes]
  split
  · next hin => rw [List.getElem?_eq_getElem (by omega)]; rfl
  · rfl

end

/-- Settles O21: either token is `emit` of its bytes (42_packbits.md R162, R164), which fit `OBUF` or do not. -/
theorem tokenEffects : Obligations.TokenEffects := by
  intro s i bytes htoken
  have hexec : exec i s = .next (s.emit bytes).complete := by
    obtain ⟨data, rfl, -, rfl⟩ | ⟨count, value, rfl, -, rfl⟩ := htoken <;> rfl
  rw [hexec]
  refine ⟨fun hover => ⟨_, rfl, ?_⟩, fun hfit => ⟨_, rfl, ?_, State.emit_complete_olen hfit, fun k b hk => ?_, fun a ha => ?_⟩⟩
  · rw [State.emit, if_pos hover]
    rfl
  · rw [State.emit_of_fits hfit]
    rfl
  · have hlt : k < bytes.length := (List.getElem?_eq_some_iff.1 hk).1
    rw [State.emit_complete_obufByte hfit, if_pos (by omega), Nat.add_sub_cancel_left, hk]
    rfl
  · rw [State.emit_complete_obufByte hfit, if_neg (by omega)]

/-! ## The records the commands take -/

/-- The IHDR body at an offset of `IBUF` (30_encoding.md R85). -/
theorem State.takeIhdrBody_ibufBytes (s : State) (d : Nat) : takeIhdrBody (s.ibufBytes d 13) = some (s.ihdrAt d, []) := by
  simp only [takeIhdrBody, State.takeWord_ibufBytes s d 13 (by omega), Option.bind_some,
    State.takeWord_ibufBytes s (d + 4) 9 (by omega)]
  rfl

/-- `PNG_OPEN` at a signature opens the parse, as the signature's record does (41_png_chunk.md R133). -/
theorem exec_pngOpen_of_signature {s : State} {rest : List Byte} (hlen : s.ilen.toNat ≤ s.ibufSize.toNat)
    (h : decode .pngSig s.input = .ok (.pngSig, rest)) : exec .pngOpen s = exec .pngSig s := by
  rw [decode_pngSig] at h
  split_ifs at h with hsig
  have h8 : 8 ≤ s.ilen.toNat := by
    have hlength := congrArg List.length hsig
    simp [State.input, pngSignature] at hlength
    omega
  rw [State.input, State.ibufBytes_take s 0 _ 8 h8] at hsig
  rcases pngOpenBody_cases s with ⟨hover, -⟩ | ⟨-, hshort | hother, -⟩ | ⟨-, -, -, e⟩
  · omega
  · omega
  · exact absurd hsig hother
  · exact congrArg (Host.Outcome.next ∘ Done.complete) e

/-- `PNG_NEXT` at a whole chunk takes it, as the chunk's record does (41_png_chunk.md R134). -/
theorem exec_pngNext_of_chunk {s : State} {i : Instr} {rest : List Byte} (hopen : s.status.pOpen = true)
    (h : decode .pngChunk (s.ibufBytes s.pPos.toNat (s.ilen.toNat - s.pPos.toNat)) = .ok (i, rest)) :
    exec .pngNext s = exec i s := by
  rw [decode_pngChunk, State.takeChunkRecord_ibufBytes] at h
  split_ifs at h with hwhole
  cases h
  obtain ⟨hhead, hdata⟩ := hwhole
  rcases pngNextBody_cases s with ⟨hclosed, -⟩ | ⟨-, hend, -⟩ | ⟨-, -, hshort, -⟩ | ⟨-, -, e⟩
  · simp [hopen] at hclosed
  · omega
  · omega
  · exact congrArg (Host.Outcome.next ∘ Done.complete) e

/-- `PNG_IHDR` at an IHDR body loads it, as the body's record does (41_png_chunk.md R135). -/
theorem exec_pngIhdr_of_body {s : State} {i : Instr} {rest : List Byte} (hvalid : s.status.chValid = true)
    (htag : s.chTag = tagIhdr) (hlen : s.chLen = 13)
    (h : decode .ihdrBody (s.ibufBytes s.chDoff.toNat s.chLen.toNat) = .ok (i, rest)) : exec .pngIhdr s = exec i s := by
  have h13 : s.chLen.toNat = 13 := congrArg BitVec.toNat hlen
  rw [decode_ihdrBody, h13, State.takeIhdrBody_ibufBytes] at h
  cases h
  rcases pngIhdrBody_cases s with ⟨hinvalid | hother, -⟩ | ⟨-, -, hne, -⟩ | ⟨-, -, -, e⟩
  · simp [hvalid] at hinvalid
  · exact absurd htag hother
  · exact absurd hlen hne
  · exact congrArg (Host.Outcome.next ∘ Done.complete) e

/-- Settles O22, command by command. -/
theorem commandsRunTheRecordsTheyMeet : Obligations.CommandsRunTheRecordsTheyMeet :=
  ⟨fun _ _ hlen h => exec_pngOpen_of_signature hlen h, fun _ _ _ hopen _ h => exec_pngNext_of_chunk hopen h,
    fun _ _ _ hvalid htag hlen h => exec_pngIhdr_of_body hvalid htag hlen h⟩

end Sys2Proof.Machine

/-! # The CRC unit

40_crc32.md R110 to R119: the table-driven step is the bitwise one, the fold takes its bytes in pieces, and the four commands. -/

namespace Sys2Proof.Machine

/-! ## The step (40_crc32.md R114)

The eight shifts are linear, so the low byte and the bits above it can be shifted apart: the table holds the shifts of the low
byte, and the bits above it, where no polynomial enters, move down by eight places. -/

theorem crcShift_xor (x y : Word) : crcShift (x ^^^ y) = crcShift x ^^^ crcShift y := by
  simp only [crcShift, BitVec.getLsbD_xor, BitVec.ushiftRight_xor_distrib]
  cases x.getLsbD 0 <;> cases y.getLsbD 0 <;> dsimp
  case false.true | true.false => ac_rfl
  case true.true =>
    rw [BitVec.xor_comm (y >>> 1) crcPoly, BitVec.xor_assoc, ← BitVec.xor_assoc crcPoly, BitVec.xor_self, BitVec.zero_xor]

theorem crcShift8_xor (x y : Word) : crcShift8 (x ^^^ y) = crcShift8 x ^^^ crcShift8 y := by
  simp only [crcShift8, crcShift_xor]

theorem crcShift_ushiftRight {x : Word} {k : Nat} (h : x.getLsbD k = false) : crcShift (x >>> k) = x >>> (k + 1) := by
  simp [crcShift, h, BitVec.shiftRight_add]

theorem crcShift8_of_low_byte_zero {x : Word} (h : ∀ k < 8, x.getLsbD k = false) : crcShift8 x = x >>> 8 := by
  have shift (k : Nat) (hk : k < 8) : crcShift (x >>> k) = x >>> (k + 1) := crcShift_ushiftRight (h k hk)
  have first : crcShift x = x >>> 1 := by simpa using shift 0 (by decide)
  rw [crcShift8, first, shift 1, shift 2, shift 3, shift 4, shift 5, shift 6, shift 7] <;> decide

theorem setWidth_byte_ushiftRight (b : Byte) : (b.setWidth 32 : Word) >>> 8 = 0#32 := by
  apply BitVec.eq_of_toNat_eq
  have hb := b.isLt
  simp [Nat.shiftRight_eq_div_pow]
  omega

theorem crcShift8_eq_crcTable_xor (x : Word) : crcShift8 x = crcTable (x.extractLsb' 0 8) ^^^ (x >>> 8) := by
  have hlow : ∀ k < 8, ((x.extractLsb' 0 8).setWidth 32 ^^^ x).getLsbD k = false := by
    intro k hk
    have hk32 : k < 32 := by omega
    simp [hk, hk32]
  calc crcShift8 x
      = crcShift8 ((x.extractLsb' 0 8).setWidth 32 ^^^ ((x.extractLsb' 0 8).setWidth 32 ^^^ x)) := by
        rw [← BitVec.xor_assoc, BitVec.xor_self, BitVec.zero_xor]
    _ = crcTable (x.extractLsb' 0 8) ^^^ (((x.extractLsb' 0 8).setWidth 32 ^^^ x) >>> 8) := by
        rw [crcShift8_xor, crcShift8_of_low_byte_zero hlow, crcTable]
    _ = crcTable (x.extractLsb' 0 8) ^^^ (x >>> 8) := by
        rw [BitVec.ushiftRight_xor_distrib, setWidth_byte_ushiftRight, BitVec.zero_xor]

/-- Settles O44: the exclusive-or with the byte does not reach the bits above it. -/
theorem crcStepIsBitwise : Obligations.CrcStepIsBitwise := by
  intro c b
  rw [crcShift8_eq_crcTable_xor, BitVec.ushiftRight_xor_distrib, setWidth_byte_ushiftRight, BitVec.xor_zero, crcStep]

/-! ## The fold (40_crc32.md R112, R113, R119) -/

theorem crcFold_append (c : Word) (s t : List Byte) : crcFold c (s ++ t) = crcFold (crcFold c s) t := by
  induction s generalizing c with
  | nil => rfl
  | cons b s ih => exact ih (crcStep c b)

@[simp] theorem not32_not32 (v : Word) : not32 (not32 v) = v := by
  rw [not32, not32, BitVec.xor_assoc, BitVec.xor_self]
  exact BitVec.xor_zero

/-- Settles O45: the second complement undoes the first. -/
theorem crcFoldsInPieces : Obligations.CrcFoldsInPieces := by
  refine ⟨crcFold_append, fun s t => ?_⟩
  rw [crc32, crc32, not32_not32, crcFold_append]

/-- Settles O46, by evaluation. -/
theorem crcCheckValues : Obligations.CrcCheckValues :=
  ⟨rfl, by decide +kernel⟩

/-! ## The commands (40_crc32.md R115 to R118) -/

/-- Settles O9. -/
theorem crcInitPresets : Obligations.CrcInitPresets :=
  ⟨decodeCommand_encodeWord rfl, fun _ => rfl⟩

/-- Settles O10: folding one byte is one `crc_step`. -/
theorem crcByteFoldsImmediate : Obligations.CrcByteFoldsImmediate :=
  ⟨decodeCommand_crcByte, fun _ _ => rfl⟩

theorem exec_crcBuf {s : State} {d : Done} (h : crcBufBody s = d) : exec .crcBuf s = .next d.complete :=
  congrArg (Host.Outcome.next ∘ Done.complete) h

theorem exec_crcSum {s : State} {d : Done} (h : crcSumBody s = d) : exec .crcSum s = .next d.complete :=
  congrArg (Host.Outcome.next ∘ Done.complete) h

/-- Settles O11: each end of the body has its own range of `ILEN` and of the window. -/
theorem crcBufFoldsWindow : Obligations.CrcBufFoldsWindow := by
  refine ⟨decodeCommand_encodeWord rfl, fun s => ?_⟩
  rcases crcBufBody_cases s with ⟨hover, e⟩ | ⟨hin, hout, e⟩ | ⟨hin, hfits, e⟩
  · exact ⟨fun _ => exec_crcBuf e, fun hle => absurd hover (Nat.not_lt.2 hle), fun hle => absurd hover (Nat.not_lt.2 hle)⟩
  · exact ⟨fun hgt => absurd hgt hin, fun _ _ => exec_crcBuf e, fun _ hle => absurd hout (Nat.not_lt.2 hle)⟩
  · exact ⟨fun hgt => absurd hgt hin, fun _ hgt => absurd hfits (Nat.not_le.2 hgt), fun _ _ => exec_crcBuf e⟩

/-- What `CRC_INIT` leaves when the window of `CRC_BUF` is the whole valid input (40_crc32.md R118). -/
def State.initOverInput (s : State) : State := ({ s with srcOff := 0, srcLen := s.ilen }.foldCrc crcInitVal []).completeOk

theorem exec_crcInit_eq_initOverInput (s : State) :
    exec .crcInit { s with srcOff := 0, srcLen := s.ilen } = .next s.initOverInput := rfl

theorem State.initOverInput_srcWindow (s : State) : s.initOverInput.srcWindow = s.input :=
  State.ibufBytes_of_ibuf (s := s.initOverInput) (t := s) rfl rfl 0 s.ilen.toNat

/-- 40_crc32.md R118: after `CRC_INIT`, `CRC_BUF` over the whole valid input leaves what `CRC_SUM` leaves. -/
theorem exec_crcBuf_initOverInput {s : State} (hin : ¬ s.ilenOver) : exec .crcBuf s.initOverInput =
    .next { (s.foldCrc crcInitVal s.input).completeOk with srcOff := 0, srcLen := s.ilen } := by
  have hend : s.initOverInput.srcOff.toNat + s.initOverInput.srcLen.toNat = s.ilen.toNat := Nat.zero_add _
  rcases crcBufBody_cases s.initOverInput with ⟨hover, -⟩ | ⟨-, hout, -⟩ | ⟨-, -, e⟩
  · exact absurd hover hin
  · exact absurd hend (Nat.ne_of_gt hout)
  · rw [exec_crcBuf e, State.initOverInput_srcWindow]
    rfl

/-- Settles O12: `CRC_SUM` folds the valid input, and so do `CRC_INIT` and `CRC_BUF` with that window. -/
theorem crcSumFoldsInput : Obligations.CrcSumFoldsInput := by
  refine ⟨decodeCommand_encodeWord rfl, fun s => ?_⟩
  rcases crcSumBody_cases s with ⟨hover, e⟩ | ⟨hin, e⟩
  · exact ⟨fun _ => exec_crcSum e, fun hle => absurd hover (Nat.not_lt.2 hle)⟩
  · refine ⟨fun hgt => absurd hgt hin, fun _ => ⟨_, exec_crcSum e, rfl, ?_, ?_⟩⟩
    · exact State.regRead_num _ .crcOut
    · exact ⟨_, _, exec_crcInit_eq_initOverInput s, exec_crcBuf_initOverInput hin, rfl⟩

end Sys2Proof.Machine

/-! # The PNG chunk processor

41_png_chunk.md R130 to R139: each command's ends, the walk of `png_read` as the walk of `PNG_NEXT`, `PNG_PEEK` as the commands
it stands for, and the verdict nothing reads. -/

namespace Sys2Proof.Machine

/-! ## How a command answers -/

theorem exec_pngOpen {s : State} {d : Done} (h : pngOpenBody s = d) : exec .pngOpen s = .next d.complete :=
  congrArg (Host.Outcome.next ∘ Done.complete) h

theorem exec_pngNext {s : State} {d : Done} (h : pngNextBody s = d) : exec .pngNext s = .next d.complete :=
  congrArg (Host.Outcome.next ∘ Done.complete) h

theorem exec_pngIhdr {s : State} {d : Done} (h : pngIhdrBody s = d) : exec .pngIhdr s = .next d.complete :=
  congrArg (Host.Outcome.next ∘ Done.complete) h

theorem exec_pngPeek_of_body {s : State} {d : Done} (h : pngPeekBody s = some d) : exec .pngPeek s = .next d.complete := by
  show execPngPeek s = _
  rw [execPngPeek, h]

/-- `ERRINFO` takes the value of a register whole (60_exceptions.md R212: the number is below 2^32). -/
theorem State.completeError_toNat (s : State) (e : Code) (w : Word) :
    s.completeError e w.toNat = { s with status := s.status.completedWith e, errInfo := w } := by
  rw [State.completeError, BitVec.ofNat_toNat, BitVec.setWidth_eq]

/-! ## `IBUF` under the updates of PCP -/

@[simp] theorem State.takeChunk_ibufBytes (s : State) (c : Chunk) (a n : Nat) :
    (s.takeChunk c).ibufBytes a n = s.ibufBytes a n :=
  State.ibufBytes_of_ibuf (s := s.takeChunk c) (t := s) rfl rfl a n

@[simp] theorem State.openParse_ibufBytes (s : State) (a n : Nat) : s.openParse.ibufBytes a n = s.ibufBytes a n :=
  State.ibufBytes_of_ibuf (s := s.openParse) (t := s) rfl rfl a n

@[simp] theorem State.completeOk_ibufBytes (s : State) (a n : Nat) : s.completeOk.ibufBytes a n = s.ibufBytes a n :=
  State.ibufBytes_of_ibuf (s := s.completeOk) (t := s) rfl rfl a n

@[simp] theorem State.completeOk_chunkAt (s : State) (p len : Nat) : s.completeOk.chunkAt p len = s.chunkAt p len := by
  rw [State.chunkAt, State.completeOk_ibufBytes]
  rfl

/-! ## The single commands (41_png_chunk.md R133 to R135) -/

/-- Settles O13: each end of the body has its own range of `ILEN` and of the first eight bytes. -/
theorem pngOpenTestsSignature : Obligations.PngOpenTestsSignature := by
  refine ⟨decodeCommand_encodeWord rfl, ?_⟩
  rintro s c rfl
  rcases pngOpenBody_cases s with ⟨hover, e⟩ | ⟨hin, hbad, e⟩ | ⟨hin, h8, hsig, e⟩
  · have hnle : ¬ s.ilen.toNat ≤ s.ibufSize.toNat := Nat.not_le.2 hover
    exact ⟨fun _ => exec_pngOpen e, fun hle => absurd hle hnle, fun hle => absurd hle hnle, fun hle => absurd hle hnle⟩
  · exact ⟨fun hgt => absurd hgt hin, fun _ _ => exec_pngOpen e, fun _ _ _ => exec_pngOpen e,
      fun _ h8 hsig => (hbad.elim (Nat.not_lt.2 h8) fun hne => hne hsig).elim⟩
  · exact ⟨fun hgt => absurd hgt hin, fun _ hlt => absurd h8 (Nat.not_le.2 hlt), fun _ _ hne => absurd hsig hne,
      fun _ _ _ => exec_pngOpen e⟩

/-- The chunk at `P_POS`, with as many data bytes as its length field says. -/
def State.nextChunk (s : State) : Chunk := s.chunkAt s.pPos.toNat (s.ibufWord s.pPos.toNat).toNat

section
variable {s : State} (hopen : s.status.pOpen = true)
include hopen

theorem pngNextBody_of_end (hend : s.pPos.toNat = s.ilen.toNat) : pngNextBody s = .ok s.endOfStream := by
  simp [pngNextBody, hopen, hend]

/-- Fewer than 12 bytes are left, or fewer than the chunk's length field asks for. -/
theorem pngNextBody_of_truncated (hne : s.pPos.toNat ≠ s.ilen.toNat)
    (hshort : s.ilen.toNat < s.pPos.toNat + 12 + (s.ibufWord s.pPos.toNat).toNat) :
    pngNextBody s = .err s .fmtTruncated s.pPos.toNat := by
  rcases pngNextBody_cases s with ⟨hclosed, -⟩ | ⟨-, hend, -⟩ | ⟨-, -, -, e⟩ | ⟨-, hfits, -⟩
  · simp [hopen] at hclosed
  · exact absurd hend hne
  · exact e
  · exact absurd hshort (Nat.not_lt.2 hfits)

theorem pngNextBody_of_chunk (hfits : s.pPos.toNat + 12 + (s.ibufWord s.pPos.toNat).toNat ≤ s.ilen.toNat) :
    pngNextBody s = .ok (s.takeChunk s.nextChunk) := by
  rcases pngNextBody_cases s with ⟨hclosed, -⟩ | ⟨-, hend, -⟩ | ⟨-, -, hshort, -⟩ | ⟨-, -, e⟩
  · simp [hopen] at hclosed
  · omega
  · omega
  · exact e

end

/-- 41_png_chunk.md R131, R134: `CH_CALC` is the CRC of the tag bytes and the data bytes as they stand in `IBUF`. -/
theorem State.chunkCalc_chunkAt (s : State) (p len : Nat) :
    chunkCalc (s.chunkAt p len).tag (s.chunkAt p len).data = crc32 (s.ibufBytes (p + 4) (4 + len)) := by
  rw [chunkCalc, State.chunkAt, State.be32Bytes_ibufWord, State.ibufBytes_append]

/-- 41_png_chunk.md R139: the verdict compares the CRC computed with the CRC stored. -/
theorem chunkCrcOk_eq_decide (c : Chunk) : chunkCrcOk c = decide (chunkCalc c.tag c.data = c.crc) := rfl

/-- What taking the chunk at an offset of `IBUF` writes, told by the bytes of `IBUF` (41_png_chunk.md R134). -/
theorem State.takeChunk_chunkAt (s : State) (p : Nat) (len : Word) : s.takeChunk (s.chunkAt p len.toNat) = { s with
    chLen  := len
    chTag  := s.ibufWord (p + 4)
    chDoff := BitVec.ofNat 32 (s.pPos.toNat + 8)
    chCrc  := s.ibufWord (p + 8 + len.toNat)
    chCalc := crc32 (s.ibufBytes (p + 4) (4 + len.toNat))
    pPos   := BitVec.ofNat 32 (s.pPos.toNat + 12 + len.toNat)
    status := { s.status with
      chValid := true
      crcOk := decide (crc32 (s.ibufBytes (p + 4) (4 + len.toNat)) = s.ibufWord (p + 8 + len.toNat)) } } := by
  have hdata : (s.chunkAt p len.toNat).data.length = len.toNat := s.ibufBytes_length _ _
  rw [State.takeChunk, chunkCrcOk_eq_decide, State.chunkCalc_chunkAt, hdata, BitVec.ofNat_toNat, BitVec.setWidth_eq]
  rfl

/-- Settles O14, end by end. -/
theorem pngNextYieldsChunk : Obligations.PngNextYieldsChunk := by
  refine ⟨decodeCommand_encodeWord rfl, ?_⟩
  rintro s p len rfl rfl
  have htrunc (ho : s.status.pOpen = true) (hne : s.pPos.toNat ≠ s.ilen.toNat)
      (hshort : s.ilen.toNat < s.pPos.toNat + 12 + (s.ibufWord s.pPos.toNat).toNat) : exec .pngNext s =
      .next { s with status := { s.status with err := .fmtTruncated, sticky := true }, errInfo := s.pPos } :=
    (exec_pngNext (pngNextBody_of_truncated ho hne hshort)).trans (congrArg _ (s.completeError_toNat _ _))
  refine ⟨fun hclosed => exec_pngNext (if_pos hclosed), fun ho hend => exec_pngNext (pngNextBody_of_end ho hend),
    fun ho hlt hshort => htrunc ho (by omega) (by omega), fun ho hhead hshort => htrunc ho (by omega) hshort,
    fun ho hfits => ?_⟩
  rw [exec_pngNext (pngNextBody_of_chunk ho hfits), State.nextChunk, State.takeChunk_chunkAt]
  rfl

/-- Settles O15: each end of the body has its own condition on the current chunk. -/
theorem pngIhdrDecodesBody : Obligations.PngIhdrDecodesBody := by
  refine ⟨decodeCommand_encodeWord rfl, ?_⟩
  rintro s d rfl
  rcases pngIhdrBody_cases s with ⟨hno, e⟩ | ⟨hvalid, htag, hlen, e⟩ | ⟨hvalid, htag, hlen, e⟩
  · have hnone (hv : s.status.chValid = true) (ht : s.chTag = tagIhdr) : False := hno.elim (by simp [hv]) fun hne => hne ht
    exact ⟨fun _ => exec_pngIhdr e, fun hv ht => (hnone hv ht).elim, fun hv ht => (hnone hv ht).elim⟩
  · have hcurrent : ¬ (s.status.chValid = false ∨ s.chTag ≠ tagIhdr) := by simp [hvalid, htag]
    exact ⟨fun hno => absurd hno hcurrent,
      fun _ _ _ => (exec_pngIhdr e).trans (congrArg _ (s.completeError_toNat _ _)), fun _ _ h13 => absurd h13 hlen⟩
  · have hcurrent : ¬ (s.status.chValid = false ∨ s.chTag ≠ tagIhdr) := by simp [hvalid, htag]
    exact ⟨fun hno => absurd hno hcurrent, fun _ _ hne => absurd hlen hne, fun _ _ _ => exec_pngIhdr e⟩

/-- Settles O20: the four records' effects, by unfolding `exec`. -/
theorem recordEffects : Obligations.RecordEffects :=
  ⟨fun _ => rfl, fun _ _ _ _ => rfl, fun _ _ => rfl, fun _ _ => rfl⟩

/-! ## Completion before a command

The loop of `PNG_PEEK` runs the bodies without completing in between; a command issued after a normal completion answers the
same, since no body reads `ERR` or `ERRINFO`. -/

theorem exec_pngNext_completeOk (s : State) : exec .pngNext s.completeOk = exec .pngNext s := by
  show Host.Outcome.next (pngNextBody s.completeOk).complete = .next (pngNextBody s).complete
  simp only [pngNextBody, State.completeOk_chunkAt, apply_ite Done.complete]
  rfl

theorem exec_pngIhdr_completeOk (s : State) : exec .pngIhdr s.completeOk = exec .pngIhdr s := by
  show Host.Outcome.next (pngIhdrBody s.completeOk).complete = .next (pngIhdrBody s).complete
  simp only [pngIhdrBody, apply_ite Done.complete]
  rfl

/-! ## `PNG_PEEK` as commands (41_png_chunk.md R136) -/

/-- Where the last `PNG_NEXT` of the loop left `v`, `PNG_PEEK` answers `a`: the error of `PNG_NEXT`, the missing IHDR chunk at
the end of the stream, or what `PNG_IHDR` answers. -/
def State.PeekDecides (v : State) (a : Answer) : Prop :=
  (v.status.err ≠ .ok ∧ a = .next v) ∨
  (v.status.err = .ok ∧ v.status.eos = true ∧
    a = .next { v with status := { v.status with err := .fmtMissingIhdr, sticky := true }, errInfo := 0 }) ∨
  (v.status.err = .ok ∧ v.status.eos = false ∧ v.chTag = tagIhdr ∧ a = exec .pngIhdr v)

theorem State.afterNexts_succ {s u : State} (hnext : pngNextBody s = .ok u) (heos : u.status.eos = false)
    (htag : u.chTag ≠ tagIhdr) (k : Nat) : s.completeOk.afterNexts (k + 1) = u.completeOk.afterNexts k := by
  rw [State.afterNexts, exec_pngNext_completeOk, exec_pngNext hnext]
  exact if_pos ⟨rfl, heos, htag⟩

/-- Each turn of the loop is one `PNG_NEXT` issued. -/
theorem pngPeekWalk_decides {fuel : Nat} {s : State} {d : Done} (h : pngPeekWalk fuel s = some d) :
    ∃ k u v, s.completeOk.afterNexts k = some u ∧ exec .pngNext u = .next v ∧ v.PeekDecides (.next d.complete) := by
  induction fuel generalizing s with
  | zero => cases h
  | succ fuel ih =>
    have hexec := (exec_pngNext_completeOk s).trans (exec_pngNext rfl)
    rw [pngPeekWalk] at h
    cases hnext : pngNextBody s with
    | err u e info =>
      rw [hnext] at h hexec
      cases h
      exact ⟨0, _, _, rfl, hexec, .inl ⟨(pngNextBody_err hnext).2, rfl⟩⟩
    | ok u =>
      rw [hnext] at h hexec
      dsimp only at h
      split_ifs at h with heos htag
      · cases h
        exact ⟨0, _, _, rfl, hexec, .inr (.inl ⟨rfl, heos, rfl⟩)⟩
      · cases h
        exact ⟨0, _, _, rfl, hexec, .inr (.inr ⟨rfl, by simpa using heos, htag, (exec_pngIhdr_completeOk u).symm⟩)⟩
      · obtain ⟨k, w, v, hafter, hv, hdecides⟩ := ih h
        exact ⟨k + 1, w, v, (State.afterNexts_succ hnext (by simpa using heos) htag k).trans hafter, hv, hdecides⟩

/-- Settles O16: an error of the opening is `PNG_PEEK`'s, and after an opening its loop decides. -/
theorem pngPeekIssuesOpenNextIhdr : Obligations.PngPeekIssuesOpenNextIhdr := by
  refine ⟨decodeCommand_encodeWord rfl, fun s => ⟨_, exec_pngOpen rfl, ?_⟩⟩
  cases hopen : pngOpenBody s with
  | err u e info =>
    have hraised : e ≠ .ok := by
      have hleaves := pngOpenBody_leavesSticky s
      rwa [hopen] at hleaves
    exact ⟨fun _ => exec_pngPeek_of_body (pngPeekBody_of_open_err hopen), fun hok => absurd hok hraised⟩
  | ok u =>
    refine ⟨fun hraised => absurd rfl hraised, fun _ => ?_⟩
    obtain ⟨d, hd⟩ := Option.isSome_iff_exists.1 (pngPeekBody_isSome s)
    rw [exec_pngPeek_of_body hd]
    rw [pngPeekBody, hopen] at hd
    exact pngPeekWalk_decides hd

/-! ## The walk of `png_read` (41_png_chunk.md R130, R138) -/

/-- The data window of the current chunk. -/
def State.chunkData (s : State) : List Byte := s.ibufBytes s.chDoff.toNat s.chLen.toNat

/-- `PNG_NEXT`, repeated from this state, takes these chunks one by one and then meets this end. -/
inductive State.Walks : State → List Chunk → WalkEnd → Prop
  | atEnd {s : State} (hnext : pngNextBody s = .ok s.endOfStream) : s.Walks [] .atEnd
  | trunc {s : State} (hnext : pngNextBody s = .err s .fmtTruncated s.pPos.toNat) : s.Walks [] (.trunc s.pPos.toNat)
  | chunk {s : State} {c : Chunk} {cs : List Chunk} {e : WalkEnd} (hnext : pngNextBody s = .ok (s.takeChunk c))
      (hdata : (s.takeChunk c).chunkData = c.data) (hrest : (s.takeChunk c).Walks cs e) : s.Walks (c :: cs) e

/-- The bytes of the valid input from `P_POS` on. -/
def State.rest (s : State) : List Byte := s.ibufBytes s.pPos.toNat (s.ilen.toNat - s.pPos.toNat)

theorem State.rest_isEmpty_iff (s : State) : s.rest.isEmpty = true ↔ s.ilen.toNat ≤ s.pPos.toNat := by
  rw [List.isEmpty_iff, ← List.length_eq_zero_iff, State.rest, State.ibufBytes_length, Nat.sub_eq_zero_iff_le]

section
variable {s : State} (hfits : s.pPos.toNat + 12 + (s.ibufWord s.pPos.toNat).toNat ≤ s.ilen.toNat)
include hfits

theorem State.takeChunk_nextChunk_pPos_toNat :
    (s.takeChunk s.nextChunk).pPos.toNat = s.pPos.toNat + 12 + (s.ibufWord s.pPos.toNat).toNat :=
  State.takeChunk_pPos_toNat hfits

/-- The chunk registers show where the data of the chunk taken stands. -/
theorem State.takeChunk_nextChunk_chunkData : (s.takeChunk s.nextChunk).chunkData = s.nextChunk.data := by
  have hilen := s.ilen.isLt
  have hdoff : (s.takeChunk s.nextChunk).chDoff.toNat = s.pPos.toNat + 8 := Nat.mod_eq_of_lt (by omega)
  have hlen : (s.takeChunk s.nextChunk).chLen.toNat = (s.ibufWord s.pPos.toNat).toNat := by
    rw [State.nextChunk, State.takeChunk_chunkAt]
  rw [State.chunkData, hdoff, hlen, State.takeChunk_ibufBytes]
  rfl

/-- The record at `P_POS` is the chunk `PNG_NEXT` takes, and what follows it is what is left to it. -/
theorem State.takeChunkRecord_rest : takeChunkRecord s.rest =
    some ((s.nextChunk.tag, s.nextChunk.data, s.nextChunk.crc), (s.takeChunk s.nextChunk).rest) := by
  have hleft : s.ilen.toNat - s.pPos.toNat - 12 - (s.ibufWord s.pPos.toNat).toNat =
      s.ilen.toNat - (s.pPos.toNat + 12 + (s.ibufWord s.pPos.toNat).toNat) := by omega
  rw [State.rest, State.takeChunkRecord_ibufBytes, if_pos (by omega), hleft, State.rest,
    State.takeChunk_nextChunk_pPos_toNat hfits, State.takeChunk_ibufBytes]
  rfl

/-- `png_read` yields the chunk `PNG_NEXT` takes and goes on from where that leaves `P_POS`. -/
theorem State.pngWalk_rest_of_chunk {u : State} (hu : u = s.takeChunk s.nextChunk) (fuel : Nat) :
    pngWalk (fuel + 1) s.pPos.toNat s.rest =
      (s.nextChunk :: (pngWalk fuel u.pPos.toNat u.rest).1, (pngWalk fuel u.pPos.toNat u.rest).2) := by
  have hne : ¬ s.rest.isEmpty = true := by rw [State.rest_isEmpty_iff]; omega
  have hlength : s.nextChunk.data.length = (s.ibufWord s.pPos.toNat).toNat := s.ibufBytes_length _ _
  rw [pngWalk, if_neg hne, State.takeChunkRecord_rest hfits, hu, State.takeChunk_nextChunk_pPos_toNat hfits, ← hlength]

end

theorem State.pngWalk_rest_of_end {s : State} (hend : s.ilen.toNat ≤ s.pPos.toNat) (fuel : Nat) :
    pngWalk fuel s.pPos.toNat s.rest = ([], .atEnd) := by
  have hempty := s.rest_isEmpty_iff.2 hend
  cases fuel <;> simp [pngWalk, hempty]

theorem State.pngWalk_rest_of_truncated {s : State} (hlt : s.pPos.toNat < s.ilen.toNat)
    (hshort : s.ilen.toNat < s.pPos.toNat + 12 + (s.ibufWord s.pPos.toNat).toNat) (fuel : Nat) :
    pngWalk fuel s.pPos.toNat s.rest = ([], .trunc s.pPos.toNat) := by
  have hne : ¬ s.rest.isEmpty = true := by rw [State.rest_isEmpty_iff]; omega
  have hrecord : takeChunkRecord s.rest = none := by
    rw [State.rest, State.takeChunkRecord_ibufBytes, if_neg (by omega)]
  cases fuel <;> simp [pngWalk, hne, hrecord]

/-- The walk of `png_read` over the bytes an open parse has left is the walk of `PNG_NEXT`. -/
theorem State.walks_pngWalk {fuel : Nat} {s : State} (hopen : s.status.pOpen = true) (hpos : s.pPos.toNat ≤ s.ilen.toNat)
    (hfuel : s.ilen.toNat ≤ s.pPos.toNat + fuel) :
    s.Walks (pngWalk fuel s.pPos.toNat s.rest).1 (pngWalk fuel s.pPos.toNat s.rest).2 := by
  induction fuel generalizing s with
  | zero =>
    rw [State.pngWalk_rest_of_end hfuel]
    exact .atEnd (pngNextBody_of_end hopen (by omega))
  | succ fuel ih =>
    rcases Nat.eq_or_lt_of_le hpos with hend | hlt
    · rw [State.pngWalk_rest_of_end hend.ge]
      exact .atEnd (pngNextBody_of_end hopen hend)
    · rcases Nat.lt_or_ge s.ilen.toNat (s.pPos.toNat + 12 + (s.ibufWord s.pPos.toNat).toNat) with hshort | hfits
      · rw [State.pngWalk_rest_of_truncated hlt hshort]
        exact .trunc (pngNextBody_of_truncated hopen hlt.ne hshort)
      · have hnewPos := State.takeChunk_nextChunk_pPos_toNat hfits
        rw [State.pngWalk_rest_of_chunk hfits rfl]
        refine .chunk (pngNextBody_of_chunk hopen hfits) (State.takeChunk_nextChunk_chunkData hfits) (ih hopen ?_ ?_)
        · rw [hnewPos]
          exact hfits
        · rw [hnewPos, State.takeChunk_ilen]
          omega

/-- The signature test of `png_read` (41_png_chunk.md R130) is the one of `PNG_OPEN` (R133). -/
theorem State.input_take_eq_signature_iff (s : State) :
    s.input.take 8 = pngSignature ↔ 8 ≤ s.ilen.toNat ∧ s.ibufBytes 0 8 = pngSignature := by
  rcases Nat.lt_or_ge s.ilen.toNat 8 with hshort | h8
  · refine iff_of_false (fun hsig => ?_) (by omega)
    have hlength := congrArg List.length hsig
    simp [State.input, pngSignature] at hlength
    omega
  · rw [State.input, State.ibufBytes_take s 0 _ 8 h8, and_iff_right h8]

/-- With `ILEN` in range, `PNG_OPEN` raises where `png_read` fails, and opens the walk of `png_read` where it does not. -/
theorem pngOpenBody_pngRead {s : State} (hin : s.ilen.toNat ≤ s.ibufSize.toNat) :
    (pngRead s.input = .error .signature ∧ pngOpenBody s = .err s.closeParse .fmtSignature 0) ∨
    (∃ cs e, pngRead s.input = .ok (cs, e) ∧ pngOpenBody s = .ok s.closeParse.openParse ∧
      s.closeParse.openParse.Walks cs e) := by
  have hsigIff := s.input_take_eq_signature_iff
  rcases pngOpenBody_cases s with ⟨hover, -⟩ | ⟨-, hbad, e⟩ | ⟨-, h8, hsig, e⟩
  · exact absurd hover (Nat.not_lt.2 hin)
  · refine .inl ⟨if_pos fun htake => ?_, e⟩
    obtain ⟨h8, hsig⟩ := hsigIff.1 htake
    exact hbad.elim (Nat.not_lt.2 h8) fun hne => hne hsig
  · have hrest : s.input.drop 8 = s.closeParse.openParse.rest := by
      rw [State.input, State.ibufBytes_drop s 0 _ 8 h8, State.rest, State.openParse_ibufBytes, State.closeParse_ibufBytes]
      rfl
    have hlength : s.input.length = s.ilen.toNat := s.ibufBytes_length 0 _
    refine .inr ⟨_, _, if_neg (not_not.2 (hsigIff.2 ⟨h8, hsig⟩)), e, ?_⟩
    rw [hrest, hlength]
    exact State.walks_pngWalk (s := s.closeParse.openParse) rfl h8 (Nat.le_add_left _ _)

/-- A walk of `PNG_NEXT` shows the host its chunks with the verdicts, and its end (41_png_chunk.md R138). -/
theorem State.Walks.yields {s : State} {cs : List Chunk} {e : WalkEnd} (h : s.Walks cs e) : s.completeOk.Yields cs e := by
  induction h with
  | atEnd hnext => exact ⟨_, (exec_pngNext_completeOk _).trans (exec_pngNext hnext), rfl, rfl⟩
  | trunc hnext =>
    refine ⟨_, (exec_pngNext_completeOk _).trans (exec_pngNext hnext), rfl, ?_⟩
    exact Nat.mod_eq_of_lt (BitVec.isLt _)
  | @chunk s c _ _ hnext hdata _ ih =>
    refine ⟨_, (exec_pngNext_completeOk _).trans (exec_pngNext hnext), rfl, rfl, rfl, ?_, rfl, rfl, ih⟩
    exact ((s.takeChunk c).completeOk_ibufBytes _ _).trans hdata

/-- Settles O18: the walk of `png_read` is the walk of `PNG_NEXT`, chunk by chunk. -/
theorem commandsAgreeWithPngRead : Obligations.CommandsAgreeWithPngRead := by
  intro s hin
  rcases pngOpenBody_pngRead hin with ⟨hread, hopen⟩ | ⟨cs, e, hread, hopen, hwalks⟩
  · refine ⟨_, exec_pngOpen hopen, fun _ => rfl, fun _ _ hok => ?_, fun _ herror => ?_⟩
    · cases hread.symm.trans hok
    · cases hread.symm.trans herror
      rfl
  · refine ⟨_, exec_pngOpen hopen, fun herror => ?_, fun _ _ hok => ?_, fun _ herror => ?_⟩
    · cases hread.symm.trans herror
    · cases hread.symm.trans hok
      exact ⟨rfl, hwalks.yields⟩
    · cases hread.symm.trans herror

/-! ## `PNG_PEEK` as `peek_ihdr` (41_png_chunk.md R132, R136) -/

/-- The state shows the result of `peek_ihdr`: the body in the IHDR registers, or the code of the cause. The cause `missing IEND`
is none of `peek_ihdr`'s. -/
def State.ShowsPeek (t : State) : Except FormatError IhdrBody → Prop
  | .ok h               => t.status.err = .ok ∧ t.status.ihValid = true ∧ t.HoldsIhdr h
  | .error .signature   => t.status.err = .fmtSignature
  | .error .truncated   => t.status.err = .fmtTruncated
  | .error .missingIhdr => t.status.err = .fmtMissingIhdr
  | .error .ihdrLength  => t.status.err = .fmtIhdrLen
  | .error .missingIend => False

/-- `PNG_IHDR` on a current chunk tagged `IHDR` decodes the data in its window. -/
theorem pngIhdrBody_showsPeek {s : State} (hvalid : s.status.chValid = true) (htag : s.chTag = tagIhdr) :
    (pngIhdrBody s).complete.ShowsPeek (decodeIhdr s.chunkData) := by
  have hlength : s.chunkData.length = s.chLen.toNat := s.ibufBytes_length _ _
  rcases pngIhdrBody_cases s with ⟨hno, -⟩ | ⟨-, -, hlen, e⟩ | ⟨-, -, hlen, e⟩
  · simp [hvalid, htag] at hno
  · have hne : s.chunkData.length ≠ 13 := fun h13 => hlen (BitVec.eq_of_toNat_eq (hlength.symm.trans h13))
    rw [e, decodeIhdr, if_pos hne]
    rfl
  · have h13 : s.chLen.toNat = 13 := congrArg BitVec.toNat hlen
    rw [e, decodeIhdr, if_neg (not_not.2 (hlength.trans h13)), State.chunkData, h13, State.takeIhdrBody_ibufBytes]
    exact ⟨rfl, rfl, rfl, rfl, rfl, rfl, rfl, rfl, rfl⟩

theorem pngPeekWalk_succ_of_chunk {s : State} {c : Chunk} (hnext : pngNextBody s = .ok (s.takeChunk c))
    (heos : s.status.eos = false) (fuel : Nat) : pngPeekWalk (fuel + 1) s =
      if c.tag = tagIhdr then some (pngIhdrBody (s.takeChunk c)) else pngPeekWalk fuel (s.takeChunk c) := by
  have hmore : ¬ (s.takeChunk c).status.eos = true := by simp [heos]
  rw [pngPeekWalk, hnext]
  exact if_neg hmore

/-- The loop of `PNG_PEEK` scans the chunks of the walk as `peek_ihdr` does. -/
theorem State.Walks.showsPeek {s : State} {cs : List Chunk} {e : WalkEnd} (h : s.Walks cs e) (heos : s.status.eos = false)
    {fuel : Nat} {d : Done} (hd : pngPeekWalk fuel s = some d) : d.complete.ShowsPeek (peekChunks cs e) := by
  induction h generalizing fuel with
  | atEnd hnext | trunc hnext =>
    cases fuel with
    | zero => cases hd
    | succ fuel =>
      rw [pngPeekWalk, hnext] at hd
      cases hd
      rfl
  | @chunk s c _ _ hnext hdata _ ih =>
    cases fuel with
    | zero => cases hd
    | succ fuel =>
      rw [pngPeekWalk_succ_of_chunk hnext heos] at hd
      rw [peekChunks]
      split_ifs at hd ⊢ with htag
      · cases hd
        rw [← hdata]
        exact pngIhdrBody_showsPeek rfl htag
      · exact ih heos hd

theorem pngPeekBody_showsPeek {s : State} {d : Done} (hin : s.ilen.toNat ≤ s.ibufSize.toNat) (hd : pngPeekBody s = some d) :
    d.complete.ShowsPeek (peekIhdr s.input) := by
  rcases pngOpenBody_pngRead hin with ⟨hread, hopen⟩ | ⟨cs, e, hread, hopen, hwalks⟩
  · cases (pngPeekBody_of_open_err hopen).symm.trans hd
    rw [peekIhdr, hread]
    rfl
  · rw [pngPeekBody, hopen] at hd
    rw [peekIhdr, hread]
    exact hwalks.showsPeek rfl hd

/-- Settles O17: what `PNG_PEEK` leaves shows the result of `peek_ihdr`. -/
theorem pngPeekIsPeekIhdr : Obligations.PngPeekIsPeekIhdr := by
  intro s hin
  obtain ⟨d, hd⟩ := Option.isSome_iff_exists.1 (pngPeekBody_isSome s)
  have hshows := pngPeekBody_showsPeek hin hd
  refine ⟨_, exec_pngPeek_of_body hd, ?_⟩
  generalize peekIhdr s.input = r at hshows
  refine ⟨fun _ hr => ?_, fun hr => ?_, fun hr => ?_, fun hr => ?_, fun hr => ?_, fun hr => ?_⟩ <;>
  · subst hr
    exact hshows

/-! ## The verdict is not read (41_png_chunk.md R139) -/

/-- The machine with another verdict in `CRC_OK`. -/
def State.withCrcOk (v : Bool) (s : State) : State := { s with status := { s.status with crcOk := v } }

/-- The same end of a command's pseudocode with another verdict. -/
def Done.withCrcOk (v : Bool) : Done → Done
  | .ok s         => .ok (s.withCrcOk v)
  | .err s e info => .err (s.withCrcOk v) e info

theorem Done.complete_withCrcOk (v : Bool) (d : Done) : (d.withCrcOk v).complete = d.complete.withCrcOk v := by
  cases d <;> rfl

@[simp] theorem State.withCrcOk_ibufBytes (v : Bool) (s : State) (a n : Nat) :
    (s.withCrcOk v).ibufBytes a n = s.ibufBytes a n :=
  State.ibufBytes_of_ibuf (s := s.withCrcOk v) (t := s) rfl rfl a n

@[simp] theorem State.withCrcOk_input (v : Bool) (s : State) : (s.withCrcOk v).input = s.input :=
  s.withCrcOk_ibufBytes v 0 s.ilen.toNat

@[simp] theorem State.withCrcOk_srcWindow (v : Bool) (s : State) : (s.withCrcOk v).srcWindow = s.srcWindow :=
  s.withCrcOk_ibufBytes v s.srcOff.toNat s.srcLen.toNat

@[simp] theorem State.withCrcOk_chunkAt (v : Bool) (s : State) (p len : Nat) :
    (s.withCrcOk v).chunkAt p len = s.chunkAt p len := by
  rw [State.chunkAt, State.withCrcOk_ibufBytes]
  rfl

/-! The bodies that leave `CRC_OK` as it is. -/

theorem State.emit_withCrcOk (v : Bool) (s : State) (bs : List Byte) :
    (s.withCrcOk v).emit bs = (s.emit bs).withCrcOk v := by
  simp only [State.emit, apply_ite (Done.withCrcOk v)]
  rfl

theorem crcBufBody_withCrcOk (v : Bool) (s : State) : crcBufBody (s.withCrcOk v) = (crcBufBody s).withCrcOk v := by
  simp only [crcBufBody, State.withCrcOk_srcWindow, apply_ite (Done.withCrcOk v)]
  rfl

theorem crcSumBody_withCrcOk (v : Bool) (s : State) : crcSumBody (s.withCrcOk v) = (crcSumBody s).withCrcOk v := by
  simp only [crcSumBody, State.withCrcOk_input, apply_ite (Done.withCrcOk v)]
  rfl

theorem pngIhdrBody_withCrcOk (v : Bool) (s : State) : pngIhdrBody (s.withCrcOk v) = (pngIhdrBody s).withCrcOk v := by
  simp only [pngIhdrBody, apply_ite (Done.withCrcOk v)]
  rfl

theorem pbEncodeBody_withCrcOk (v : Bool) (s : State) : pbEncodeBody (s.withCrcOk v) = (pbEncodeBody s).withCrcOk v := by
  simp only [pbEncodeBody, State.withCrcOk_input, State.emit, apply_ite (Done.withCrcOk v)]
  rfl

/-- `PNG_NEXT` leaves `CRC_OK` as it is where it raises, and overwrites it where it does not. -/
theorem pngNextBody_withCrcOk (v : Bool) (s : State) :
    ∃ w, pngNextBody (s.withCrcOk v) = (pngNextBody s).withCrcOk w := by
  rcases pngNextBody_cases s with ⟨hclosed, e⟩ | ⟨ho, hend, e⟩ | ⟨ho, hne, hshort, e⟩ | ⟨ho, hfits, e⟩ <;> rw [e]
  · exact ⟨v, if_pos hclosed⟩
  · exact ⟨false, pngNextBody_of_end (s := s.withCrcOk v) ho hend⟩
  · exact ⟨v, pngNextBody_of_truncated (s := s.withCrcOk v) ho hne (by
      show s.ilen.toNat < s.pPos.toNat + 12 + (s.ibufWord s.pPos.toNat).toNat
      omega)⟩
  · refine ⟨chunkCrcOk s.nextChunk, ?_⟩
    rw [pngNextBody_of_chunk (s := s.withCrcOk v) ho hfits, State.nextChunk, State.withCrcOk_chunkAt]
    rfl

/-- `PNG_OPEN` clears `CRC_OK` first, so it does not matter what it was. -/
theorem pngOpenBody_withCrcOk (v : Bool) (s : State) : pngOpenBody (s.withCrcOk v) = pngOpenBody s := rfl

theorem pngPeekBody_withCrcOk (v : Bool) (s : State) : pngPeekBody (s.withCrcOk v) = pngPeekBody s := by
  rw [pngPeekBody, pngOpenBody_withCrcOk]
  rfl

/-- Ends that differ in the verdict only complete in answers that differ there only. -/
theorem next_complete_withCrcOk {d d' : Done} {t : State} {w : Bool} (hd : d' = d.withCrcOk w)
    (he : (.next d.complete : Answer) = .next t) : (.next d'.complete : Answer) = .next (t.withCrcOk w) := by
  cases he
  rw [hd, Done.complete_withCrcOk]

/-- Settles O32: a command leaves `CRC_OK` as it is, or overwrites it whatever it was. -/
theorem verdictIsNotRead : Obligations.VerdictIsNotRead := by
  intro i s t v he
  show ∃ w, exec i (s.withCrcOk v) = .next (t.withCrcOk w)
  cases i with
  | nop | crcInit | crcByte | pngIhdrBody | pngSrgbBody =>
    cases he
    exact ⟨v, rfl⟩
  | sreset | pngOpen | pngSig | pngChunk => exact ⟨t.status.crcOk, he⟩
  | pngPeek =>
    obtain ⟨d, hd, rfl⟩ := exec_pngPeek he
    exact ⟨d.complete.status.crcOk, exec_pngPeek_of_body ((pngPeekBody_withCrcOk v s).trans hd)⟩
  | pngNext =>
    obtain ⟨w, hw⟩ := pngNextBody_withCrcOk v s
    exact ⟨w, next_complete_withCrcOk hw he⟩
  | crcBuf => exact ⟨v, next_complete_withCrcOk (crcBufBody_withCrcOk v s) he⟩
  | crcSum => exact ⟨v, next_complete_withCrcOk (crcSumBody_withCrcOk v s) he⟩
  | pngIhdr => exact ⟨v, next_complete_withCrcOk (pngIhdrBody_withCrcOk v s) he⟩
  | pbEncode => exact ⟨v, next_complete_withCrcOk (pbEncodeBody_withCrcOk v s) he⟩
  | pbLit | pbRun => exact ⟨v, next_complete_withCrcOk (State.emit_withCrcOk v s _) he⟩

end Sys2Proof.Machine

/-! # The PackBits-ICNS unit

42_packbits.md R160 to R168: what the run and literal lengths are, the tokens of `pb_encode` and their round trip, the size of
its output, and the command `PB_ENCODE`. -/

namespace Sys2Proof.Machine

/-! ## Run lengths (42_packbits.md R160) -/

theorem runStart_iff (d : List Byte) : runStart d = true ↔ 2 < d.length ∧ d[0]? = d[1]? ∧ d[1]? = d[2]? := by
  match d with
  | a :: b :: c :: rest => simp [runStart]
  | [] | [_] | [_, _] => simp [runStart]

theorem le_equalCount_iff {b : Byte} {d : List Byte} {c : Nat} : c ≤ equalCount b d ↔ ∀ k < c, d[k]? = some b := by
  induction d generalizing c with
  | nil =>
    simp only [equalCount, List.getElem?_nil, reduceCtorEq, imp_false, Nat.le_zero]
    exact ⟨fun h => by simp [h], fun h => Nat.eq_zero_of_not_pos (h 0)⟩
  | cons x xs ih =>
    cases c with
    | zero => simp
    | succ c =>
      rw [Nat.forall_lt_succ_left, equalCount]
      by_cases hx : x = b
      · simp [hx, ih]
      · simp [hx]

theorem le_runLen_iff {b : Byte} {bs : List Byte} {c : Nat} :
    c ≤ runLen (b :: bs) ↔ c ≤ 130 ∧ ∀ k < c, (b :: bs)[k]? = some b := by
  have hcount : equalCount b (b :: bs) = equalCount b bs + 1 := if_pos rfl
  rw [runLen, ← hcount, Nat.le_min, le_equalCount_iff, and_comm, pbMaxRun]

theorem runLen_le_max (d : List Byte) : runLen d ≤ 130 := by
  cases d with
  | nil => exact Nat.zero_le _
  | cons b bs => exact Nat.min_le_right _ _

theorem take_runLen (b : Byte) (bs : List Byte) :
    (b :: bs).take (runLen (b :: bs)) = List.replicate (runLen (b :: bs)) b := by
  obtain ⟨-, heq⟩ := le_runLen_iff.1 (Nat.le_refl (runLen (b :: bs)))
  apply List.ext_getElem?
  intro k
  rw [List.getElem?_take, List.getElem?_replicate]
  split
  · next hk => exact heq k hk
  · rfl

theorem runLen_replicate {n : Nat} {b : Byte} (h : n ≤ 130) : runLen (List.replicate n b) = n := by
  cases n with
  | zero => rfl
  | succ n =>
    apply Nat.le_antisymm
    · simpa using runLen_le_length (List.replicate (n + 1) b)
    · exact le_runLen_iff.2 ⟨h, fun k hk => by rw [← List.replicate_succ, List.getElem?_replicate, if_pos hk]⟩

/-- `run_len` at a run start is the largest count of 3 to 130 equal bytes. -/
theorem runLen_isGreatest {d : List Byte} (h : runStart d = true) :
    IsGreatest {c : Nat | 3 ≤ c ∧ c ≤ 130 ∧ c ≤ d.length ∧ ∀ k, k < c → d[k]? = d[0]?} (runLen d) := by
  match d with
  | [] => simp [runStart] at h
  | b :: bs =>
    obtain ⟨hmax, heq⟩ := le_runLen_iff.1 (Nat.le_refl (runLen (b :: bs)))
    exact ⟨⟨three_le_runLen h, hmax, runLen_le_length _, heq⟩, fun c ⟨_, hc, _, hsame⟩ => le_runLen_iff.2 ⟨hc, hsame⟩⟩

/-! ## Literal lengths (42_packbits.md R161) -/

theorem runStart_drop_of_lt_beforeRunStart {d : List Byte} {j : Nat} (h : j < beforeRunStart d) :
    runStart (d.drop j) = false := by
  induction d generalizing j with
  | nil => simp [beforeRunStart] at h
  | cons b bs ih =>
    rw [beforeRunStart] at h
    split at h
    · omega
    · next hno =>
      cases j with
      | zero => simpa using hno
      | succ j => exact ih (by omega)

theorem litLen_cons (b : Byte) (bs : List Byte) : litLen (b :: bs) = min (beforeRunStart bs + 1) 128 := rfl

theorem one_le_litLen (b : Byte) (bs : List Byte) : 1 ≤ litLen (b :: bs) := by
  rw [litLen_cons]
  omega

theorem litLen_le_max (d : List Byte) : litLen d ≤ 128 := by
  cases d with
  | nil => exact Nat.zero_le _
  | cons b bs => exact Nat.min_le_right _ _

theorem runStart_drop_of_lt_litLen {d : List Byte} {j : Nat} (h : runStart d = false) (hj : j < litLen d) :
    runStart (d.drop j) = false := by
  match d, j with
  | [], _ => simp [litLen] at hj
  | _ :: _, 0 => exact h
  | b :: bs, j + 1 =>
    rw [litLen_cons] at hj
    exact runStart_drop_of_lt_beforeRunStart (d := bs) (by omega)

/-- One more than the bytes before the first run start after the head is the distance to the first later run start, or to the
end. -/
theorem beforeRunStart_isLeast (b : Byte) (bs : List Byte) :
    IsLeast {j : Nat | 1 ≤ j ∧ (j = (b :: bs).length ∨ (j < (b :: bs).length ∧ runStart ((b :: bs).drop j) = true))}
      (beforeRunStart bs + 1) := by
  have hle := beforeRunStart_le_length bs
  constructor
  · refine ⟨Nat.le_add_left _ _, ?_⟩
    rw [List.drop_succ_cons, List.length_cons]
    rcases runStart_drop_beforeRunStart bs with hend | hrun
    · have := List.drop_eq_nil_iff.1 hend
      omega
    · have := three_le_length_of_runStart hrun
      rw [List.length_drop] at this
      exact .inr ⟨by omega, hrun⟩
  · rintro (- | j) ⟨hpos, hend | ⟨-, hrun⟩⟩
    · omega
    · omega
    · rw [hend]
      exact Nat.succ_le_succ hle
    · by_contra hlt
      rw [List.drop_succ_cons, runStart_drop_of_lt_beforeRunStart (by omega)] at hrun
      cases hrun

/-- Settles O47: `run_len` by the count of equal bytes at the head, `lit_len` by the bytes before the next run start. -/
theorem runAndLiteralLengths : Obligations.RunAndLiteralLengths := by
  refine ⟨runStart_iff, fun d => runLen_isGreatest, fun d hd => ?_⟩
  obtain ⟨b, bs, rfl⟩ := List.exists_cons_of_ne_nil hd
  exact ⟨beforeRunStart bs + 1, beforeRunStart_isLeast b bs, litLen_cons b bs⟩

/-! ## The tokens of `pb_encode` (42_packbits.md R162) -/

/-- The induction along `pb_encode`'s loop: a relation between byte strings and token lists that each turn of the loop keeps
holds of every input and its tokens. -/
theorem pbTokens_induction {P : List Byte → List Token → Prop} (nil : P [] [])
    (run : ∀ b bs ks, runStart (b :: bs) = true → P ((b :: bs).drop (runLen (b :: bs))) ks →
      P (b :: bs) (.run (runLen (b :: bs)) b :: ks))
    (lit : ∀ b bs ks, runStart (b :: bs) = false → P ((b :: bs).drop (litLen (b :: bs))) ks →
      P (b :: bs) (.lit ((b :: bs).take (litLen (b :: bs))) :: ks))
    (d : List Byte) : P d (pbTokens d.length d) := by
  suffices ∀ fuel d, d.length ≤ fuel → P d (pbTokens fuel d) from this _ d (Nat.le_refl _)
  intro fuel
  induction fuel with
  | zero =>
    intro d hd
    rw [List.eq_nil_of_length_eq_zero (Nat.le_zero.1 hd)]
    exact nil
  | succ fuel ih =>
    intro d hd
    match d with
    | [] => exact nil
    | b :: bs =>
      cases h : runStart (b :: bs) with
      | true =>
        have hpos := three_le_runLen h
        rw [pbTokens_of_runStart fuel h]
        exact run b bs _ h (ih _ (by rw [List.length_drop]; omega))
      | false =>
        have hpos := one_le_litLen b bs
        rw [pbTokens_of_not_runStart fuel h]
        exact lit b bs _ h (ih _ (by rw [List.length_drop]; omega))

/-- 42_packbits.md R167's reason: each token decodes to the input bytes it was emitted for. -/
theorem pbTokens_decoded (d : List Byte) : (pbTokens d.length d).flatMap Token.decoded = d := by
  induction d using pbTokens_induction with
  | nil => rfl
  | run b bs ks h ih => rw [List.flatMap_cons, ih, Token.decoded, ← take_runLen, List.take_append_drop]
  | lit b bs ks h ih => rw [List.flatMap_cons, ih, Token.decoded, List.take_append_drop]

theorem instr_wellFormed_of_mem_pbTokens (d : List Byte) : ∀ k ∈ pbTokens d.length d, k.instr.wellFormed = true := by
  induction d using pbTokens_induction with
  | nil => nofun
  | run b bs ks h ih =>
    exact List.forall_mem_cons.2 ⟨decide_eq_true ⟨three_le_runLen h, runLen_le_max _⟩, ih⟩
  | lit b bs ks h ih =>
    refine List.forall_mem_cons.2 ⟨decide_eq_true ?_, ih⟩
    rw [List.length_take_of_le (litLen_le_length _)]
    exact ⟨one_le_litLen b bs, litLen_le_max _⟩

/-! ## The decoder (42_packbits.md R166) -/

/-- One turn of the decoder's loop at a well-formed token. -/
theorem pbDecodeLoop_token {k : Token} (h : k.instr.wellFormed = true) (fuel : Nat) (rest : List Byte) :
    pbDecodeLoop (fuel + 1) (k.bytes ++ rest) = (pbDecodeLoop fuel rest).map (k.decoded ++ ·) := by
  cases k with
  | lit data =>
    have hlen : 1 ≤ data.length ∧ data.length ≤ 128 := of_decide_eq_true h
    simp only [Token.bytes, literalBytes, List.cons_append, pbDecodeLoop, literalHeader_toNat hlen]
    rw [if_pos (by omega), Nat.sub_add_cancel hlen.1, takeBytes_append]
    rfl
  | run count value =>
    have hcount : 3 ≤ count ∧ count ≤ 130 := of_decide_eq_true h
    simp only [Token.bytes, runBytes, List.cons_append, pbDecodeLoop, runHeader_toNat hcount.2]
    rw [if_neg (by omega), Nat.add_sub_cancel]
    rfl

theorem Token.bytes_length_pos (k : Token) : 0 < k.bytes.length := by
  cases k <;> exact Nat.succ_pos _

/-- The decoder's loop reads a concatenation of well-formed tokens, one token in each turn. -/
theorem pbDecodeLoop_flatMap_bytes {ks : List Token} (h : ∀ k ∈ ks, k.instr.wellFormed = true) {fuel : Nat}
    (hfuel : (ks.flatMap Token.bytes).length ≤ fuel) :
    pbDecodeLoop fuel (ks.flatMap Token.bytes) = some (ks.flatMap Token.decoded) := by
  induction ks generalizing fuel with
  | nil => cases fuel <;> rfl
  | cons k ks ih =>
    obtain ⟨hk, hks⟩ := List.forall_mem_cons.1 h
    have hpos := k.bytes_length_pos
    rw [List.flatMap_cons, List.length_append] at hfuel
    obtain ⟨fuel, rfl⟩ := Nat.exists_eq_succ_of_ne_zero (n := fuel) (by omega)
    rw [List.flatMap_cons, List.flatMap_cons, pbDecodeLoop_token hk, ih hks (by omega), Option.map_some]

/-- Settles O50: the decoder reads back the tokens, and each decodes to the bytes it was emitted for. -/
theorem packBitsRoundTrip : Obligations.PackBitsRoundTrip := by
  intro d
  rw [pbDecode, pbEncode, pbDecodeLoop_flatMap_bytes (instr_wellFormed_of_mem_pbTokens d) (Nat.le_refl _), pbTokens_decoded]

/-! ## Literals hold no run start (42_packbits.md R161, R163) -/

/-- No run starts anywhere in the byte string. -/
def NoRunStart (d : List Byte) : Prop := ∀ j, runStart (d.drop j) = false

theorem runStart_of_runStart_take {d : List Byte} {n : Nat} (h : runStart (d.take n) = true) : runStart d = true := by
  match n, d with
  | _ + 3, _ :: _ :: _ :: _ => exact h
  | 0, _ | _ + 1, [] | 1, _ :: _ | _ + 2, [_] | 2, _ :: _ :: _ | _ + 3, [_, _] => simp [runStart] at h

theorem NoRunStart.drop {d : List Byte} (h : NoRunStart d) (n : Nat) : NoRunStart (d.drop n) := by
  intro j
  rw [List.drop_drop]
  exact h _

theorem noRunStart_take_litLen {d : List Byte} (h : runStart d = false) : NoRunStart (d.take (litLen d)) := by
  intro j
  rw [List.drop_take]
  rcases Nat.lt_or_ge j (litLen d) with hj | hj
  · refine Bool.eq_false_iff.2 fun hrun => ?_
    simpa [runStart_drop_of_lt_litLen h hj] using runStart_of_runStart_take hrun
  · rw [Nat.sub_eq_zero_of_le hj, List.take_zero]
    rfl

theorem noRunStart_of_lit_mem_pbTokens {data : List Byte} (d : List Byte) :
    .lit data ∈ pbTokens d.length d → NoRunStart data := by
  induction d using pbTokens_induction with
  | nil => nofun
  | run b bs ks h ih =>
    intro hmem
    exact ih ((List.mem_cons.1 hmem).resolve_left nofun)
  | lit b bs ks h ih =>
    intro hmem
    rcases List.mem_cons.1 hmem with heq | hmem
    · cases heq
      exact noRunStart_take_litLen h
    · exact ih hmem

/-- Settles O48: the lengths' bounds make every token well formed, and a literal ends before the next run start. -/
theorem tokensAreWellFormed : Obligations.TokensAreWellFormed := by
  intro d k hk
  have hwf := instr_wellFormed_of_mem_pbTokens d k hk
  refine ⟨hwf, fun data hdata => ?_, fun count value hrun => ?_⟩
  · subst hdata
    have hlen : 1 ≤ data.length ∧ data.length ≤ 128 := of_decide_eq_true hwf
    exact ⟨noRunStart_of_lit_mem_pbTokens d hk, by rw [literalHeader_toNat hlen, Nat.sub_add_cancel hlen.1]⟩
  · subst hrun
    exact runHeader_toNat (of_decide_eq_true hwf : 3 ≤ count ∧ count ≤ 130).2

/-! ## Inputs of one or two tokens (42_packbits.md R165, R168) -/

/-- Identical bytes are one run. -/
theorem pbEncode_replicate {n : Nat} (b : Byte) (hlow : 3 ≤ n) (hhigh : n ≤ 130) :
    pbEncode (List.replicate n b) = runBytes n b := by
  obtain ⟨n, rfl⟩ := Nat.exists_eq_add_of_le' hlow
  have hrun : runStart (List.replicate (n + 3) b) = true := by simp [List.replicate_succ, runStart]
  have hlen := runLen_replicate (b := b) hhigh
  rw [List.replicate_succ] at hrun hlen ⊢
  rw [pbEncode, List.length_cons, pbTokens_of_runStart _ hrun, hlen, List.drop_eq_nil_of_le (by simp), pbTokens_nil]
  rfl

theorem litLen_of_noRunStart {d : List Byte} (h : NoRunStart d) : litLen d = min 128 d.length := by
  have hlength := litLen_le_length d
  have hmax := litLen_le_max d
  rcases litLen_eq_max_or_runStart_drop d with hfull | hend | hrun
  · omega
  · have := List.drop_eq_nil_iff.1 hend
    omega
  · simp [h _] at hrun

/-- Without a run start the first token is a literal of up to 128 bytes. -/
theorem pbTokens_of_noRunStart {d : List Byte} (h : NoRunStart d) (hd : d ≠ []) (fuel : Nat) :
    pbTokens (fuel + 1) d = .lit (d.take 128) :: pbTokens fuel (d.drop 128) := by
  obtain ⟨b, bs, rfl⟩ := List.exists_cons_of_ne_nil hd
  have hmin : min (litLen (b :: bs)) (b :: bs).length = min 128 (b :: bs).length := by
    rw [litLen_of_noRunStart h, Nat.min_assoc, Nat.min_self]
  rw [pbTokens_of_not_runStart fuel (h 0), List.take_eq_take_iff.2 hmin, List.drop_eq_drop_iff.2 hmin]

/-- Settles O49: identical bytes are one run token, bytes without a run start one literal. -/
theorem sourcePropertiesOfEncode : Obligations.SourcePropertiesOfEncode := by
  refine ⟨fun n b hlow hhigh => pbEncode_replicate b hlow hhigh, fun d hlow hhigh h => ?_, rfl⟩
  obtain ⟨fuel, hfuel⟩ := Nat.exists_eq_add_of_le' hlow
  have hd : d ≠ [] := List.ne_nil_of_length_pos hlow
  rw [pbEncode, hfuel, pbTokens_of_noRunStart h hd, List.take_of_length_le hhigh, List.drop_eq_nil_of_le hhigh, pbTokens_nil,
    ← hfuel]
  simp [Token.bytes, literalBytes]

theorem noRunStart_of_nodup {d : List Byte} (h : d.Nodup) : NoRunStart d := by
  intro j
  refine Bool.eq_false_iff.2 fun hrun => ?_
  obtain ⟨hlen, heq, -⟩ := (runStart_iff _).1 hrun
  exact absurd ((List.getElem?_inj (by omega) (h.sublist (List.drop_sublist j d))).1 heq) (by decide)

/-- 42_packbits.md R168: 129 pairwise distinct bytes are a full literal and a literal of one byte. -/
theorem pbEncode_length_of_nodup {d : List Byte} (h : d.Nodup) (hlen : d.length = 129) : (pbEncode d).length = 131 := by
  have hno := noRunStart_of_nodup h
  have hrest : (d.drop 128).length = 1 := by rw [List.length_drop, hlen]
  rw [pbEncode, hlen, pbTokens_of_noRunStart hno (List.ne_nil_of_length_pos (by omega)),
    pbTokens_of_noRunStart (hno.drop 128) (List.ne_nil_of_length_pos (by omega)),
    List.drop_eq_nil_of_le (as := d.drop 128) (by omega)]
  simp [hlen]

/-- The byte values from 0 to 128. -/
def distinctBytes : List Byte := (List.range 129).map (BitVec.ofNat 8)

theorem distinctBytes_nodup : distinctBytes.Nodup := by
  refine List.nodup_range.map_on fun x hx y hy heq => ?_
  rw [List.mem_range] at hx hy
  have hmod : x % 256 = y % 256 := congrArg BitVec.toNat heq
  omega

/-- Settles O51: the bound is `pbEncode_length_le`; the bytes 0 to 128 reach it. -/
theorem packBitsSizeBound : Obligations.PackBitsSizeBound := by
  have hlen : distinctBytes.length = 129 := by rw [distinctBytes, List.length_map, List.length_range]
  exact ⟨pbEncode_length_le, distinctBytes, hlen, distinctBytes_nodup, by
    rw [pbEncode_length_of_nodup distinctBytes_nodup hlen, hlen]⟩

/-! ## The command (42_packbits.md R164) -/

theorem exec_pbEncode {s : State} {d : Done} (h : pbEncodeBody s = d) : exec .pbEncode s = .next d.complete :=
  congrArg (Host.Outcome.next ∘ Done.complete) h

/-- Settles O19: each end of the body has its own range of `ILEN` and of the output's length. -/
theorem pbEncodeWritesOutput : Obligations.PbEncodeWritesOutput := by
  refine ⟨decodeCommand_encodeWord rfl, fun s e he => ?_⟩
  have hout : pbEncode s.input = e := he.symm
  rcases pbEncodeBody_cases s with ⟨hover, hbody⟩ | ⟨hin, hlong, hbody⟩ | ⟨hin, hfit, hbody⟩
  · exact ⟨fun _ => exec_pbEncode hbody, fun hle => absurd hover (Nat.not_lt.2 hle), fun hle => absurd hover (Nat.not_lt.2 hle)⟩
  · rw [hout] at hlong hbody
    exact ⟨fun hgt => absurd hgt hin, fun _ _ => ⟨_, exec_pbEncode hbody, rfl⟩, fun _ hle => absurd hlong (Nat.not_lt.2 hle)⟩
  · rw [hout] at hfit hbody
    have hread (a : Nat) : (pbEncodeBody s).complete.obufByte a = (e[a]?).getD (s.obufByte a) := by
      rw [hbody]
      refine State.obufByte_written (s := s) (bs := e) ?_ ?_ a <;> rfl
    refine ⟨fun hgt => absurd hgt hin, fun _ hgt => absurd hfit (Nat.not_le.2 hgt), fun _ _ =>
      ⟨(pbEncodeBody s).complete, rfl, ?_, ?_, fun a b hb => ?_, fun a ha => ?_⟩⟩
    · rw [hbody]
      rfl
    · rw [hbody]
      exact Nat.mod_eq_of_lt (Nat.lt_of_le_of_lt hfit s.obufSize.isLt)
    · rw [hread, hb, Option.getD_some]
    · rw [hread, List.getElem?_eq_none ha, Option.getD_none]

/-! ## The command and its tokens (42_packbits.md R162, 30_encoding.md R86) -/

theorem Memory.writeBytes_append (m : Memory) (a : Nat) (xs ys : List Byte) :
    Memory.writeBytes m a (xs ++ ys) = Memory.writeBytes (Memory.writeBytes m a xs) (a + xs.length) ys := by
  induction xs generalizing m a with
  | nil => rfl
  | cons x xs ih =>
    rw [List.cons_append, Memory.writeBytes, ih, Nat.add_assoc, Nat.add_comm 1, List.length_cons]
    rfl

theorem State.emit_complete_obufSize (s : State) (bs : List Byte) : (s.emit bs).complete.obufSize = s.obufSize := by
  rcases State.emit_cases s bs with ⟨-, e⟩ | ⟨-, e⟩ <;> rw [e] <;> rfl

/-- Two outputs that fit one after the other are one output. -/
theorem State.emit_complete_emit_complete {s : State} {xs ys : List Byte}
    (hfit : s.olen.toNat + (xs ++ ys).length ≤ s.obufSize.toNat) :
    ((s.emit xs).complete.emit ys).complete = (s.emit (xs ++ ys)).complete := by
  have hxs : s.olen.toNat + xs.length ≤ s.obufSize.toNat := by
    rw [List.length_append] at hfit
    omega
  have holen := State.emit_complete_olen hxs
  have hys : (s.emit xs).complete.olen.toNat + ys.length ≤ (s.emit xs).complete.obufSize.toNat := by
    rwa [holen, State.emit_complete_obufSize, Nat.add_assoc, ← List.length_append]
  rw [State.emit_of_fits hys, State.emit_of_fits hfit, holen, State.emit_of_fits hxs, Memory.writeBytes_append,
    List.length_append, Nat.add_assoc]
  rfl

theorem runTokens_cons (k : Token) (ks : List Token) (s : State) :
    runTokens (k :: ks) s = runTokens ks (s.emit k.bytes).complete := by
  cases k <;> rfl

/-- Tokens whose bytes fit behind an output lengthen that output. -/
theorem runTokens_emit_complete {ks : List Token} {s : State} {bs : List Byte}
    (hfit : s.olen.toNat + (bs ++ ks.flatMap Token.bytes).length ≤ s.obufSize.toNat) :
    runTokens ks (s.emit bs).complete = .next (s.emit (bs ++ ks.flatMap Token.bytes)).complete := by
  induction ks generalizing bs with
  | nil => rw [List.flatMap_nil, List.append_nil, runTokens]
  | cons k ks ih =>
    rw [List.flatMap_cons, ← List.append_assoc] at hfit ⊢
    have hk : s.olen.toNat + (bs ++ k.bytes).length ≤ s.obufSize.toNat := by
      rw [List.length_append] at hfit
      omega
    rw [runTokens_cons, State.emit_complete_emit_complete hk, ih hfit]

theorem pbTokens_ne_nil {d : List Byte} (h : d ≠ []) : pbTokens d.length d ≠ [] := by
  intro hnil
  have hdecoded := pbTokens_decoded d
  rw [hnil] at hdecoded
  exact h hdecoded.symm

/-- Settles O23: the tokens' bytes, one after the other from an empty output, are `pb_encode` of the input. -/
theorem pbEncodeRunsItsTokens : Obligations.PbEncodeRunsItsTokens := by
  intro s hpos hin hfit
  have hlen : s.input.length = s.ilen.toNat := s.ibufBytes_length 0 _
  have hne : s.input ≠ [] := List.ne_nil_of_length_pos (hlen ▸ hpos)
  have hbody : pbEncodeBody s = { s with olen := 0 }.emit (pbEncode s.input) := if_neg (Nat.not_lt.2 hin)
  obtain ⟨k, ks, hks⟩ := List.exists_cons_of_ne_nil (pbTokens_ne_nil hne)
  rw [pbEncode, hks, List.flatMap_cons] at hfit hbody
  rw [exec_pbEncode hbody, ← hlen, hks, runTokens_cons, runTokens_emit_complete]
  exact (Nat.zero_add _).trans_le hfit

end Sys2Proof.Machine

/-! # Control commands and accesses

43_control_and_access.md R180 to R185: `NOP` and `SRESET`, and the host's four operations. -/

namespace Sys2Proof.Machine

/-! ## `NOP` and `SRESET` (R180, R181) -/

/-- Settles O7. -/
theorem nopOnlyCompletes : Obligations.NopOnlyCompletes :=
  ⟨decodeCommand_encodeWord rfl, fun _ => rfl⟩

theorem State.emit_leavesSticky (s : State) (bs : List Byte) : (s.emit bs).LeavesSticky s := by
  rcases State.emit_cases s bs with ⟨-, e⟩ | ⟨-, e⟩ <;> rw [e]
  · exact Code.noConfusion
  · exact rfl

theorem Status.CompletedFrom.keeps_sticky {st st' : Status} (h : st.CompletedFrom st') (hs : st.sticky = true) :
    st'.sticky = true := by
  obtain ⟨-, hkept⟩ | ⟨-, hset⟩ := h
  · exact hkept.trans hs
  · exact hset

/-- No instruction but `SRESET` clears `STICKY` (10_state.md R26), the records included: a token is an output, and the other
records complete normally or not at all. -/
theorem exec_keeps_sticky {i : Instr} {s t : State} (hne : i ≠ .sreset) (he : exec i s = .next t)
    (hs : s.status.sticky = true) : t.status.sticky = true := by
  cases i with
  | pbLit data =>
    cases he
    exact (s.emit_leavesSticky (literalBytes data)).completed.keeps_sticky hs
  | pbRun count value =>
    cases he
    exact (s.emit_leavesSticky (runBytes count value)).completed.keeps_sticky hs
  | pngSig | pngChunk | pngIhdrBody | pngSrgbBody =>
    cases he
    exact hs
  | nop | sreset | crcInit | crcByte | crcBuf | crcSum | pngOpen | pngNext | pngIhdr | pngPeek | pbEncode =>
    exact (exec_completed rfl hne he).keeps_sticky hs

/-- Settles O8: the reset registers by computation, and every other instruction keeps a set `STICKY`. -/
theorem sresetRestoresRegisters : Obligations.SresetRestoresRegisters := by
  refine ⟨decodeCommand_encodeWord rfl, fun _ => rfl, fun i s t he hs ht => ?_⟩
  by_contra hne
  exact Bool.false_ne_true (ht.symm.trans (exec_keeps_sticky hne he hs))

/-! ## Register reads (R182) -/

/-- The 25 registers in the order of their numbers (10_state.md R24). -/
def Reg.all : List Reg :=
  [.cmd, .status, .errInfo, .ilen, .olen, .srcOff, .srcLen, .ibufSize, .obufSize, .crcR, .crcOut, .crcPoly,
   .pPos, .chLen, .chTag, .chDoff, .chCrc, .chCalc, .ihWidth, .ihHeight, .ihDepth, .ihCtype, .ihComp, .ihFilt, .ihIlace]

theorem Reg.mem_all (r : Reg) : r ∈ Reg.all := by
  cases r <;> decide

/-- The table lists each register's number with the value the register map reads for it. -/
theorem State.registerTable_eq_map (s : State) : s.registerTable = Reg.all.map fun r => (r.num, s.readReg r) := rfl

theorem State.mem_registerTable_iff {s : State} {n v : Word} :
    (n, v) ∈ s.registerTable ↔ ∃ r : Reg, r.num = n ∧ s.readReg r = v := by
  simp [State.registerTable_eq_map, Reg.mem_all]

theorem State.regRead_of_unassigned (s : State) {n : Word} (h : ∀ r : Reg, r.num ≠ n) : s.regRead n = 0 := by
  rw [State.regRead]
  cases hr : Reg.ofNum n with
  | none => rfl
  | some r => exact absurd (Reg.ofNum_eq_some hr).symm (h r)

/-- Settles O33: a number is that of one register of the table, or of none. -/
theorem regReadValues : Obligations.RegReadValues := by
  refine fun s n => ⟨rfl, fun v hv => ?_, fun hn => s.regRead_of_unassigned fun r hr => ?_⟩
  · obtain ⟨r, rfl, rfl⟩ := State.mem_registerTable_iff.1 hv
    exact s.regRead_num r
  · exact hn (List.mem_map_of_mem (State.mem_registerTable_iff.2 ⟨r, hr, rfl⟩))

/-! ## Register writes (R183) -/

/-- A write to a read-only or an unassigned number is ignored (10_state.md R42). -/
theorem perform_regWrite_ignored {n : Word} (hcmd : n ≠ 0x00) (hilen : n ≠ 0x03) (hoff : n ≠ 0x05) (hlen : n ≠ 0x06)
    (v : Word) (s : State) : perform (.regWrite n v) s = .next s := by
  rcases execRegWrite_cases n v s with ⟨h, -⟩ | ⟨h, -⟩ | ⟨h, -⟩ | ⟨h, -⟩ | ⟨-, -, -, -, e⟩
  · exact absurd h hcmd
  · exact absurd h hilen
  · exact absurd h hoff
  · exact absurd h hlen
  · exact e

/-- Settles O35: `CMD` by whether the word decodes, the three writable registers by computation, every other number ignored. -/
theorem regWriteEffects : Obligations.RegWriteEffects := by
  intro s n v
  refine ⟨?_, ?_, ?_, ?_, ?_, fun hcmd hilen hoff hlen => perform_regWrite_ignored hcmd hilen hoff hlen v s⟩ <;> rintro rfl
  · exact fun i hi => perform_command hi s
  · intro hillegal
    rw [perform_illegal hillegal, State.completeError_toNat]
    rfl
  all_goals rfl

/-! ## Buffer accesses (R184, R185) -/

/-- A byte of `IBUF` after a write of one byte. -/
theorem State.writeIbuf_ibufByte (s : State) (a : Nat) (b : Byte) (k : Nat) :
    (s.writeIbuf a b).ibufByte k = if k = a then b else s.ibufByte k := by
  simp only [State.ibufByte, State.writeIbuf_ibuf, State.writeIbuf_ibufDraw, Memory.read_write]
  split <;> rfl

/-- Settles O36: inside `IBUF` the state is `writeIbuf`'s. -/
theorem ibufWriteEffects : Obligations.IbufWriteEffects := by
  refine fun s a b => ⟨fun hout => if_neg (Nat.not_lt.2 hout), fun hin => ⟨s.writeIbuf a.toNat b, if_pos hin, rfl, ?_, ?_⟩⟩
  · rw [State.writeIbuf_ibufByte, if_pos rfl]
  · intro k hk
    rw [State.writeIbuf_ibufByte, if_neg hk]

theorem perform_obufRead (a : Word) (s : State) :
    perform (.obufRead a) s = .next { s with replies := s.replies ++ [.obuf a (s.obufRead a)] } := rfl

/-- Settles O37: `obufRead` by the bound of `OBUF`. -/
theorem obufReadValues : Obligations.ObufReadValues := by
  intro s a
  rw [perform_obufRead, State.obufRead]
  refine ⟨fun hin => ?_, fun hout => ?_⟩
  · rw [if_pos hin]
  · rw [if_neg (Nat.not_lt.2 hout)]

end Sys2Proof.Machine

/-! # The writer

44_pseudo_ops.md R195, R196 and R203: what `png_read` reads of what `png_write` wrote, and what that gives `peek_ihdr` and
`minimize`. -/

namespace Sys2Proof.Machine

/-! ## Reading what was written (R203 (c), (d)) -/

/-- The chunk `png_read` yields of a pair written: the pair with its CRC (44_pseudo_ops.md R195). -/
def writtenAs (x : Word × List Byte) : Chunk := ⟨x.1, x.2, chunkCalc x.1 x.2⟩

theorem chunkCrcOk_writtenAs (x : Word × List Byte) : chunkCrcOk (writtenAs x) = true := beq_self_eq_true _

theorem writable_iff {list : List (Word × List Byte)} : writable list = true ↔ ∀ x ∈ list, x.2.length < 4294967296 := by
  simp [writable]

theorem pngWrite_of_writable {list : List (Word × List Byte)} (h : writable list = true) :
    pngWrite list = some (pngSignature ++ writtenChunks list) := if_pos h

theorem pngWrite_eq_some {list : List (Word × List Byte)} {out : List Byte} (h : pngWrite list = some out) :
    writable list = true ∧ out = pngSignature ++ writtenChunks list := by
  rw [pngWrite] at h
  split_ifs at h with hw
  cases h
  exact ⟨hw, rfl⟩

theorem writtenChunks_cons (x : Word × List Byte) (list : List (Word × List Byte)) :
    writtenChunks (x :: list) = writtenChunk x.1 x.2 ++ writtenChunks list := List.flatMap_cons

theorem writtenChunk_ne_nil (tag : Word) (data : List Byte) : writtenChunk tag data ≠ [] :=
  List.ne_nil_of_length_pos (by rw [writtenChunk, chunkBytes_length]; omega)

/-- Every chunk is some bytes long, so the length of what was written bounds the number of chunks. -/
theorem length_le_writtenChunks_length (list : List (Word × List Byte)) : list.length ≤ (writtenChunks list).length := by
  induction list with
  | nil => exact Nat.zero_le _
  | cons x list ih =>
    rw [writtenChunks_cons, List.length_append, List.length_cons, writtenChunk, chunkBytes_length]
    omega

/-- The walk over written chunks yields them in order, to a clean end. -/
theorem pngWalk_writtenChunks {list : List (Word × List Byte)} (h : ∀ x ∈ list, x.2.length < 4294967296) {fuel : Nat}
    (hfuel : list.length ≤ fuel) (p : Nat) : pngWalk fuel p (writtenChunks list) = (list.map writtenAs, .atEnd) := by
  induction list generalizing fuel p with
  | nil => cases fuel <;> rfl
  | cons x list ih =>
    obtain ⟨hx, hlist⟩ := List.forall_mem_cons.1 h
    obtain ⟨fuel, rfl⟩ := Nat.exists_eq_add_one_of_ne_zero (Nat.ne_of_gt (Nat.lt_of_lt_of_le (Nat.succ_pos _) hfuel))
    have hne : ¬ (writtenChunks (x :: list)).isEmpty = true := by
      simp [writtenChunks_cons, writtenChunk_ne_nil]
    rw [pngWalk, if_neg hne, writtenChunks_cons, writtenChunk, takeChunkRecord_chunkBytes _ _ _ _ hx]
    simp only [ih hlist (Nat.le_of_succ_le_succ hfuel)]
    rfl

theorem pngRead_of_pngWrite {list : List (Word × List Byte)} {out : List Byte} (h : pngWrite list = some out) :
    pngRead out = .ok (list.map writtenAs, .atEnd) := by
  obtain ⟨hw, rfl⟩ := pngWrite_eq_some h
  have hfuel : list.length ≤ (pngSignature ++ writtenChunks list).length := by
    rw [List.length_append]
    exact Nat.le_add_left_of_le (length_le_writtenChunks_length list)
  have hsig : (pngSignature ++ writtenChunks list).take 8 = pngSignature := rfl
  rw [pngRead, if_neg (not_not.2 hsig)]
  exact congrArg _ (pngWalk_writtenChunks (writable_iff.1 hw) hfuel 8)

/-- Settles O53: `png_read` of what was written yields each pair with its CRC, and that CRC is the one the validator computes. -/
theorem writeThenRead : Obligations.WriteThenRead := by
  intro list h
  have hout := pngWrite_of_writable (writable_iff.2 h)
  refine ⟨_, _, hout, pngRead_of_pngWrite hout, ?_, fun c hc => ?_⟩
  · rw [List.map_map]
    exact List.map_id list
  · obtain ⟨x, -, rfl⟩ := List.mem_map.1 hc
    exact chunkCrcOk_writtenAs x

/-! ## `peek_ihdr` of a written stream (R203 (a)) -/

theorem decodeIhdr_ihdrBytes (h : IhdrBody) : decodeIhdr (ihdrBytes h) = .ok h := by
  have htake := takeIhdrBody_ihdrBytes h []
  rw [List.append_nil] at htake
  rw [decodeIhdr, if_neg (not_not.2 (ihdrBytes_length h)), htake]

/-- Settles O54: the first chunk read is the one tagged `IHDR`, with the body as its data. -/
theorem peekOfWrittenStream : Obligations.PeekOfWrittenStream := by
  intro h d hd
  have hw : writable [(0x49484452, ihdrBytes h), (0x49444154, d), (0x49454E44, [])] = true := by
    simp [writable, hd]
  refine ⟨_, pngWrite_of_writable hw, ?_⟩
  rw [peekIhdr, pngRead_of_pngWrite (pngWrite_of_writable hw)]
  exact decodeIhdr_ihdrBytes h

/-! ## `minimize` is idempotent (R203 (b)) -/

/-- There is a list to write where the stream has one IHDR and one IEND chunk, and it is the minimal one (44_pseudo_ops.md
R196). -/
theorem minimizeList_eq_some {cs : List Chunk} {srgb : Option Byte} {l : List (Word × List Byte)}
    (h : minimizeList cs srgb = .ok (some l)) : ∃ ihdr iend, dataOf tagIhdr cs = [ihdr] ∧ dataOf tagIend cs = [iend] ∧
      l = minimalList ihdr srgb (dataOf tagIdat cs).flatten iend := by
  rw [minimizeList] at h
  split at h <;> cases h
  next hihdr hiend => exact ⟨_, _, hihdr, hiend, rfl⟩

/-- The bytes `minimize` has are those `png_write` writes of a minimal list. -/
theorem exists_pngWrite_of_minimize {x y : List Byte} {srgb : Option Byte} (h : minimize x srgb = .bytes y) :
    ∃ ihdr idat iend, pngWrite (minimalList ihdr srgb idat iend) = some y := by
  rw [minimize] at h
  split at h
  · cases h
  · cases h
  · next cs _ =>
    split at h
    · cases h
    · next l hl =>
      obtain ⟨ihdr, iend, -, -, rfl⟩ := minimizeList_eq_some hl
      split at h <;> cases h
      next hout => exact ⟨_, _, _, hout⟩
    · cases h

/-- The minimal list of the chunks of a minimal list is that list: one IHDR, one IDAT, one IEND chunk, and the sRGB chunk
discarded and made again. -/
theorem minimizeList_minimalList (ihdr idat iend : List Byte) (srgb : Option Byte) :
    minimizeList ((minimalList ihdr srgb idat iend).map writtenAs) srgb = .ok (some (minimalList ihdr srgb idat iend)) := by
  cases srgb <;>
  simp [minimizeList, minimalList, dataOf, writtenAs, tagIhdr, tagIdat, tagIend, tagSrgb]

/-- Settles O55: `minimize` writes a minimal list, reads it back whole, and finds the same minimal list in it. -/
theorem minimizeIsIdempotent : Obligations.MinimizeIsIdempotent := by
  intro x y srgb h
  obtain ⟨ihdr, idat, iend, hy⟩ := exists_pngWrite_of_minimize h
  rw [minimize, pngRead_of_pngWrite hy]
  simp only [minimizeList_minimalList, hy]

end Sys2Proof.Machine

/-! # The pseudo-operations

44_pseudo_ops.md R197 to R202: what the lines of each leave, from the operations they stand for. -/

namespace Sys2Proof.Machine

/-! ## Lines (30_encoding.md R88) -/

/-- The host has read a register (43_control_and_access.md R182). -/
def State.answer (s : State) (r : Reg) : State := { s with replies := s.replies ++ [.reg r.num (s.readReg r)] }

@[simp] theorem State.answer_replies (s : State) (r : Reg) :
    (s.answer r).replies = s.replies ++ [.reg r.num (s.readReg r)] := rfl

@[simp] theorem State.answer_status (s : State) (r : Reg) : (s.answer r).status = s.status := rfl
@[simp] theorem State.answer_pPos (s : State) (r : Reg) : (s.answer r).pPos = s.pPos := rfl
@[simp] theorem State.answer_ilen (s : State) (r : Reg) : (s.answer r).ilen = s.ilen := rfl
@[simp] theorem State.answer_ibufSize (s : State) (r : Reg) : (s.answer r).ibufSize = s.ibufSize := rfl

/-- Reading a register changes no register. -/
@[simp] theorem State.answer_readReg (s : State) (r r' : Reg) : (s.answer r).readReg r' = s.readReg r' := by
  cases r' <;> rfl

@[simp] theorem runLines_nil (s : State) : runLines [] s = .next s := rfl

@[simp] theorem State.answer_ibufBytes (s : State) (r : Reg) (a n : Nat) : (s.answer r).ibufBytes a n = s.ibufBytes a n :=
  State.ibufBytes_of_ibuf (s := s.answer r) (t := s) rfl rfl a n

/-- A program goes on from where its first line leaves the machine. -/
theorem runLines_cons {l : Line} {op : HostOp} {s t : State} (hop : l.op = some op) (h : perform op s = .next t)
    (ls : List Line) : runLines (l :: ls) s = runLines ls t := by
  rw [runLines, List.filterMap_cons_some hop, performAll_cons_next h]
  rfl

theorem runLines_command {i : Instr} {w : Word} {s t : State} (hw : encodeWord i = some w) (he : exec i s = .next t)
    (ls : List Line) : runLines (.command i :: ls) s = runLines ls t :=
  runLines_cons (l := .command i) (congrArg (Option.map (HostOp.regWrite Reg.cmd.num)) hw)
    ((perform_command (decodeCommand_encodeWord hw) s).trans he) ls

@[simp] theorem runLines_rd (r : Reg) (ls : List Line) (s : State) : runLines (.rd r :: ls) s = runLines ls (s.answer r) := by
  refine runLines_cons rfl ?_ ls
  rw [State.answer, ← State.regRead_num]
  rfl

@[simp] theorem runLines_wr_ilen (v : Word) (ls : List Line) (s : State) :
    runLines (.wr .ilen v :: ls) s = runLines ls (s.writeIlen v) := runLines_cons rfl rfl ls

/-- The window of `CRC_BUF` set (10_state.md R30). -/
def State.setWindow (s : State) (off len : Word) : State := { s with srcOff := off, srcLen := len }

section
variable (s : State) (off len : Word)

@[simp] theorem State.setWindow_srcOff : (s.setWindow off len).srcOff = off := rfl
@[simp] theorem State.setWindow_srcLen : (s.setWindow off len).srcLen = len := rfl
@[simp] theorem State.setWindow_status : (s.setWindow off len).status = s.status := rfl
@[simp] theorem State.setWindow_pPos : (s.setWindow off len).pPos = s.pPos := rfl
@[simp] theorem State.setWindow_ilen : (s.setWindow off len).ilen = s.ilen := rfl
@[simp] theorem State.setWindow_ibufSize : (s.setWindow off len).ibufSize = s.ibufSize := rfl
@[simp] theorem State.setWindow_replies : (s.setWindow off len).replies = s.replies := rfl

end

@[simp] theorem State.setWindow_srcWindow (s : State) (off len : Word) :
    (s.setWindow off len).srcWindow = s.ibufBytes off.toNat len.toNat :=
  State.ibufBytes_of_ibuf (s := s.setWindow off len) (t := s) rfl rfl _ _

@[simp] theorem runLines_setWindow (off len : Word) (ls : List Line) (s : State) :
    runLines (.wr .srcOff off :: .wr .srcLen len :: ls) s = runLines ls (s.setWindow off len) :=
  (runLines_cons rfl rfl _).trans (runLines_cons rfl rfl ls)

@[simp] theorem runLines_crcInit (ls : List Line) (s : State) :
    runLines (.command .crcInit :: ls) s = runLines ls (s.foldCrc crcInitVal []).completeOk := runLines_command rfl rfl ls

@[simp] theorem runLines_crcByte (b : Byte) (ls : List Line) (s : State) :
    runLines (.command (.crcByte b) :: ls) s = runLines ls (s.foldCrc s.crcR [b]).completeOk := runLines_command rfl rfl ls

/-- `CRC_BUF` with its window in range (40_crc32.md R117). -/
theorem runLines_crcBuf {s : State} (hin : s.ilen.toNat ≤ s.ibufSize.toNat)
    (hwindow : s.srcOff.toNat + s.srcLen.toNat ≤ s.ilen.toNat) (ls : List Line) :
    runLines (.command .crcBuf :: ls) s = runLines ls (s.foldCrc s.crcR s.srcWindow).completeOk :=
  runLines_command rfl ((crcBufFoldsWindow.2 s).2.2 hin hwindow) ls

/-- `CRC_INIT`, then `CRC_BUF`: the window folded from the preset value. -/
theorem runLines_crcInit_crcBuf {s : State} (hin : s.ilen.toNat ≤ s.ibufSize.toNat)
    (hwindow : s.srcOff.toNat + s.srcLen.toNat ≤ s.ilen.toNat) (ls : List Line) :
    runLines (.command .crcInit :: .command .crcBuf :: ls) s =
      runLines ls (s.foldCrc crcInitVal s.srcWindow).completeOk := by
  have hbytes : (s.foldCrc crcInitVal []).completeOk.srcWindow = s.srcWindow :=
    State.ibufBytes_of_ibuf (s := (s.foldCrc crcInitVal []).completeOk) (t := s) rfl rfl _ _
  rw [runLines_crcInit, runLines_crcBuf (s := (s.foldCrc crcInitVal []).completeOk) hin hwindow, hbytes]
  rfl

/-! ## `LOAD` (R197) -/

/-- What `LOAD bs` leaves: the bytes in `IBUF` from address 0, `ILEN` their number, the parse closed. -/
def State.load (s : State) (bs : List Byte) : State :=
  State.writeIlen { s with ibuf := Memory.writeBytes s.ibuf 0 bs } (BitVec.ofNat 32 bs.length)

section
variable {s : State} {bs : List Byte} (hfits : bs.length ≤ s.ibufSize.toNat)
include hfits

theorem State.load_ilen_toNat : (s.load bs).ilen.toNat = bs.length :=
  Nat.mod_eq_of_lt (Nat.lt_of_le_of_lt hfits s.ibufSize.isLt)

theorem State.load_not_ilenOver : ¬ (s.load bs).ilenOver := by
  rw [State.ilenOver, State.load_ilen_toNat hfits]
  exact Nat.not_lt.2 hfits

/-- The valid input after `LOAD bs` is `bs`. -/
theorem State.load_input : (s.load bs).input = bs := by
  rw [State.input, State.load_ilen_toNat hfits]
  apply List.ext_getElem?
  intro k
  rcases Nat.lt_or_ge k bs.length with hk | hk
  · have hread : Memory.read (s.load bs).ibuf (0 + k) = bs[k]? := by
      rw [State.load, State.writeIlen_ibuf, Memory.read_writeBytes, if_pos (by omega)]
      simp
    rw [State.ibufBytes_getElem? _ _ _ _ hk, State.ibufByte, hread, List.getElem?_eq_getElem hk]
    rfl
  · rw [List.getElem?_eq_none (by simpa using hk), List.getElem?_eq_none hk]

end

theorem loadLines_of_fits {ibufSize : Word} {bs : List Byte} (hfits : bs.length ≤ ibufSize.toNat) :
    loadLines ibufSize bs = some (ibLines 0 bs ++ [.wr .ilen (BitVec.ofNat 32 bs.length)]) := if_pos hfits

/-- The `IB` lines store their bytes; each closes the parse, which the write to `ILEN` after them does too. -/
theorem runLines_ibLines {s : State} {a : Nat} {bs : List Byte} (hfits : a + bs.length ≤ s.ibufSize.toNat) (v : Word)
    (ls : List Line) : runLines (ibLines a bs ++ .wr .ilen v :: ls) s =
      runLines ls (State.writeIlen { s with ibuf := Memory.writeBytes s.ibuf a bs } v) := by
  induction bs generalizing a s with
  | nil => exact runLines_wr_ilen v ls s
  | cons b bs ih =>
    rw [List.length_cons] at hfits
    have ha : (BitVec.ofNat 32 a).toNat = a := Nat.mod_eq_of_lt (by have := s.ibufSize.isLt; omega)
    have hib : perform (.ibufWrite (BitVec.ofNat 32 a) b) s = .next (s.writeIbuf a b) := by
      show execIbufWrite _ _ _ = _
      rw [execIbufWrite, ha, if_pos (by omega)]
    rw [ibLines, List.cons_append, runLines_cons rfl hib, ih (by rw [State.writeIbuf_ibufSize]; omega)]
    rfl

theorem runLines_load {s : State} {bs : List Byte} (hfits : bs.length ≤ s.ibufSize.toNat) (ls : List Line) :
    runLines (ibLines 0 bs ++ .wr .ilen (BitVec.ofNat 32 bs.length) :: ls) s = runLines ls (s.load bs) :=
  runLines_ibLines (by rwa [Nat.zero_add]) _ ls

/-! ## `CRC32` (R198) -/

theorem crc32ByBuffer_of_fits {ibufSize : Word} {bs : List Byte} (hfits : bs.length ≤ ibufSize.toNat) :
    crc32ByBuffer ibufSize bs =
      some (ibLines 0 bs ++ [.wr .ilen (BitVec.ofNat 32 bs.length), .command .crcSum, .rd .crcOut]) := by
  rw [crc32ByBuffer, loadLines_of_fits hfits]
  exact congrArg some (List.append_assoc _ _ _)

/-- `CRC32 bs` through the buffer leaves the CRC of `bs` in the CRC unit, and the host has read it. -/
theorem runLines_crc32ByBuffer {s : State} {bs : List Byte} {ls : List Line} (hfits : bs.length ≤ s.ibufSize.toNat)
    (hls : crc32ByBuffer s.ibufSize bs = some ls) :
    runLines ls s = .next (((s.load bs).foldCrc crcInitVal bs).completeOk.answer .crcOut) := by
  have hsum : exec .crcSum (s.load bs) = .next ((s.load bs).foldCrc crcInitVal bs).completeOk := by
    rcases crcSumBody_cases (s.load bs) with ⟨hover, -⟩ | ⟨-, e⟩
    · exact absurd hover (State.load_not_ilenOver hfits)
    · rw [exec_crcSum e, State.load_input hfits]
      rfl
  cases (crc32ByBuffer_of_fits hfits).symm.trans hls
  rw [runLines_load hfits, runLines_command rfl hsum, runLines_rd, runLines_nil]

/-- Each immediate byte is one step of the fold. -/
theorem runLines_crcBytes (bs : List Byte) (ls : List Line) (s : State) :
    runLines (bs.map (fun b => .command (.crcByte b)) ++ ls) s.completeOk =
      runLines ls (s.foldCrc s.crcR bs).completeOk := by
  induction bs generalizing s with
  | nil => rfl
  | cons b bs ih =>
    rw [List.map_cons, List.cons_append, runLines_crcByte]
    exact ih (s.foldCrc s.crcR [b])

theorem runLines_crc32ByBytes (bs : List Byte) (s : State) :
    runLines (crc32ByBytes bs) s = .next ((s.foldCrc crcInitVal bs).completeOk.answer .crcOut) := by
  rw [crc32ByBytes, List.cons_append, runLines_crcInit, runLines_crcBytes, runLines_rd, runLines_nil]
  rfl

/-- Settles O56: `LOAD` stores its bytes and then `ILEN`; `CRC_SUM` folds the bytes loaded, `CRC_BYTE` one after the other. -/
theorem loadAndCrc32 : Obligations.LoadAndCrc32 := by
  refine fun s bs => ⟨fun hlong => ?_, fun hfits => ?_, fun hfits => ?_, ?_⟩
  · have hnone : loadLines s.ibufSize bs = none := if_neg (Nat.not_le.2 hlong)
    exact ⟨hnone, by rw [crc32ByBuffer, hnone]; rfl⟩
  · exact ⟨_, s.load bs, loadLines_of_fits hfits, runLines_load hfits [], State.load_input hfits, rfl⟩
  · have hls := crc32ByBuffer_of_fits hfits
    exact ⟨_, _, hls, runLines_crc32ByBuffer hfits hls, rfl⟩
  · exact ⟨_, runLines_crc32ByBytes bs s, rfl, rfl⟩

/-! ## `CHUNK_VERIFY` (R200) -/

/-- The chunk's tag and data, which `CHUNK_VERIFY` folds. -/
def State.verifyBytes (s : State) : List Byte := s.ibufBytes (s.chDoff.toNat - 4) (s.chLen.toNat + 4)

/-- The host has read where the chunk stands, and set the window to its tag and data. -/
def State.verifyWindow (s : State) : State :=
  (((s.answer .chDoff).answer .chLen).answer .chCrc).setWindow (s.chDoff - 4) (s.chLen + 4)

/-- What `CHUNK_VERIFY` leaves before its last read. -/
def State.verified (s : State) : State := (s.verifyWindow.foldCrc crcInitVal s.verifyBytes).completeOk

theorem State.verified_replies (s : State) :
    s.verified.replies = s.replies ++ [.reg 0x23 s.chDoff, .reg 0x21 s.chLen, .reg 0x24 s.chCrc] := by
  simp only [State.verified, State.completeOk_replies, State.foldCrc_replies, State.verifyWindow, State.setWindow_replies,
    State.answer_replies, State.answer_readReg, List.append_assoc]
  rfl

theorem State.verified_status (s : State) : s.verified.status = s.status.completedOk := by
  simp [State.verified, State.verifyWindow]

theorem State.verified_pPos (s : State) : s.verified.pPos = s.pPos := by
  simp [State.verified, State.verifyWindow]

theorem State.CurrentChunk.verified_crcOut {s : State} (h : s.CurrentChunk) : s.verified.readReg .crcOut = s.chCalc := by
  rw [h.calc_eq]
  rfl

/-- The lines of `CHUNK_VERIFY` in this state. -/
def State.verifyLines (s : State) : List Line :=
  [.rd .chDoff, .rd .chLen, .rd .chCrc, .wr .srcOff (s.chDoff - 4), .wr .srcLen (s.chLen + 4),
    .command .crcInit, .command .crcBuf, .rd .crcOut]

theorem chunkVerify_of_chValid {s : State} (hvalid : s.status.chValid = true) : chunkVerify s = some s.verifyLines := by
  rw [chunkVerify, if_pos hvalid, State.regRead_num, State.regRead_num]
  rfl

/-- 10_state.md R44 (c): the window of `CHUNK_VERIFY` lies inside the valid input, so `CRC_BUF` does not fail. -/
theorem runLines_chunkVerify {s : State} (hparse : s.OpenParse) (hchunk : s.CurrentChunk) :
    runLines s.verifyLines s = .next (s.verified.answer .crcOut) := by
  have hdoff := hchunk.doff_ge
  have hpos := hchunk.pos_eq
  have hposLe := hparse.pos_le
  have hoff : (s.chDoff - 4).toNat = s.chDoff.toNat - 4 := by bv_omega
  have hlen : (s.chLen + 4).toNat = s.chLen.toNat + 4 := by bv_omega
  have hin : s.verifyWindow.ilen.toNat ≤ s.verifyWindow.ibufSize.toNat := by
    simpa [State.verifyWindow] using hparse.ilen_le
  have hwindow : s.verifyWindow.srcOff.toNat + s.verifyWindow.srcLen.toNat ≤ s.verifyWindow.ilen.toNat := by
    simp only [State.verifyWindow, State.setWindow_srcOff, State.setWindow_srcLen, State.setWindow_ilen, State.answer_ilen]
    omega
  have hbytes : s.verifyWindow.srcWindow = s.verifyBytes := by
    simp only [State.verifyWindow, State.verifyBytes, State.setWindow_srcWindow, State.answer_ibufBytes, hoff, hlen]
  rw [State.verifyLines, runLines_rd, runLines_rd, runLines_rd, runLines_setWindow, ← State.verifyWindow,
    runLines_crcInit_crcBuf hin hwindow, hbytes, runLines_rd, runLines_nil, State.verified]

/-- Settles O57: the window is the tag and the data of the current chunk, so `CRC_BUF` folds what `CH_CALC` is the CRC of. -/
theorem chunkVerifyRecomputes : Obligations.ChunkVerifyRecomputes := by
  intro s hinv hvalid
  have hopen := hinv.chValid_open hvalid
  have hchunk := hinv.current_chunk hvalid
  have hread : (s.verified.answer .crcOut).regRead 0x11 = s.chCalc :=
    (State.regRead_num _ .crcOut).trans ((State.answer_readReg _ _ _).trans hchunk.verified_crcOut)
  refine ⟨_, _, chunkVerify_of_chValid hvalid, runLines_chunkVerify (hinv.open_parse hopen) hchunk, ?_, hread, ?_, ?_⟩
  · rw [State.answer_replies, hchunk.verified_crcOut, State.verified_replies, List.append_assoc]
    rfl
  · rw [hread]
    exact hchunk.verdict.symm
  · simp [State.verified_status, State.verified_pPos, hopen, hvalid]

/-! ## `PNG_WRITE` (R201) -/

theorem pieceLines_of_fits {ibufSize : Word} {piece : List Byte} (hfits : piece.length ≤ ibufSize.toNat) :
    pieceLines ibufSize piece = some (ibLines 0 piece ++ [.wr .ilen (BitVec.ofNat 32 piece.length), .wr .srcOff 0,
      .wr .srcLen (BitVec.ofNat 32 piece.length), .command .crcBuf]) := by
  rw [pieceLines, loadLines_of_fits hfits]
  exact congrArg some (List.append_assoc _ _ _)

/-- The piece is loaded, and the window is all of it. -/
def State.loadPiece (s : State) (piece : List Byte) : State :=
  (s.load piece).setWindow 0 (BitVec.ofNat 32 piece.length)

/-- The piece is loaded and folded into `CRC_R`. -/
def State.feedPiece (s : State) (piece : List Byte) : State := ((s.loadPiece piece).foldCrc s.crcR piece).completeOk

@[simp] theorem State.feedPiece_ibufSize (s : State) (piece : List Byte) : (s.feedPiece piece).ibufSize = s.ibufSize := rfl

theorem runLines_piece {s : State} {piece : List Byte} (hfits : piece.length ≤ s.ibufSize.toNat) (ls : List Line) :
    runLines (ibLines 0 piece ++ .wr .ilen (BitVec.ofNat 32 piece.length) :: .wr .srcOff 0 ::
      .wr .srcLen (BitVec.ofNat 32 piece.length) :: .command .crcBuf :: ls) s = runLines ls (s.feedPiece piece) := by
  have hilen : (s.loadPiece piece).ilen.toNat = piece.length := State.load_ilen_toNat hfits
  have hin : (s.loadPiece piece).ilen.toNat ≤ (s.loadPiece piece).ibufSize.toNat := hilen.trans_le hfits
  have hwindow : (s.loadPiece piece).srcOff.toNat + (s.loadPiece piece).srcLen.toNat ≤ (s.loadPiece piece).ilen.toNat :=
    (Nat.zero_add _).le
  have hbytes : (s.loadPiece piece).srcWindow = piece :=
    (State.setWindow_srcWindow _ _ _).trans (State.load_input hfits)
  rw [runLines_load hfits, runLines_setWindow, ← State.loadPiece, runLines_crcBuf hin hwindow, hbytes]
  rfl

/-- Pieces that fit `IBUF` are fed one after the other. -/
theorem runLines_pieces {pieces : List (List Byte)} {s : State} (hfits : ∀ p ∈ pieces, p.length ≤ s.ibufSize.toNat) :
    ∃ lss, pieces.mapM (pieceLines s.ibufSize) = some lss ∧
      ∀ ls, runLines (lss.flatten ++ ls) s = runLines ls (pieces.foldl State.feedPiece s) := by
  induction pieces generalizing s with
  | nil => exact ⟨[], rfl, fun _ => rfl⟩
  | cons p pieces ih =>
    obtain ⟨hp, hpieces⟩ := List.forall_mem_cons.1 hfits
    obtain ⟨lss, hlss, hrun⟩ := ih (s := s.feedPiece p) hpieces
    rw [State.feedPiece_ibufSize] at hlss
    refine ⟨_ :: lss, by rw [List.mapM_cons, pieceLines_of_fits hp, hlss]; rfl, fun ls => ?_⟩
    rw [List.flatten_cons, List.append_assoc, List.append_assoc, List.foldl_cons, ← hrun ls]
    exact runLines_piece hp _

/-- 40_crc32.md R119 (a): feeding pieces folds their concatenation; and it leaves `IBUF_SIZE`. -/
theorem State.foldl_feedPiece (pieces : List (List Byte)) (s : State) :
    (pieces.foldl State.feedPiece s).crcR = crcFold s.crcR pieces.flatten ∧
      (pieces.foldl State.feedPiece s).ibufSize = s.ibufSize := by
  induction pieces generalizing s with
  | nil => exact ⟨rfl, rfl⟩
  | cons p pieces ih =>
    obtain ⟨hcrc, hsize⟩ := ih (s.feedPiece p)
    rw [List.flatten_cons, crcFold_append]
    exact ⟨hcrc, hsize⟩

theorem length_le_of_mem_piecesOf {fuel n : Nat} {bs p : List Byte} (h : p ∈ piecesOf fuel n bs) : p.length ≤ n := by
  induction fuel generalizing bs with
  | zero => cases bs <;> cases h
  | succ fuel ih =>
    cases bs with
    | nil => cases h
    | cons b bs =>
      rcases List.mem_cons.1 h with rfl | h
      · exact List.length_take_le n (b :: bs)
      · exact ih h

theorem flatten_piecesOf {fuel n : Nat} (hn : 0 < n) {bs : List Byte} (hfuel : bs.length ≤ fuel) :
    (piecesOf fuel n bs).flatten = bs := by
  induction fuel generalizing bs with
  | zero => cases bs <;> [rfl; cases hfuel]
  | succ fuel ih =>
    cases bs with
    | nil => rfl
    | cons b bs =>
      have hdrop : ((b :: bs).drop n).length ≤ fuel := by
        rw [List.length_drop]
        omega
      rw [piecesOf, List.flatten_cons, ih hdrop, List.take_append_drop]

/-- The bytes are fed in pieces of `IBUF_SIZE` bytes after a `CRC_INIT`. -/
def State.feed (s : State) (bs : List Byte) : State :=
  (piecesOf bs.length s.ibufSize.toNat bs).foldl State.feedPiece (s.foldCrc crcInitVal []).completeOk

theorem State.feed_ibufSize (s : State) (bs : List Byte) : (s.feed bs).ibufSize = s.ibufSize :=
  (State.foldl_feedPiece _ _).2

theorem State.feed_crcR {s : State} (hsize : s.ibufSize ≠ 0) (bs : List Byte) : (s.feed bs).crcR = crcFold crcInitVal bs := by
  have hpos : 0 < s.ibufSize.toNat := Nat.pos_of_ne_zero fun h => hsize (BitVec.eq_of_toNat_eq h)
  rw [State.feed, (State.foldl_feedPiece _ _).1, flatten_piecesOf hpos le_rfl]
  rfl

/-- However the bytes are fed, the host reads their CRC. -/
theorem exists_runLines_crcLines {s : State} (hsize : s.ibufSize ≠ 0) (bs : List Byte) : ∃ ls t,
    crcLines s.ibufSize bs = some ls ∧ runLines ls s = .next t ∧ t.readReg .crcOut = crc32 bs ∧ t.ibufSize = s.ibufSize := by
  by_cases hfits : bs.length ≤ s.ibufSize.toNat
  · have hls := crc32ByBuffer_of_fits hfits
    exact ⟨_, _, (if_pos hfits).trans hls, runLines_crc32ByBuffer hfits hls, rfl, rfl⟩
  · obtain ⟨lss, hlss, hrun⟩ := runLines_pieces (s := (s.foldCrc crcInitVal []).completeOk)
      (pieces := piecesOf bs.length s.ibufSize.toNat bs) fun _ hp => length_le_of_mem_piecesOf hp
    refine ⟨.command .crcInit :: lss.flatten ++ [.rd .crcOut], (s.feed bs).answer .crcOut, ?_, ?_, ?_, s.feed_ibufSize bs⟩
    · rw [crcLines, if_neg hfits, if_neg hsize]
      exact congrArg _ hlss
    · rw [List.cons_append, runLines_crcInit, hrun, runLines_rd, runLines_nil, State.feed]
    · rw [State.answer_readReg]
      exact congrArg not32 (State.feed_crcR hsize bs)

/-- The bytes the loop emits are the chunks `png_write` writes. -/
theorem exists_pngWriteLoop (list : List (Word × List Byte)) {s : State} (hsize : s.ibufSize ≠ 0) :
    ∃ t, pngWriteLoop list s = some (writtenChunks list, t) := by
  induction list generalizing s with
  | nil => exact ⟨s, rfl⟩
  | cons x list ih =>
    obtain ⟨tag, data⟩ := x
    obtain ⟨ls, u, hls, hrun, hcrc, hkept⟩ := exists_runLines_crcLines hsize (be32Bytes tag ++ data)
    obtain ⟨t, ht⟩ := ih (s := u) (hkept ▸ hsize)
    refine ⟨t, ?_⟩
    rw [pngWriteLoop, hls, Option.bind_some, hrun, nextState_next, Option.bind_some, ht, Option.map_some, State.regRead_num,
      hcrc]
    rfl

theorem pngWriteHost_of_pngWrite {list : List (Word × List Byte)} {out : List Byte} (h : pngWrite list = some out)
    {s : State} (hsize : s.ibufSize ≠ 0) : ∃ t, pngWriteHost list s = some (out, t) := by
  obtain ⟨hw, rfl⟩ := pngWrite_eq_some h
  obtain ⟨t, ht⟩ := exists_pngWriteLoop list hsize
  refine ⟨t, ?_⟩
  rw [pngWriteHost, if_neg (by simp [hw]), ht]
  rfl

/-- Settles O59: the CRC the host reads for each pair is the one `png_write` stores. -/
theorem pngWriteHostIsPngWrite : Obligations.PngWriteHostIsPngWrite := by
  intro s list hsize h
  have hout := pngWrite_of_writable (writable_iff.2 h)
  obtain ⟨t, ht⟩ := pngWriteHost_of_pngWrite hout hsize
  exact ⟨_, t, hout, ht⟩

/-! ## `PNG_READ_ALL` (R199) -/

/-- The fields of a `STATUS` the host has read (10_state.md R26). -/
theorem errOf_toWord (st : Status) : errOf st.toWord = st.err.toByte := (statusLayout.1 st).1

theorem eos_toWord (st : Status) : st.toWord.getLsbD 10 = st.eos := by
  obtain ⟨-, -, -, heos, -⟩ := statusLayout.1 st
  exact heos

theorem crcOk_toWord (st : Status) : st.toWord.getLsbD 12 = st.crcOk := by
  obtain ⟨-, -, -, -, -, hcrcOk, -⟩ := statusLayout.1 st
  exact hcrcOk

theorem State.answer_regRead_status (s : State) (r : Reg) : (s.answer r).regRead Reg.status.num = s.status.toWord := by
  rw [State.regRead_num, State.answer_readReg]
  rfl

/-- A command and a read of `STATUS` after it. -/
theorem runLines_command_status {i : Instr} {w : Word} {s t : State} (hw : encodeWord i = some w) (he : exec i s = .next t) :
    runLines [.command i, .rd .status] s = .next (t.answer .status) := by
  rw [runLines_command hw he, runLines_rd, runLines_nil]

/-- The machine with other values read so far. -/
def State.heard (s : State) (rs : List Reply) : State := { s with replies := rs }

theorem State.answer_eq_heard (s : State) (r : Reg) : s.answer r = s.heard (s.replies ++ [.reg r.num (s.readReg r)]) := rfl

theorem State.heard_answer (s : State) (rs : List Reply) (r : Reg) :
    (s.heard rs).answer r = s.heard (rs ++ [.reg r.num ((s.heard rs).readReg r)]) := rfl

/-- `PNG_NEXT` reads neither the completion before it nor what the host has read. -/
theorem exec_pngNext_heard (s : State) (rs : List Reply) :
    exec .pngNext (s.completeOk.heard rs) = .next ((pngNextBody s).complete.heard rs) := by
  have hchunkAt (p len : Nat) : (s.completeOk.heard rs).chunkAt p len = s.chunkAt p len := by
    rw [State.chunkAt, State.ibufBytes_of_ibuf (s := s.completeOk.heard rs) (t := s) rfl rfl]
    rfl
  show Host.Outcome.next (pngNextBody (s.completeOk.heard rs)).complete = _
  simp only [pngNextBody, hchunkAt, apply_ite Done.complete, apply_ite (State.heard · rs)]
  rfl

/-- The host has read the four registers of the current chunk. -/
def State.answerChunk (s : State) : State := (((s.answer .chTag).answer .chLen).answer .chDoff).answer .chCrc

theorem State.heard_answerChunk (s : State) (rs : List Reply) :
    ∃ rs', ((s.heard rs).answer .status).answerChunk = s.heard rs' := by
  simp only [State.answerChunk, State.heard_answer]
  exact ⟨_, rfl⟩

theorem State.heard_chunkView (s : State) (rs : List Reply) : (s.heard rs).chunkView = s.chunkView := rfl

/-- One turn of the loop, by what `PNG_NEXT` leaves. -/
theorem readAllLoop_succ (fuel : Nat) {s t : State} (ht : exec .pngNext s = .next t) : readAllLoop (fuel + 1) s =
    if t.status.err.toByte ≠ 0 then some ([], .failed t.status.err.toByte, t.answer .status)
    else if t.status.eos then some ([], .complete, t.answer .status)
    else (readAllLoop fuel (t.answer .status).answerChunk).map fun (views, e, u) =>
      ((t.answer .status).answerChunk.chunkView :: views, e, u) := by
  rw [readAllLoop, runLines_command_status rfl ht, nextState_next, Option.bind_some, State.answer_regRead_status]
  simp only [errOf_toWord, eos_toWord, runLines_rd, runLines_nil, nextState_next, Option.bind_some]
  rfl

/-- How `PNG_READ_ALL` stops where the walk of `png_read` ends: complete, or with `FMT_TRUNCATED`. -/
def WalkEnd.readAllEnd : WalkEnd → ReadAllEnd
  | .atEnd   => .complete
  | .trunc _ => .failed 0x11

/-- A window inside the valid input, in the host's own copy of it. -/
theorem State.input_window (s : State) {a n : Nat} (h : a + n ≤ s.ilen.toNat) : (s.input.drop a).take n = s.ibufBytes a n := by
  rw [State.input, State.ibufBytes_drop s 0 _ a (by omega), State.ibufBytes_take _ _ _ n (by omega), Nat.zero_add]

theorem State.takeChunk_input (s : State) (c : Chunk) : (s.takeChunk c).input = s.input := s.takeChunk_ibufBytes c 0 _

/-- The window the chunk registers show lies inside the valid input. -/
theorem State.takeChunk_window_le {s : State} {c : Chunk} (hnext : pngNextBody s = .ok (s.takeChunk c)) :
    (s.takeChunk c).chDoff.toNat + (s.takeChunk c).chLen.toNat ≤ s.ilen.toNat := by
  rcases pngNextBody_cases s with ⟨-, e⟩ | ⟨-, -, e⟩ | ⟨-, -, -, e⟩ | ⟨-, hfits, e⟩
  · cases e.symm.trans hnext
  · have hvalid : (s.takeChunk c).status.chValid = false :=
      congrArg (fun t => t.status.chValid) (Done.ok.inj (hnext.symm.trans e))
    cases hvalid
  · cases e.symm.trans hnext
  · have hilen := s.ilen.isLt
    have hnextChunk : s.takeChunk c = s.takeChunk s.nextChunk := Done.ok.inj (hnext.symm.trans e)
    have hdoff : (s.takeChunk s.nextChunk).chDoff.toNat = s.pPos.toNat + 8 := Nat.mod_eq_of_lt (by omega)
    have hlen : (s.takeChunk s.nextChunk).chLen.toNat = (s.ibufWord s.pPos.toNat).toNat := by
      rw [State.nextChunk, State.takeChunk_chunkAt]
    rw [hnextChunk, hdoff, hlen]
    omega

/-- What the host reads of a chunk taken: the chunk, its data from the host's own copy, and the verdict. -/
theorem State.takeChunk_chunkView {s : State} {c : Chunk} (hnext : pngNextBody s = .ok (s.takeChunk c))
    (hdata : (s.takeChunk c).chunkData = c.data) : (s.takeChunk c).completeOk.chunkView.chunk s.input = c ∧
      (s.takeChunk c).completeOk.chunkView.crcOk = chunkCrcOk c := by
  refine ⟨?_, crcOk_toWord _⟩
  rw [State.chunkData, State.takeChunk_ibufBytes] at hdata
  have hwindow := (s.input_window (State.takeChunk_window_le hnext)).trans hdata
  exact congrArg (Chunk.mk c.tag · c.crc) hwindow

/-- The loop of `PNG_READ_ALL` obtains the chunks of the walk with their verdicts, and stops as the walk ends. -/
theorem State.Walks.readAllLoop {s : State} {cs : List Chunk} {e : WalkEnd} (h : s.Walks cs e) (heos : s.status.eos = false)
    {fuel : Nat} (hfuel : cs.length ≤ fuel) (rs : List Reply) :
    ∃ views t, readAllLoop (fuel + 1) (s.completeOk.heard rs) = some (views, e.readAllEnd, t) ∧
      views.map (·.chunk s.input) = cs ∧ views.map ChunkView.crcOk = cs.map chunkCrcOk ∧ t.ibufSize = s.ibufSize := by
  induction h generalizing fuel rs with
  | @atEnd s hnext =>
    rw [readAllLoop_succ fuel ((exec_pngNext_heard s rs).trans (by rw [hnext]))]
    exact ⟨_, _, rfl, rfl, rfl, rfl⟩
  | @trunc s hnext =>
    rw [readAllLoop_succ fuel ((exec_pngNext_heard s rs).trans (by rw [hnext]))]
    exact ⟨_, _, rfl, rfl, rfl, rfl⟩
  | @chunk s c cs e hnext hdata hrest ih =>
    cases fuel with
    | zero => cases hfuel
    | succ fuel =>
      obtain ⟨hchunk, hverdict⟩ := State.takeChunk_chunkView hnext hdata
      obtain ⟨rs', hheard⟩ := (s.takeChunk c).completeOk.heard_answerChunk rs
      obtain ⟨views, t, hloop, hchunks, hverdicts, hsize⟩ := ih heos (Nat.le_of_succ_le_succ hfuel) rs'
      rw [State.takeChunk_input] at hchunks
      have hmore : ¬ ((s.takeChunk c).completeOk.heard rs).status.eos = true := by simp [State.heard, heos]
      refine ⟨(s.takeChunk c).completeOk.chunkView :: views, t, ?_, congrArg₂ List.cons hchunk hchunks,
        congrArg₂ List.cons hverdict hverdicts, hsize⟩
      rw [readAllLoop_succ (fuel + 1) ((exec_pngNext_heard s rs).trans (by rw [hnext, Done.complete_ok])),
        if_neg (fun h => h rfl), if_neg hmore, hheard, hloop, Option.map_some, State.heard_chunkView]

/-- The chunks and their data are no longer than the bytes they were read from. -/
theorem pngWalk_length_le (fuel p : Nat) (bs : List Byte) :
    (pngWalk fuel p bs).1.length + ((pngWalk fuel p bs).1.map Chunk.data).flatten.length ≤ bs.length := by
  induction fuel generalizing p bs with
  | zero => exact Nat.zero_le _
  | succ fuel ih =>
    rw [pngWalk]
    split_ifs
    · exact Nat.zero_le _
    · split
      · exact Nat.zero_le _
      · next tag data crc rest hrecord =>
        have hrest := ih (p + 12 + data.length) rest
        rw [(takeChunkRecord_eq_some hrecord).1]
        simp only [List.length_append, chunkBytes_length, List.map_cons, List.flatten_cons, List.length_cons]
        omega

theorem pngRead_length_le {bs : List Byte} {cs : List Chunk} {e : WalkEnd} (h : pngRead bs = .ok (cs, e)) :
    cs.length + (cs.map Chunk.data).flatten.length ≤ bs.length := by
  rw [pngRead] at h
  split_ifs at h
  have hle := pngWalk_length_le bs.length 8 (bs.drop 8)
  rw [Except.ok.inj h] at hle
  rw [List.length_drop] at hle
  exact hle.trans (Nat.sub_le _ _)

/-- What `PNG_READ_ALL` does after its opening. -/
theorem pngReadAll_of_open {s t : State} (ht : exec .pngOpen s = .next t) : pngReadAll s =
    if t.status.err.toByte ≠ 0 then some ([], .failed t.status.err.toByte, t.answer .status)
    else readAllLoop (t.ilen.toNat + 1) (t.answer .status) := by
  rw [pngReadAll, runLines_command_status rfl ht, nextState_next, Option.bind_some, State.answer_regRead_status]
  simp only [errOf_toWord, State.answer_ilen]

theorem pngReadAll_of_signature {s : State} (hin : s.ilen.toNat ≤ s.ibufSize.toNat)
    (hread : pngRead s.input = .error .signature) : ∃ t, pngReadAll s = some ([], .failed 0x10, t) := by
  rcases pngOpenBody_pngRead hin with ⟨-, hopen⟩ | ⟨cs, e, hok, -, -⟩
  · exact ⟨_, pngReadAll_of_open (exec_pngOpen hopen)⟩
  · cases hok.symm.trans hread

theorem pngReadAll_of_pngRead {s : State} (hin : s.ilen.toNat ≤ s.ibufSize.toNat) {cs : List Chunk} {e : WalkEnd}
    (hread : pngRead s.input = .ok (cs, e)) : ∃ views t, pngReadAll s = some (views, e.readAllEnd, t) ∧
      views.map (·.chunk s.input) = cs ∧ views.map ChunkView.crcOk = cs.map chunkCrcOk ∧ t.ibufSize = s.ibufSize := by
  rcases pngOpenBody_pngRead hin with ⟨herror, -⟩ | ⟨cs', e', hok, hopen, hwalks⟩
  · cases herror.symm.trans hread
  · cases hok.symm.trans hread
    have hlength : cs.length ≤ s.ilen.toNat := by
      have hle := pngRead_length_le hread
      rw [State.input, State.ibufBytes_length] at hle
      omega
    obtain ⟨views, t, hloop, hchunks, hverdicts, hsize⟩ := hwalks.readAllLoop rfl hlength _
    rw [State.input, State.openParse_ibufBytes, State.closeParse_ibufBytes] at hchunks
    refine ⟨views, t, ?_, hchunks, hverdicts, hsize⟩
    rw [pngReadAll_of_open (exec_pngOpen hopen), if_neg (fun h => h rfl), State.answer_eq_heard]
    exact hloop

/-- Settles O58: an error of `PNG_OPEN` stops it, and after an opening the loop walks as `png_read` does. -/
theorem pngReadAllIsPngRead : Obligations.PngReadAllIsPngRead := by
  refine fun s => ⟨fun hover => ?_, pngReadAll_of_signature, fun hin cs e hread => ?_⟩
  · rcases pngOpenBody_cases s with ⟨-, e⟩ | ⟨hin, -⟩ | ⟨hin, -⟩
    · exact ⟨_, pngReadAll_of_open (exec_pngOpen e)⟩
    · exact absurd hover hin
    · exact absurd hover hin
  · obtain ⟨views, t, hall, hchunks, hverdicts, -⟩ := pngReadAll_of_pngRead hin hread
    refine ⟨views, t, hall.trans ?_, hchunks, hverdicts⟩
    cases e <;> rfl

/-! ## `PNG_MINIMIZE` (R202) -/

theorem eq_signature_of_pngRead_error {bs : List Byte} {e : FormatError} (h : pngRead bs = .error e) : e = .signature := by
  rw [pngRead] at h
  split_ifs at h
  cases h
  rfl

/-- A machine whose `IBUF` holds a stream has an `IBUF`. -/
theorem ibufSize_ne_zero_of_pngRead {ibufSize : Word} {bs : List Byte} {r : List Chunk × WalkEnd}
    (hfits : bs.length ≤ ibufSize.toNat) (hread : pngRead bs = .ok r) : ibufSize ≠ 0 := by
  rintro rfl
  cases List.eq_nil_of_length_eq_zero (Nat.le_zero.1 hfits)
  cases hread

theorem writable_minimalList {ihdr idat iend : List Byte} (hihdr : ihdr.length < 4294967296)
    (hidat : idat.length < 4294967296) (hiend : iend.length < 4294967296) (srgb : Option Byte) :
    writable (minimalList ihdr srgb idat iend) = true := by
  cases srgb <;> simp [writable, minimalList, hihdr, hidat, hiend]

theorem dataOf_flatten_length_le (tag : Word) (cs : List Chunk) :
    (dataOf tag cs).flatten.length ≤ (cs.map Chunk.data).flatten.length :=
  (List.filter_sublist.map Chunk.data).flatten.length_le

/-- The minimal list of a stream shorter than 2^32 bytes can be written (44_pseudo_ops.md R195). -/
theorem writable_of_minimizeList {bs : List Byte} {cs : List Chunk} {e : WalkEnd} {srgb : Option Byte}
    {l : List (Word × List Byte)} (hbs : bs.length < 4294967296) (hread : pngRead bs = .ok (cs, e))
    (h : minimizeList cs srgb = .ok (some l)) : writable l = true := by
  obtain ⟨ihdr, iend, hihdr, hiend, rfl⟩ := minimizeList_eq_some h
  have hdata (tag : Word) : (dataOf tag cs).flatten.length < 4294967296 := by
    have hall := pngRead_length_le hread
    have hle := dataOf_flatten_length_le tag cs
    omega
  refine writable_minimalList ?_ (hdata tagIdat) ?_ srgb
  · simpa [hihdr] using hdata tagIhdr
  · simpa [hiend] using hdata tagIend

/-- Settles O60: `PNG_READ_ALL` gives the chunks `minimize` selects from, and `PNG_WRITE` the bytes it writes. -/
theorem pngMinimizeHostIsMinimize : Obligations.PngMinimizeHostIsMinimize := by
  intro s bs srgb hfits
  have hin : (s.load bs).ilen.toNat ≤ (s.load bs).ibufSize.toNat := (State.load_ilen_toNat hfits).trans_le hfits
  have hinput := State.load_input hfits
  rw [pngMinimizeHost, loadLines_of_fits hfits, Option.bind_some, runLines_load hfits, runLines_nil, nextState_next,
    Option.bind_some, minimize]
  cases hread : pngRead bs with
  | error e =>
    cases eq_signature_of_pngRead_error hread
    obtain ⟨t, hall⟩ := pngReadAll_of_signature hin (by rw [hinput, hread])
    rw [hall]
    exact ⟨t, rfl⟩
  | ok r =>
    obtain ⟨cs, e⟩ := r
    obtain ⟨views, t, hall, hchunks, -, hsize⟩ := pngReadAll_of_pngRead hin (by rw [hinput, hread])
    rw [hinput] at hchunks
    rw [hall]
    cases e with
    | trunc p => exact ⟨t, rfl⟩
    | atEnd =>
      simp only [WalkEnd.readAllEnd, Option.bind_some, hchunks]
      cases hlist : minimizeList cs srgb with
      | error e => exact ⟨t, rfl⟩
      | ok l =>
        cases l with
        | none => exact ⟨t, rfl⟩
        | some l =>
          have hbs : bs.length < 4294967296 := Nat.lt_of_le_of_lt hfits s.ibufSize.isLt
          have hout := pngWrite_of_writable (writable_of_minimizeList hbs hread hlist)
          obtain ⟨u, hu⟩ := pngWriteHost_of_pngWrite hout (s := t) (hsize ▸ ibufSize_ne_zero_of_pngRead hfits hread)
          simp only [hout, hu]
          exact ⟨u, rfl⟩

end Sys2Proof.Machine

/-! # Completion

60_exceptions.md R210 to R212, R214, R218: which codes a command shows, what an error leaves of the state, that no command
reads the completion before it, and that every operation comes to its end. -/

namespace Sys2Proof.Machine

/-! ## Codes (60_exceptions.md R211) -/

/-- The completion a command leaves: `ERRINFO` is 0 with the code `OK`, and any other code is one of the command's own. -/
structure State.ShowsCompletionOf (t : State) (i : Instr) : Prop where
  info_zero : t.status.err = .ok → t.errInfo = 0
  own_error : t.status.err ≠ .ok → t.ShowsErrorOf i

theorem State.completeOk_showsCompletionOf (s : State) (i : Instr) : s.completeOk.ShowsCompletionOf i :=
  ⟨fun _ => rfl, absurd rfl⟩

theorem State.completeError_showsCompletionOf {s : State} {i : Instr} {e : Code} {info : Nat} (he : e ≠ .ok)
    (h : (s.completeError e info).ShowsErrorOf i) : (s.completeError e info).ShowsCompletionOf i :=
  ⟨fun hok => absurd hok he, fun _ => h⟩

theorem State.completeError_errInfo_toNat (s : State) (e : Code) (w : Word) : (s.completeError e w.toNat).errInfo = w := by
  rw [State.completeError_toNat]

theorem crcBufBody_showsCompletion (s : State) : (crcBufBody s).complete.ShowsCompletionOf .crcBuf := by
  rcases crcBufBody_cases s with ⟨-, e⟩ | ⟨-, -, e⟩ | ⟨-, -, e⟩ <;> rw [e]
  · exact State.completeError_showsCompletionOf nofun ⟨rfl, .inl rfl⟩
  · exact State.completeError_showsCompletionOf nofun ⟨rfl, .inr rfl⟩
  · exact State.completeOk_showsCompletionOf _ _

theorem crcSumBody_showsCompletion (s : State) : (crcSumBody s).complete.ShowsCompletionOf .crcSum := by
  rcases crcSumBody_cases s with ⟨-, e⟩ | ⟨-, e⟩ <;> rw [e]
  · exact State.completeError_showsCompletionOf nofun ⟨rfl, rfl⟩
  · exact State.completeOk_showsCompletionOf _ _

theorem pngOpenBody_showsCompletion (s : State) : (pngOpenBody s).complete.ShowsCompletionOf .pngOpen := by
  rcases pngOpenBody_cases s with ⟨-, e⟩ | ⟨-, -, e⟩ | ⟨-, -, -, e⟩ <;> rw [e]
  · exact State.completeError_showsCompletionOf nofun (.inl ⟨rfl, rfl⟩)
  · exact State.completeError_showsCompletionOf nofun (.inr ⟨rfl, rfl⟩)
  · exact State.completeOk_showsCompletionOf _ _

theorem pngNextBody_showsCompletion (s : State) : (pngNextBody s).complete.ShowsCompletionOf .pngNext := by
  rcases pngNextBody_cases s with ⟨-, e⟩ | ⟨-, -, e⟩ | ⟨-, -, -, e⟩ | ⟨-, -, e⟩ <;> rw [e]
  · exact State.completeError_showsCompletionOf nofun (.inl ⟨rfl, rfl⟩)
  · exact State.completeOk_showsCompletionOf _ _
  · exact State.completeError_showsCompletionOf nofun (.inr ⟨rfl, s.completeError_errInfo_toNat _ _⟩)
  · exact State.completeOk_showsCompletionOf _ _

theorem pngIhdrBody_showsCompletion (s : State) : (pngIhdrBody s).complete.ShowsCompletionOf .pngIhdr := by
  rcases pngIhdrBody_cases s with ⟨-, e⟩ | ⟨-, -, -, e⟩ | ⟨-, -, -, e⟩ <;> rw [e]
  · exact State.completeError_showsCompletionOf nofun (.inl ⟨rfl, rfl⟩)
  · exact State.completeError_showsCompletionOf nofun (.inr ⟨rfl, s.completeError_errInfo_toNat _ _⟩)
  · exact State.completeOk_showsCompletionOf _ _

theorem pbEncodeBody_showsCompletion (s : State) : (pbEncodeBody s).complete.ShowsCompletionOf .pbEncode := by
  rcases pbEncodeBody_cases s with ⟨-, e⟩ | ⟨-, -, e⟩ | ⟨-, -, e⟩ <;> rw [e]
  · exact State.completeError_showsCompletionOf nofun (.inl ⟨rfl, rfl⟩)
  · have hinput : (s.scrambleOutput.completeError .overflow (pbEncode s.input).length).input = s.input :=
      State.ibufBytes_of_ibuf (s := s.scrambleOutput.completeError _ _) (t := s) rfl rfl 0 s.ilen.toNat
    refine State.completeError_showsCompletionOf nofun (.inr ⟨rfl, ?_⟩)
    rw [hinput, State.completeError_errInfo]
  · exact State.completeOk_showsCompletionOf _ _

/-- With the parse open, `PNG_NEXT` has a subject: its error is never `SEQUENCE`. -/
theorem pngNextBody_err_of_open {s u : State} {e : Code} {info : Nat} (hopen : s.status.pOpen = true)
    (h : pngNextBody s = .err u e info) : e = .fmtTruncated ∧ info = u.pPos.toNat := by
  rcases pngNextBody_cases s with ⟨hclosed, -⟩ | ⟨-, -, h'⟩ | ⟨-, -, -, h'⟩ | ⟨-, -, h'⟩
  · simp [hopen] at hclosed
  all_goals cases h'.symm.trans h
  exact ⟨rfl, rfl⟩

theorem pngNextBody_ok_pOpen {s u : State} (h : pngNextBody s = .ok u) : u.status.pOpen = s.status.pOpen := by
  rcases pngNextBody_ok h with rfl | ⟨c, rfl⟩ <;> rfl

/-- Where the stream has not ended, `PNG_NEXT` has yielded a chunk. -/
theorem pngNextBody_ok_chValid {s u : State} (h : pngNextBody s = .ok u) (heos : u.status.eos = false) :
    u.status.chValid = true := by
  rcases pngNextBody_ok h with rfl | ⟨c, rfl⟩
  · cases heos
  · rfl

/-- On a current chunk tagged `IHDR`, `PNG_IHDR` has a subject: it raises at most what `PNG_PEEK` raises. -/
theorem pngIhdrBody_showsPeekCompletion {s : State} (hvalid : s.status.chValid = true) (htag : s.chTag = tagIhdr) :
    (pngIhdrBody s).complete.ShowsCompletionOf .pngPeek := by
  rcases pngIhdrBody_cases s with ⟨hno, -⟩ | ⟨-, -, -, e⟩ | ⟨-, -, -, e⟩
  · simp [hvalid, htag] at hno
  · rw [e]
    exact State.completeError_showsCompletionOf nofun
      (.inr (.inr (.inr (.inr ⟨rfl, s.completeError_errInfo_toNat _ _⟩))))
  · rw [e]
    exact State.completeOk_showsCompletionOf _ _

/-- `PNG_PEEK` never raises `SEQUENCE`: its loop runs with the parse open and decodes only a chunk it has been yielded. -/
theorem pngPeekBody_showsCompletion {s : State} {d : Done} (hd : pngPeekBody s = some d) :
    d.complete.ShowsCompletionOf .pngPeek := by
  rcases pngPeekBody_cases (P := fun u => u.status.pOpen = true) rfl
      (fun _ _ hopen hn => (pngNextBody_ok_pOpen hn).trans hopen) hd with
    ⟨e, info, he, rfl⟩ | ⟨u, e, info, hopen, he, rfl⟩ | ⟨-, u, -, -, -, -, rfl⟩ | ⟨_, u, -, -, hn, heos, htag, rfl⟩
  · have hshows := pngOpenBody_showsCompletion s
    rw [he] at hshows
    exact ⟨hshows.info_zero, fun herr => (hshows.own_error herr).imp_right .inl⟩
  · obtain ⟨rfl, rfl⟩ := pngNextBody_err_of_open hopen he
    exact State.completeError_showsCompletionOf nofun (.inr (.inr (.inl ⟨rfl, u.completeError_errInfo_toNat _ _⟩)))
  · exact State.completeError_showsCompletionOf nofun (.inr (.inr (.inr (.inl ⟨rfl, rfl⟩))))
  · exact pngIhdrBody_showsPeekCompletion (pngNextBody_ok_chValid hn heos) htag

theorem exec_showsCompletion {i : Instr} {s t : State} (hi : i.format = .cw) (he : exec i s = .next t) :
    t.ShowsCompletionOf i := by
  cases i with
  | nop | sreset | crcInit | crcByte =>
    cases he
    exact State.completeOk_showsCompletionOf _ _
  | crcBuf => cases he; exact crcBufBody_showsCompletion s
  | crcSum => cases he; exact crcSumBody_showsCompletion s
  | pngOpen => cases he; exact pngOpenBody_showsCompletion s
  | pngNext => cases he; exact pngNextBody_showsCompletion s
  | pngIhdr => cases he; exact pngIhdrBody_showsCompletion s
  | pngPeek =>
    obtain ⟨d, hd, rfl⟩ := exec_pngPeek he
    exact pngPeekBody_showsCompletion hd
  | pbEncode => cases he; exact pbEncodeBody_showsCompletion s
  | pbLit | pbRun | pngSig | pngChunk | pngIhdrBody | pngSrgbBody => cases hi

/-- Settles O27: what a completion makes of `ERR` and `STICKY`, with the command's own codes. -/
theorem completionCodes : Obligations.CompletionCodes := by
  intro i s t hi he
  have hshows := exec_showsCompletion hi he
  by_cases hs : i = .sreset
  · subst hs
    cases he
    exact .inl ⟨rfl, rfl, absurd rfl, fun _ => rfl⟩
  · rcases exec_completed hi hs he with ⟨hok, hsticky⟩ | ⟨herr, hsticky⟩
    · exact .inl ⟨hok, hshows.info_zero hok, fun _ => hsticky, fun h => absurd h hs⟩
    · exact .inr ⟨herr, hsticky, hshows.own_error herr⟩

/-! ## Precision (60_exceptions.md R212) -/

/-- A pseudocode that raises does so in this state. -/
def Done.RaisesIn (s : State) : Done → Prop
  | .ok _      => True
  | .err u _ _ => u = s

/-- An error completion writes `ERR`, `STICKY` and `ERRINFO` of the state it is raised in. -/
theorem Done.RaisesIn.complete_eq {s : State} {d : Done} (h : d.RaisesIn s) (herr : d.complete.status.err ≠ .ok) :
    d.complete = { s with
      status := { s.status with err := d.complete.status.err, sticky := true }, errInfo := d.complete.errInfo } := by
  cases d with
  | ok u => exact absurd rfl herr
  | err u e info =>
    cases h
    rfl

theorem crcBufBody_raisesIn (s : State) : (crcBufBody s).RaisesIn s := by
  rcases crcBufBody_cases s with ⟨-, e⟩ | ⟨-, -, e⟩ | ⟨-, -, e⟩ <;> rw [e]
  · exact rfl
  · exact rfl
  · exact trivial

theorem crcSumBody_raisesIn (s : State) : (crcSumBody s).RaisesIn s := by
  rcases crcSumBody_cases s with ⟨-, e⟩ | ⟨-, e⟩ <;> rw [e]
  · exact rfl
  · exact trivial

theorem pngOpenBody_raisesIn (s : State) : (pngOpenBody s).RaisesIn s.closeParse := by
  rcases pngOpenBody_cases s with ⟨-, e⟩ | ⟨-, -, e⟩ | ⟨-, -, -, e⟩ <;> rw [e]
  · exact rfl
  · exact rfl
  · exact trivial

theorem pngNextBody_raisesIn (s : State) : (pngNextBody s).RaisesIn s := by
  cases hd : pngNextBody s with
  | ok u => exact trivial
  | err u e info => exact (pngNextBody_err hd).1

theorem pngIhdrBody_raisesIn (s : State) : (pngIhdrBody s).RaisesIn s := by
  rcases pngIhdrBody_cases s with ⟨-, e⟩ | ⟨-, -, -, e⟩ | ⟨-, -, -, e⟩ <;> rw [e]
  · exact rfl
  · exact rfl
  · exact trivial

/-- `RANGE` is raised before the output is touched (42_packbits.md R164). -/
theorem pbEncodeBody_raisesIn_of_range {s : State} (h : (pbEncodeBody s).complete.status.err = .range) :
    (pbEncodeBody s).RaisesIn s := by
  rcases pbEncodeBody_cases s with ⟨-, e⟩ | ⟨-, -, e⟩ | ⟨-, -, e⟩ <;> rw [e] at h ⊢
  · exact rfl
  · cases h
  · cases h

/-- `OVERFLOW` is raised with `OBUF` and `OLEN` unspecified (42_packbits.md R164). -/
theorem pbEncodeBody_raisesIn_of_overflow {s : State} (h : (pbEncodeBody s).complete.status.err = .overflow) :
    (pbEncodeBody s).RaisesIn s.scrambleOutput := by
  rcases pbEncodeBody_cases s with ⟨-, e⟩ | ⟨-, -, e⟩ | ⟨-, -, e⟩ <;> rw [e] at h ⊢
  · cases h
  · exact rfl
  · cases h

/-- Settles O28: the state each command raises in, by the three cases of R212. -/
theorem errorsArePrecise : Obligations.ErrorsArePrecise := by
  intro i s t he herr
  refine ⟨?unchanged, ?closed, ?output⟩
  case unchanged =>
    rintro (rfl | rfl | rfl | rfl | ⟨rfl, hrange⟩) <;> cases he
    · exact (crcBufBody_raisesIn s).complete_eq herr
    · exact (crcSumBody_raisesIn s).complete_eq herr
    · exact (pngNextBody_raisesIn s).complete_eq herr
    · exact (pngIhdrBody_raisesIn s).complete_eq herr
    · exact (pbEncodeBody_raisesIn_of_range hrange).complete_eq herr
  case closed =>
    rintro rfl
    cases he
    exact (pngOpenBody_raisesIn s).complete_eq herr
  case output =>
    rintro rfl hoverflow
    cases he
    rw [(pbEncodeBody_raisesIn_of_overflow hoverflow).complete_eq herr, hoverflow]
    rfl

/-! ## The completion before a command is not read (60_exceptions.md R214) -/

/-- The machine with another completion in `ERR` and `ERRINFO`. -/
def State.withCompletion (e : Code) (info : Word) (s : State) : State :=
  { s with status := { s.status with err := e }, errInfo := info }

/-- The same end of a command's pseudocode with another completion before it. -/
def Done.withCompletion (e : Code) (info : Word) : Done → Done
  | .ok s             => .ok (s.withCompletion e info)
  | .err s code extra => .err (s.withCompletion e info) code extra

section
variable (e : Code) (info : Word)

/-- Completion overwrites the completion before it. -/
theorem Done.complete_withCompletion (d : Done) : (d.withCompletion e info).complete = d.complete := by
  cases d <;> rfl

@[simp] theorem State.withCompletion_ibufBytes (s : State) (a n : Nat) :
    (s.withCompletion e info).ibufBytes a n = s.ibufBytes a n :=
  State.ibufBytes_of_ibuf (s := s.withCompletion e info) (t := s) rfl rfl a n

@[simp] theorem State.withCompletion_input (s : State) : (s.withCompletion e info).input = s.input :=
  s.withCompletion_ibufBytes e info 0 s.ilen.toNat

@[simp] theorem State.withCompletion_srcWindow (s : State) : (s.withCompletion e info).srcWindow = s.srcWindow :=
  s.withCompletion_ibufBytes e info s.srcOff.toNat s.srcLen.toNat

@[simp] theorem State.withCompletion_chunkAt (s : State) (p len : Nat) :
    (s.withCompletion e info).chunkAt p len = s.chunkAt p len := by
  rw [State.chunkAt, State.withCompletion_ibufBytes]
  rfl

theorem crcBufBody_withCompletion (s : State) :
    crcBufBody (s.withCompletion e info) = (crcBufBody s).withCompletion e info := by
  simp only [crcBufBody, State.withCompletion_srcWindow, apply_ite (Done.withCompletion e info)]
  rfl

theorem crcSumBody_withCompletion (s : State) :
    crcSumBody (s.withCompletion e info) = (crcSumBody s).withCompletion e info := by
  simp only [crcSumBody, State.withCompletion_input, apply_ite (Done.withCompletion e info)]
  rfl

theorem pngOpenBody_withCompletion (s : State) :
    pngOpenBody (s.withCompletion e info) = (pngOpenBody s).withCompletion e info := by
  simp only [pngOpenBody, State.closeParse_ibufBytes, State.withCompletion_ibufBytes,
    apply_ite (Done.withCompletion e info)]
  rfl

theorem pngNextBody_withCompletion (s : State) :
    pngNextBody (s.withCompletion e info) = (pngNextBody s).withCompletion e info := by
  simp only [pngNextBody, State.withCompletion_chunkAt, apply_ite (Done.withCompletion e info)]
  rfl

theorem pngIhdrBody_withCompletion (s : State) :
    pngIhdrBody (s.withCompletion e info) = (pngIhdrBody s).withCompletion e info := by
  simp only [pngIhdrBody, apply_ite (Done.withCompletion e info)]
  rfl

theorem pbEncodeBody_withCompletion (s : State) :
    pbEncodeBody (s.withCompletion e info) = (pbEncodeBody s).withCompletion e info := by
  simp only [pbEncodeBody, State.withCompletion_input, State.emit, apply_ite (Done.withCompletion e info)]
  rfl

theorem pngPeekWalk_withCompletion (fuel : Nat) (s : State) :
    pngPeekWalk fuel (s.withCompletion e info) = (pngPeekWalk fuel s).map (Done.withCompletion e info) := by
  induction fuel generalizing s with
  | zero => rfl
  | succ fuel ih =>
    rw [pngPeekWalk, pngPeekWalk, pngNextBody_withCompletion]
    cases pngNextBody s with
    | err u code extra => rfl
    | ok u =>
      simp only [Done.withCompletion, apply_ite (Option.map (Done.withCompletion e info))]
      exact ite_congr rfl (fun _ => rfl) fun _ =>
        ite_congr rfl (fun _ => congrArg some (pngIhdrBody_withCompletion e info u)) fun _ => ih u

theorem pngPeekBody_withCompletion (s : State) :
    pngPeekBody (s.withCompletion e info) = (pngPeekBody s).map (Done.withCompletion e info) := by
  rw [pngPeekBody, pngPeekBody, pngOpenBody_withCompletion]
  cases pngOpenBody s with
  | err u code extra => rfl
  | ok u => exact pngPeekWalk_withCompletion e info _ u

end

/-- Ends that differ in the completion before them only complete in the same answer. -/
theorem next_complete_withCompletion {e : Code} {info : Word} {d d' : Done} (h : d' = d.withCompletion e info) :
    (.next d'.complete : Answer) = .next d.complete := by
  rw [h, Done.complete_withCompletion]

/-- Settles O30: no body reads `ERR` or `ERRINFO`, and completion overwrites both. -/
theorem oldCompletionIsNotRead : Obligations.OldCompletionIsNotRead := by
  intro i s e info hi
  show exec i (s.withCompletion e info) = exec i s
  cases i with
  | nop | sreset | crcInit | crcByte => rfl
  | crcBuf => exact next_complete_withCompletion (crcBufBody_withCompletion e info s)
  | crcSum => exact next_complete_withCompletion (crcSumBody_withCompletion e info s)
  | pngOpen => exact next_complete_withCompletion (pngOpenBody_withCompletion e info s)
  | pngNext => exact next_complete_withCompletion (pngNextBody_withCompletion e info s)
  | pngIhdr => exact next_complete_withCompletion (pngIhdrBody_withCompletion e info s)
  | pbEncode => exact next_complete_withCompletion (pbEncodeBody_withCompletion e info s)
  | pngPeek =>
    obtain ⟨d, hd⟩ := Option.isSome_iff_exists.1 (pngPeekBody_isSome s)
    have hd' : pngPeekBody (s.withCompletion e info) = some (d.withCompletion e info) := by
      rw [pngPeekBody_withCompletion, hd, Option.map_some]
    rw [exec_pngPeek_of_body hd', exec_pngPeek_of_body hd, Done.complete_withCompletion]
  | pbLit | pbRun | pngSig | pngChunk | pngIhdrBody | pngSrgbBody => cases hi

/-! ## Every operation comes to its end (60_exceptions.md R210) -/

theorem exists_exec_eq_next (i : Instr) (s : State) : ∃ t, exec i s = .next t := by
  cases i with
  | pngPeek =>
    obtain ⟨d, hd⟩ := Option.isSome_iff_exists.1 (pngPeekBody_isSome s)
    exact ⟨_, exec_pngPeek_of_body hd⟩
  | nop | sreset | crcInit | crcByte | crcBuf | crcSum | pngOpen | pngNext | pngIhdr | pbEncode => exact ⟨_, rfl⟩
  | pbLit | pbRun | pngSig | pngChunk | pngIhdrBody | pngSrgbBody => exact ⟨_, rfl⟩

theorem exists_issueCommand_eq_next (w : Word) (s : State) : ∃ t, issueCommand w s = .next t := by
  unfold issueCommand
  split
  · exact exists_exec_eq_next _ s
  · exact ⟨_, rfl⟩

theorem exists_perform_eq_next (op : HostOp) (s : State) : ∃ t, perform op s = .next t := by
  cases op with
  | regRead | obufRead | hardwareReset => exact ⟨_, rfl⟩
  | ibufWrite a b =>
    rw [perform, execIbufWrite]
    split <;> exact ⟨_, rfl⟩
  | regWrite n v =>
    rw [perform]
    rcases execRegWrite_cases n v s with ⟨-, e⟩ | ⟨-, e⟩ | ⟨-, e⟩ | ⟨-, e⟩ | ⟨-, -, -, -, e⟩ <;> rw [e]
    · exact exists_issueCommand_eq_next v s
    all_goals exact ⟨_, rfl⟩

theorem exists_step_eq_next (s : State) : ∃ t, step s = .next t := by
  cases hpending : s.pending with
  | nil => exact ⟨s, step_of_pending_nil hpending⟩
  | cons op ops =>
    rw [step_of_pending_cons hpending]
    exact exists_perform_eq_next op _

/-- An operation that is neither a write to `CMD` nor hardware reset completes with no code. -/
theorem perform_keeps_completion {op : HostOp} {s t : State} (h : perform op s = .next t)
    (hcommand : ∀ w, op ≠ .regWrite 0x00 w) (hreset : op ≠ .hardwareReset) :
    t.status.err = s.status.err ∧ t.status.sticky = s.status.sticky ∧ t.errInfo = s.errInfo := by
  cases performed_of_perform h with
  | command | illegal => exact absurd rfl (hcommand _)
  | reset => exact absurd rfl hreset
  | ilen | ibuf | access => exact ⟨rfl, rfl, rfl⟩

/-- Settles O6: every answer is a next state, and a command's shows one of the completions of R211. -/
theorem everyCommandCompletes : Obligations.EveryCommandCompletes := by
  refine ⟨fun i s => ?_, fun op s => ?_, exists_step_eq_next⟩
  · obtain ⟨t, he⟩ := exists_exec_eq_next i s
    refine ⟨t, he, fun hi => ?_⟩
    rcases completionCodes i s t hi he with ⟨hok, hinfo, -, -⟩ | ⟨herr, hsticky, -⟩
    · exact .inl ⟨hok, hinfo⟩
    · exact .inr ⟨herr, hsticky⟩
  · obtain ⟨t, he⟩ := exists_perform_eq_next op s
    exact ⟨t, he, perform_keeps_completion he⟩

/-! ## A CRC mismatch (60_exceptions.md R218) -/

/-- Settles O31: the chunk is yielded as any other (41_png_chunk.md R134), with the verdict of the comparison. -/
theorem crcMismatchIsNoError : Obligations.CrcMismatchIsNoError := by
  intro s p len hp hlen hopen hfits hmismatch
  obtain ⟨-, hnext⟩ := pngNextYieldsChunk
  obtain ⟨-, -, -, -, hchunk⟩ := hnext s p len hp hlen
  refine ⟨_, hchunk hopen hfits, decide_eq_false hmismatch, rfl, rfl, rfl, rfl, rfl, ?_⟩
  exact Nat.mod_eq_of_lt (Nat.lt_of_le_of_lt hfits s.ilen.isLt)

end Sys2Proof.Machine

/-! # Reset

70_reset_and_hazards.md R230, R231: what the host reads in the reset state, and what hardware reset puts in the place of any
state. -/

namespace Sys2Proof.Machine

/-! ## The reset state (R231, 10_state.md R43) -/

@[simp] theorem Status.toWord_reset : Status.reset.toWord = 0 := by decide

/-- `CRC_OUT` is the complement of `CRC_R` (10_state.md R33), which resets to all ones. -/
theorem State.reset_crcOut : State.reset.readReg .crcOut = 0 := by decide

/-- A register without a reset value of its own reads 0: `CMD` always, `STATUS` with no flag set, `CRC_OUT` as a complement,
every other from its storage. -/
theorem State.reset_readReg_eq_zero {r : Reg} (hibuf : r ≠ .ibufSize) (hobuf : r ≠ .obufSize) (hcrc : r ≠ .crcR)
    (hpoly : r ≠ .crcPoly) : State.reset.readReg r = 0 := by
  cases r
  case ibufSize | obufSize | crcR | crcPoly => contradiction
  case status => exact Status.toWord_reset
  case crcOut => exact State.reset_crcOut
  all_goals rfl

/-- Settles O38: every register by its name, `State.regRead_num`. -/
theorem resetStateValues : Obligations.ResetStateValues := by
  refine ⟨fun r hibuf hobuf hcrc hpoly => ?_, ?_, ?_, ?_, ?_, rfl, rfl, rfl⟩
  · exact (State.regRead_num _ r).trans (State.reset_readReg_eq_zero hibuf hobuf hcrc hpoly)
  · exact State.regRead_num _ .crcR
  · exact State.regRead_num _ .crcPoly
  · exact State.regRead_num _ .ibufSize
  · exact State.regRead_num _ .obufSize

/-! ## Hardware reset (R230) -/

/-- Where no byte of `IBUF` is listed, each reads its free value (93_implementation_defined.md U4). -/
theorem State.ibufByte_of_ibuf_nil {s : State} (h : s.ibuf = []) (a : Nat) :
    s.ibufByte a = Config.freeIbuf s.ibufDraw a := by
  rw [State.ibufByte, h, Memory.read_nil, Option.getD_none]

/-- Where no byte of `OBUF` is listed, each reads its free value (93_implementation_defined.md U4, U5). -/
theorem State.obufByte_of_obuf_nil {s : State} (h : s.obuf = []) (a : Nat) :
    s.obufByte a = Config.freeObuf s.obufDraw a := by
  rw [State.obufByte, h, Memory.read_nil, Option.getD_none]

theorem perform_hardwareReset (s : State) : perform .hardwareReset s = .next s.hardReset := rfl

/-- Settles O39: the next state is `hardReset`, whose draws are one past the old ones and which lists no byte. -/
theorem hardwareResetReplacesState : Obligations.HardwareResetReplacesState := fun s =>
  ⟨s.hardReset, perform_hardwareReset s, rfl, Nat.lt_succ_self _, Nat.lt_succ_self _,
    State.ibufByte_of_ibuf_nil s.hardReset_ibuf, State.obufByte_of_obuf_nil s.hardReset_obuf⟩

end Sys2Proof.Machine
